-- ==== Sys2Proof/Word.lean ====
section
/-!
DEFINITION. The plainest words of the machine: bytes, instruction words and register numbers, and the slices of
00_scope.md rules R9 and R10.
-/

namespace Sys2Proof

/-- A byte, 8 bits (20_memory.md rule R60). -/
abbrev Byte := BitVec 8

/-- An instruction word, 16 bits (30_encoding.md rule R90). -/
abbrev IWord := BitVec 16

/-- A general register number, 0 to 15 (10_state.md rule R20). -/
abbrev Reg := Fin 16

end Sys2Proof
end

