-- ==== Sys2Proof/Config.lean ====
section
/-!
DEFINITION. The implementation parameters of 00_scope.md rule R7, as plain data, the reference configuration of rule R8,
and the free values: constants with no body for what the spec leaves open.
-/

namespace Sys2Proof

/-- BYTE_ORDER (20_memory.md rule R62). -/
inductive ByteOrder where
  | little
  | big
deriving DecidableEq, Repr

/-- MISC_0111: what the miscellaneous code 0b0111 selects (49_misc_and_long.md rules R279, R280). -/
inductive Misc0111 where
  | loop
  | loopIndirect
deriving DecidableEq, Repr

/-- FAULT_CONTINUATION: what SR 8 receives on a synchronous exception other than DEG (60_exceptions.md rule R307). -/
inductive FaultContinuation where
  | current
  | next
deriving DecidableEq, Repr

/-- The three kinds of a byte address (20_memory.md rule R61). -/
inductive RegionKind where
  | plain
  | device
  | nothing
deriving DecidableEq, Repr

/-- One region of MEM_MAP: the byte addresses `base` to `base + size - 1`. -/
structure Region where
  base : Nat
  size : Nat
  kind : RegionKind
deriving DecidableEq, Repr

/-- The parameters of 00_scope.md rule R7. They are data, so that every statement about a state is about every
configuration; no step changes them. -/
structure Config where
  /-- WB, bytes in a word; the word size W is 8 * WB. -/
  wordBytes : Nat
  /-- HAS_MUL, the hardware multiplier. -/
  hasMul : Bool
  /-- BYTE_ORDER. -/
  byteOrder : ByteOrder
  /-- RESET_PC, the value of R0 after reset. -/
  resetPc : Nat
  /-- MEM_MAP: an address lies in the first region that holds it, and is plain memory when none does. -/
  regions : List Region
  /-- MISC_0111. -/
  misc0111 : Misc0111
  /-- MISC_MULDIV_NEEDS_MUL. -/
  miscMulDivNeedsMul : Bool
  /-- FAULT_CONTINUATION. -/
  faultContinuation : FaultContinuation
deriving DecidableEq, Repr

/-- W, the width in bits of a register, an address and a data transfer: a multiple of 8 by construction. -/
abbrev Config.wordBits (c : Config) : Nat := 8 * c.wordBytes

/-- The reference configuration (00_scope.md rule R8, and rule R7's last column for MISC_MULDIV_NEEDS_MUL). -/
def Config.reference : Config where
  wordBytes := 2
  hasMul := true
  byteOrder := .little
  resetPc := 0
  regions := []
  misc0111 := .loop
  miscMulDivNeedsMul := true
  faultContinuation := .current

/-- MODEL_ID: 0, the one value with a meaning (00_scope.md rules R3 and R7, 10_state.md rule R32). -/
def Config.modelId : Nat := 0

/-- FREE VALUE (log entry 6). CORE_KHZ, what SR 6 reads as: any word (10_state.md rule R38). -/
opaque Config.coreKhz : Nat

/-- FREE VALUE (log entry 5). CYCLES(instruction): the cycles the draw numbered by the argument adds to SR 5, at least 0
and under no further law (10_state.md rule R37). -/
opaque Config.cycles : Nat → Nat

/-- FREE VALUE (log entry 7). What the device access numbered by the argument reads: the device's affair
(20_memory.md rule R61). -/
opaque Config.deviceValue : Nat → Nat

/-- FREE VALUE (log entry 10). Which of several requesting devices is served (60_exceptions.md rule R312 (c)). -/
opaque Config.deviceChoice : Nat → Nat

/-- FREE VALUE (log entry 3). What the byte at an address holds that neither the platform's image nor any write covers
(70_reset_and_hazards.md rule R342: "a read of an arbitrary value"). -/
opaque Config.unwrittenByte : Nat → Byte

end Sys2Proof
end

