-- ==== Sys2Proof/Syntax.lean ====
section
/-!
DEFINITION. The instructions: one constructor per row of spec/opcode_table.json, with the operands of 30_encoding.md rule
R91 in the assembly order of rule R108 (destination first).
-/

namespace Sys2Proof

/-- The four increment modes of a data-transfer operand (44_data_transfer.md rules R192 to R195). -/
inductive IncMode where
  /-- `0b00`, no change. -/
  | none
  /-- `0b01`, autoincrement: plus WB after. -/
  | autoInc
  /-- `0b10`, autodecrement: minus WB before. -/
  | autoDec
  /-- `0b11`, autopostdecrement: minus WB after. -/
  | autoPostDec
deriving DecidableEq, Repr

/-- One operand of a data transfer: its register, its indirect bit and its increment mode (30_encoding.md rule R100). -/
structure Operand where
  reg : Reg
  indirect : Bool
  mode : IncMode
deriving DecidableEq, Repr

/-- The instructions. `d` is the destination register field, `r` the source register field; a 4-bit immediate field is
`n` (unsigned) or `imm` (two's complement); the field B of LOOP is `b`, an immediate or a register number as MISC_0111
says. -/
inductive Instr where
  /-- Distinguished exception generator (R120). -/
  | deg
  -- bitwise (R131 to R146)
  | bitF (d r : Reg)
  | bitNor (d r : Reg)
  | bitNci (d r : Reg)
  | bitNd (d r : Reg)
  | bitNmi (d r : Reg)
  | bitNs (d r : Reg)
  | bitXor (d r : Reg)
  | bitNand (d r : Reg)
  | bitAnd (d r : Reg)
  | bitXnor (d r : Reg)
  | bitS (d r : Reg)
  | bitMi (d r : Reg)
  | bitD (d r : Reg)
  | bitCi (d r : Reg)
  | bitOr (d r : Reg)
  | bitT (d r : Reg)
  -- arithmetic, register form (R153 to R160)
  | add (d r : Reg)
  | sub (d r : Reg)
  | shl (d r : Reg)
  | shr (d r : Reg)
  | asr (d r : Reg)
  | mul (d r : Reg)
  | div (d r : Reg)
  | mod (d r : Reg)
  -- arithmetic, immediate form (R153 to R160)
  | addi (d : Reg) (n : BitVec 4)
  | subi (d : Reg) (n : BitVec 4)
  | shli (d : Reg) (n : BitVec 4)
  | shri (d : Reg) (n : BitVec 4)
  | asri (d : Reg) (n : BitVec 4)
  | muli (d : Reg) (n : BitVec 4)
  | divi (d : Reg) (n : BitVec 4)
  | modi (d : Reg) (n : BitVec 4)
  -- comparison (R172 to R187)
  | cmpF (d r : Reg)
  | cmpEq (d r : Reg)
  | cmpAb (d r : Reg)
  | cmpAbe (d r : Reg)
  | cmpSf (d r : Reg)
  | cmpSeq (d r : Reg)
  | cmpGt (d r : Reg)
  | cmpGte (d r : Reg)
  | cmpT (d r : Reg)
  | cmpNeq (d r : Reg)
  | cmpBle (d r : Reg)
  | cmpBl (d r : Reg)
  | cmpSt (d r : Reg)
  | cmpSneq (d r : Reg)
  | cmpLte (d r : Reg)
  | cmpLt (d r : Reg)
  /-- Data transfer (R190). -/
  | xf (dst src : Operand)
  /-- Conditional branch on non-zero (R210). -/
  | bnz (c : Reg) (off : BitVec 8)
  /-- Subword, zero-extending (R217); `size` is the size in bytes as the assembly writes it, 1 to 8. -/
  | subw (d i : Reg) (size : Nat)
  /-- Subword, sign-extending (R217). -/
  | subws (d i : Reg) (size : Nat)
  /-- System register read (R225); `n` is the system register number. -/
  | srr (r : Reg) (n : BitVec 8)
  /-- System register write (R226). -/
  | srw (r : Reg) (n : BitVec 8)
  /-- Small immediate (R260). -/
  | si (d : Reg) (n : BitVec 8)
  /-- Select register (R262): condition, nonzero and zero register. -/
  | sel (c n z : Reg)
  -- miscellaneous (R271 to R288)
  | swap (a b : Reg)
  | mmul (a b : Reg)
  | mdiv (a b : Reg)
  | mmod (a b : Reg)
  | ldreg (a b : Reg)
  | streg (a b : Reg)
  | ldoff (a : Reg) (imm : BitVec 4)
  | loop (a : Reg) (b : BitVec 4)
  | jz (a : Reg) (imm : BitVec 4)
  | jzr (a b : Reg)
  | jnz (a : Reg) (imm : BitVec 4)
  | jnzr (a b : Reg)
  | jgz (a : Reg) (imm : BitVec 4)
  | jgzr (a b : Reg)
  | jlz (a : Reg) (imm : BitVec 4)
  | jlzr (a b : Reg)
  /-- Long instruction, first word (R290): number of iwords to follow, and the low byte the source gives no meaning. -/
  | long (l : BitVec 4) (ext : BitVec 8)
deriving DecidableEq, Repr

end Sys2Proof
end

