-- ==== Sys2Proof/WellFormed.lean ====
section
/-!
DEFINITION. Which instruction terms stand for an instruction word, and which configurations 00_scope.md rule R7 allows.
-/

namespace Sys2Proof

/-- An instruction some word stands for: the operand ranges of 30_encoding.md rule R108. Every other operand's type is
exactly its encoded field, so only the subword size (rule R98, 1 to 8 bytes) can be out of range. -/
abbrev Instr.WellFormed : Instr → Prop
  | .subw _ _ size => 1 ≤ size ∧ size ≤ 8
  | .subws _ _ size => 1 ≤ size ∧ size ≤ 8
  | _ => True

/-- A region lies inside the address space, and a device's region begins at an even address (20_memory.md rule R61). -/
abbrev Region.WellFormed (addressSpace : Nat) (r : Region) : Prop :=
  r.base + r.size ≤ addressSpace ∧ (r.kind = .device → r.base % 2 = 0 ∧ 0 < r.size)

/-- The constraints of 00_scope.md rule R7: W is a multiple of 8 (by construction) and at least 16, RESET_PC is a multiple
of 2, and 20_memory.md rule R61 on the regions. -/
abbrev Config.WellFormed (c : Config) : Prop :=
  2 ≤ c.wordBytes ∧ c.resetPc % 2 = 0 ∧ c.resetPc < 2 ^ c.wordBits ∧
    ∀ r ∈ c.regions, r.WellFormed (2 ^ c.wordBits)

end Sys2Proof
end

