-- ==== Sys2Proof/Decode.lean ====
section
/-!
DEFINITION. The decoder (30_encoding.md rule R93), total on any word and any bytes, and after it the encoder, from the same
formats (rule R91).
-/

namespace Sys2Proof

/-- Why a word, or a list of bytes, is no instruction of the table. -/
inductive Reject where
  /-- A word 0x0001 to 0x0FFF, which the source gives no meaning (30_encoding.md rule R102). -/
  | reserved (w : IWord)
  /-- Fewer than two bytes: no instruction word is there. -/
  | truncated
deriving DecidableEq, Repr

/-- The slice `w[lo+len-1 : lo]`, as an unsigned integer (00_scope.md rule R10). -/
def slice (w : IWord) (lo len : Nat) : Nat := w.toNat / 2 ^ lo % 2 ^ len

/-- The 4-bit register field whose lowest bit is `lo`. -/
def regField (w : IWord) (lo : Nat) : Reg := Fin.ofNat 16 (slice w lo 4)

/-- The 4-bit immediate field `I[7:4]`. -/
def immField (w : IWord) : BitVec 4 := BitVec.ofNat 4 (slice w 4 4)

/-- The 8-bit field `I[7:0]`. -/
def lowByte (w : IWord) : BitVec 8 := BitVec.ofNat 8 (slice w 0 8)

/-- The increment mode of a 2-bit field (44_data_transfer.md rules R192 to R195). -/
def decodeMode : Nat → IncMode
  | 0 => .none
  | 1 => .autoInc
  | 2 => .autoDec
  | _ => .autoPostDec

/-- Format BW: the sixteen truth tables, by `M = I[11:8]`. -/
def decodeBitwise (m : Nat) (d r : Reg) : Instr :=
  match m with
  | 0 => .bitF d r
  | 1 => .bitNor d r
  | 2 => .bitNci d r
  | 3 => .bitNd d r
  | 4 => .bitNmi d r
  | 5 => .bitNs d r
  | 6 => .bitXor d r
  | 7 => .bitNand d r
  | 8 => .bitAnd d r
  | 9 => .bitXnor d r
  | 10 => .bitS d r
  | 11 => .bitMi d r
  | 12 => .bitD d r
  | 13 => .bitCi d r
  | 14 => .bitOr d r
  | _ => .bitT d r

/-- Format AR: `I[11:8] = 8*Si + M`, the source field a register (Si = 0) or an immediate (Si = 1). -/
def decodeArith (op : Nat) (d r : Reg) (n : BitVec 4) : Instr :=
  match op with
  | 0 => .add d r
  | 1 => .sub d r
  | 2 => .shl d r
  | 3 => .shr d r
  | 4 => .asr d r
  | 5 => .mul d r
  | 6 => .div d r
  | 7 => .mod d r
  | 8 => .addi d n
  | 9 => .subi d n
  | 10 => .shli d n
  | 11 => .shri d n
  | 12 => .asri d n
  | 13 => .muli d n
  | 14 => .divi d n
  | _ => .modi d n

/-- Format CM: the sixteen conditions, by `I[11:8] = 8*IV + 4*SN + 2*GT + EQ`. -/
def decodeCompare (c : Nat) (d r : Reg) : Instr :=
  match c with
  | 0 => .cmpF d r
  | 1 => .cmpEq d r
  | 2 => .cmpAb d r
  | 3 => .cmpAbe d r
  | 4 => .cmpSf d r
  | 5 => .cmpSeq d r
  | 6 => .cmpGt d r
  | 7 => .cmpGte d r
  | 8 => .cmpT d r
  | 9 => .cmpNeq d r
  | 10 => .cmpBle d r
  | 11 => .cmpBl d r
  | 12 => .cmpSt d r
  | 13 => .cmpSneq d r
  | 14 => .cmpLte d r
  | _ => .cmpLt d r

/-- Format XF: `Sm = I[13]`, `Sa = I[12:11]`, `Dm = I[10]`, `Da = I[9:8]`. -/
def decodeTransfer (w : IWord) : Instr :=
  .xf { reg := regField w 0, indirect := slice w 10 1 = 1, mode := decodeMode (slice w 8 2) }
      { reg := regField w 4, indirect := slice w 13 1 = 1, mode := decodeMode (slice w 11 2) }

/-- Format SW: `Sex = I[11]`, `Sws = I[10:8]` with 0 standing for 8 bytes (rule R98). -/
def decodeSubword (w : IWord) : Instr :=
  let size := if slice w 8 3 = 0 then 8 else slice w 8 3
  if slice w 11 1 = 1 then .subws (regField w 0) (regField w 4) size
  else .subw (regField w 0) (regField w 4) size

/-- Format MS: the sixteen operations, by `I[11:8]`. -/
def decodeMisc (op : Nat) (a b : Reg) (imm : BitVec 4) : Instr :=
  match op with
  | 0 => .swap a b
  | 1 => .mmul a b
  | 2 => .mdiv a b
  | 3 => .mmod a b
  | 4 => .ldreg a b
  | 5 => .streg a b
  | 6 => .ldoff a imm
  | 7 => .loop a imm
  | 8 => .jz a imm
  | 9 => .jzr a b
  | 10 => .jnz a imm
  | 11 => .jnzr a b
  | 12 => .jgz a imm
  | 13 => .jgzr a b
  | 14 => .jlz a imm
  | _ => .jlzr a b

/-- The decoding procedure of 30_encoding.md rule R93. The multiplier's presence, which that procedure tests too, is a
parameter of the machine and not of the word: the meanings of the instructions concerned test it first (42_arithmetic.md
rule R152), and rule R302's Illegal instruction for a reserved word is raised by the step. -/
def decode (w : IWord) : Except Reject Instr :=
  let op := slice w 8 4
  let d := regField w 0
  let r := regField w 4
  let c := regField w 8
  match slice w 12 4 with
  | 0 => if w = 0 then .ok .deg else .error (.reserved w)
  | 1 => .ok (decodeBitwise op d r)
  | 2 => .ok (decodeArith op d r (immField w))
  | 3 => .ok (decodeCompare op d r)
  | 8 => .ok (.bnz c (lowByte w))
  | 9 => .ok (decodeSubword w)
  | 10 => .ok (.srr c (lowByte w))
  | 11 => .ok (.srw c (lowByte w))
  | 12 => .ok (.si d (BitVec.ofNat 8 (slice w 4 8)))
  | 13 => .ok (.sel c r d)
  | 14 => .ok (decodeMisc op d r (immField w))
  | 15 => .ok (.long (BitVec.ofNat 4 op) (lowByte w))
  | _ => .ok (decodeTransfer w)

/-- The number the bytes stand for, the first byte least significant (20_memory.md rule R64, `little`). -/
def natOfBytes : List Byte → Nat
  | [] => 0
  | b :: bs => b.toNat + 256 * natOfBytes bs

/-- The `n` bytes of a number, least significant first (20_memory.md rule R65, `little`). -/
def bytesOfNat : Nat → Nat → List Byte
  | 0, _ => []
  | n + 1, v => BitVec.ofNat 8 v :: bytesOfNat n (v / 256)

/-- Bytes in the order of their addresses, from bytes least significant first, and back (20_memory.md rule R62). -/
def ByteOrder.arrange (o : ByteOrder) (bs : List Byte) : List Byte :=
  match o with
  | .little => bs
  | .big => bs.reverse

/-- The instruction at the head of the bytes and the bytes after it, total on any bytes. -/
def decodeBytes (o : ByteOrder) : List Byte → Except Reject (Instr × List Byte)
  | b0 :: b1 :: rest =>
    match decode (BitVec.ofNat 16 (natOfBytes (o.arrange [b0, b1]))) with
    | .ok i => .ok (i, rest)
    | .error e => .error e
  | _ => .error .truncated

/-- The bytes of an instruction word as memory holds them. -/
def wordBytesOf (o : ByteOrder) (w : IWord) : List Byte := o.arrange (bytesOfNat 2 w.toNat)

/-- The instruction the decoder reads from a row's bits, numbered as spec/opcode_table.json numbers them: the bits above
`nbits` are 0. -/
def decodeTableWord (nbits w : Nat) : Option Instr :=
  match decodeBytes Config.reference.byteOrder
      (wordBytesOf Config.reference.byteOrder (BitVec.ofNat 16 (w % 2 ^ nbits))) with
  | .ok (i, _) => some i
  | .error _ => none

/-- The 2-bit field of an increment mode. -/
def encodeMode : IncMode → Nat
  | .none => 0
  | .autoInc => 1
  | .autoDec => 2
  | .autoPostDec => 3

/-- Three low nibbles under a class nibble: `op`, then the field in bits 7:4, then the field in bits 3:0. -/
def nibbles (cls op mid low : Nat) : IWord :=
  BitVec.ofNat 16 (cls * 0x1000 + op * 0x100 + mid * 0x10 + low)

/-- The word of an instruction (30_encoding.md rule R91 and the encoding line of each instruction's rule). -/
def encode : Instr → IWord
  | .deg => 0
  | .bitF d r => nibbles 1 0 r d
  | .bitNor d r => nibbles 1 1 r d
  | .bitNci d r => nibbles 1 2 r d
  | .bitNd d r => nibbles 1 3 r d
  | .bitNmi d r => nibbles 1 4 r d
  | .bitNs d r => nibbles 1 5 r d
  | .bitXor d r => nibbles 1 6 r d
  | .bitNand d r => nibbles 1 7 r d
  | .bitAnd d r => nibbles 1 8 r d
  | .bitXnor d r => nibbles 1 9 r d
  | .bitS d r => nibbles 1 10 r d
  | .bitMi d r => nibbles 1 11 r d
  | .bitD d r => nibbles 1 12 r d
  | .bitCi d r => nibbles 1 13 r d
  | .bitOr d r => nibbles 1 14 r d
  | .bitT d r => nibbles 1 15 r d
  | .add d r => nibbles 2 0 r d
  | .sub d r => nibbles 2 1 r d
  | .shl d r => nibbles 2 2 r d
  | .shr d r => nibbles 2 3 r d
  | .asr d r => nibbles 2 4 r d
  | .mul d r => nibbles 2 5 r d
  | .div d r => nibbles 2 6 r d
  | .mod d r => nibbles 2 7 r d
  | .addi d n => nibbles 2 8 n.toNat d
  | .subi d n => nibbles 2 9 n.toNat d
  | .shli d n => nibbles 2 10 n.toNat d
  | .shri d n => nibbles 2 11 n.toNat d
  | .asri d n => nibbles 2 12 n.toNat d
  | .muli d n => nibbles 2 13 n.toNat d
  | .divi d n => nibbles 2 14 n.toNat d
  | .modi d n => nibbles 2 15 n.toNat d
  | .cmpF d r => nibbles 3 0 r d
  | .cmpEq d r => nibbles 3 1 r d
  | .cmpAb d r => nibbles 3 2 r d
  | .cmpAbe d r => nibbles 3 3 r d
  | .cmpSf d r => nibbles 3 4 r d
  | .cmpSeq d r => nibbles 3 5 r d
  | .cmpGt d r => nibbles 3 6 r d
  | .cmpGte d r => nibbles 3 7 r d
  | .cmpT d r => nibbles 3 8 r d
  | .cmpNeq d r => nibbles 3 9 r d
  | .cmpBle d r => nibbles 3 10 r d
  | .cmpBl d r => nibbles 3 11 r d
  | .cmpSt d r => nibbles 3 12 r d
  | .cmpSneq d r => nibbles 3 13 r d
  | .cmpLte d r => nibbles 3 14 r d
  | .cmpLt d r => nibbles 3 15 r d
  | .xf dst src =>
    BitVec.ofNat 16 (0x4000 + 0x2000 * src.indirect.toNat + 0x0800 * encodeMode src.mode +
      0x0400 * dst.indirect.toNat + 0x0100 * encodeMode dst.mode + 0x10 * src.reg.val + dst.reg.val)
  | .bnz c off => BitVec.ofNat 16 (0x8000 + 0x100 * c.val + off.toNat)
  | .subw d i size => nibbles 9 (size % 8) i d
  | .subws d i size => nibbles 9 (8 + size % 8) i d
  | .srr r n => BitVec.ofNat 16 (0xA000 + 0x100 * r.val + n.toNat)
  | .srw r n => BitVec.ofNat 16 (0xB000 + 0x100 * r.val + n.toNat)
  | .si d n => BitVec.ofNat 16 (0xC000 + 0x10 * n.toNat + d.val)
  | .sel c n z => nibbles 13 c n z
  | .swap a b => nibbles 14 0 b a
  | .mmul a b => nibbles 14 1 b a
  | .mdiv a b => nibbles 14 2 b a
  | .mmod a b => nibbles 14 3 b a
  | .ldreg a b => nibbles 14 4 b a
  | .streg a b => nibbles 14 5 b a
  | .ldoff a imm => nibbles 14 6 imm.toNat a
  | .loop a b => nibbles 14 7 b.toNat a
  | .jz a imm => nibbles 14 8 imm.toNat a
  | .jzr a b => nibbles 14 9 b a
  | .jnz a imm => nibbles 14 10 imm.toNat a
  | .jnzr a b => nibbles 14 11 b a
  | .jgz a imm => nibbles 14 12 imm.toNat a
  | .jgzr a b => nibbles 14 13 b a
  | .jlz a imm => nibbles 14 14 imm.toNat a
  | .jlzr a b => nibbles 14 15 b a
  | .long l ext => BitVec.ofNat 16 (0xF000 + 0x100 * l.toNat + ext.toNat)

end Sys2Proof
end

