-- ==== Sys2Proof/Machine/State.lean ====
section
/-!
DEFINITION. The state of the machine as plain data: everything 10_state.md gives it, the configuration it was built with, and
the model's own two fields (the draw counter and the record of device accesses).
-/

namespace Sys2Proof.Machine

/-- One access the core made to a device region (20_memory.md rules R69, R73). -/
inductive DeviceAccess where
  /-- A load or fetch of `size` bytes at `addr`. -/
  | read (addr size : Nat)
  /-- A store of the value `value`, `size` bytes, at `addr`. -/
  | write (addr size value : Nat)
deriving DecidableEq, Repr

/-- The architectural state of a machine with `W`-bit words. -/
structure Arch (W : Nat) where
  /-- The general registers R0 to R15 (R20); `x[0]` is the program counter (R23). -/
  x : Vector (BitVec W) 16
  /-- SR 2, Exception Handling Routine: bit 0 Exceptions Enabled, the rest the handler address (R34). -/
  sr2 : BitVec W
  /-- SR 4, Instructions Retired (R36). -/
  sr4 : BitVec W
  /-- SR 5, Cycles Elapsed (R37). -/
  sr5 : BitVec W
  /-- SR 8, Exception Continuation (R40). -/
  sr8 : BitVec W
  /-- SR 9, Exception Cause (R41). -/
  sr9 : BitVec W
  /-- The halted state, which a write of 1 to SR 3 enters (R35, R48 (a)). -/
  halted : Bool
  /-- The region addresses of the devices asking for an interrupt; only the platform writes it (R48 (b)). -/
  pending : List (BitVec W)
  /-- The debug output stream, the oldest byte first (R42, R49). -/
  debugOut : List Byte
  /-- Memory: the bytes of the platform's image and those written since, addresses strictly rising (R60,
  70_reset_and_hazards.md R342). -/
  mem : List Host.Cell
  /-- The model's own field: the accesses made to device regions, the oldest first (log entry 7). -/
  bus : List DeviceAccess
  /-- The model's own field: how many free values have been used (log entry 5). -/
  draws : Nat
deriving DecidableEq, Repr

/-- The machine: its configuration (00_scope.md rule R7, which no step changes) and its architectural state. -/
structure State where
  cfg : Config
  arch : Arch cfg.wordBits
deriving DecidableEq, Repr

/-- W, the word size in bits of this machine. -/
abbrev State.W (s : State) : Nat := s.cfg.wordBits

/-- The model's faults: the `ModelFault`s of 60_exceptions.md rule R309, each a situation the spec gives no architectural
meaning, and the final state of a halted core. Every one is safe: the model stops where hardware may go on. -/
inductive Fault where
  /-- The fetch, when `x[0]` is odd (R28). Safe. -/
  | misalignedFetch
  /-- A data access whose address is no multiple of WB (R67). Safe. -/
  | misalignedAccess
  /-- An access that touches a byte of kind "nothing" (R61). Safe. -/
  | unmappedAccess
  /-- SRR or SRW of a system register with no meaning for that direction (R45). Safe. -/
  | undefinedSRAccess
  /-- SRW to SR 3 with any of bits W-1..1 set (R35). Safe. -/
  | reservedSRBits
  /-- LDREG or STREG with an index of 16 or more (R275, R276). Safe. -/
  | registerIndexOutOfRange
  /-- A Divide by Zero or Illegal instruction while SR 2 bit 0 is 0 (R308). Safe. -/
  | exceptionWhileDisabled
  /-- The step of a halted core, which takes no step (R330). Safe. -/
  | halted
deriving DecidableEq, Repr

/-- The model's refusals. -/
inductive Refusal where
  /-- Raised by no meaning: an instruction whose arm of exec has none yet. Safe: the model stops. -/
  | notModelled (mnemonic : String)
deriving DecidableEq, Repr

/-- The synchronous exceptions of the SR 9 table (R41, R301 to R303). -/
inductive Exc where
  | divideByZero
  | illegalInstruction
  | supervisorRequest
deriving DecidableEq, Repr

/-- How an instruction's pseudocode can end without completing: an exception is raised, or the model stops. -/
inductive Abort where
  | raise (e : Exc)
  | modelFault (f : Fault)
deriving DecidableEq, Repr

/-- An instruction in execution: the state its pseudocode has reached and the two flags of 10_state.md rule R27 that exist
only inside a step. -/
structure Run (W : Nat) where
  arch : Arch W
  pcWritten : Bool
  sr4Written : Bool
deriving DecidableEq, Repr

/-- The outcome of an instruction or a step. -/
abbrev Result := Host.Outcome State Fault Refusal

/-- The architectural state after reset of a machine with `W`-bit words, the given RESET_PC and the given memory (10_state.md
rule R50; the registers R50 leaves unspecified are 0, log entry 2). -/
def Arch.reset (W resetPc : Nat) (image : List Host.Cell) : Arch W where
  x := (Vector.replicate 16 0#W).set 0 (BitVec.ofNat W resetPc)
  sr2 := 0#W
  sr4 := 0#W
  sr5 := 0#W
  sr8 := 0#W
  sr9 := 0#W
  halted := false
  pending := []
  debugOut := []
  mem := image
  bus := []
  draws := 0

/-- The state after reset of a machine of any configuration, with the memory contents the platform supplies
(70_reset_and_hazards.md rule R342). Reset does not clear or change memory: a machine in state `s` resets to
`State.resetOf s.cfg s.arch.mem`. -/
def State.resetOf (c : Config) (image : List Host.Cell) : State :=
  { cfg := c, arch := Arch.reset c.wordBits c.resetPc image }

/-- The machine right after reset, in the reference configuration (00_scope.md rule R8) and with no image (log entry 4). -/
def State.reset : State := State.resetOf Config.reference []

end Sys2Proof.Machine
end

