-- ==== Sys2Proof/Machine/Ops.lean ====
section
/-!
DEFINITION. The named operations over registers and memory, the fetch, taking an exception, and what surrounds an
instruction's pseudocode in the step of 10_state.md rule R27.
-/

namespace Sys2Proof.Machine

/-! ### Registers -/

/-- `x[r]` (00_scope.md rule R12). -/
def Arch.reg {W : Nat} (m : Arch W) (r : Reg) : BitVec W := m.x[r.val]

/-- The state with `x[r]` holding `v`. -/
def Arch.setReg {W : Nat} (m : Arch W) (r : Reg) (v : BitVec W) : Arch W := { m with x := m.x.set r.val v }

/-- Bit 0 of SR 2, Exceptions Enabled (10_state.md rule R34). -/
def Arch.exceptionsEnabled {W : Nat} (m : Arch W) : Bool := m.sr2.getLsbD 0

/-- An instruction about to run its pseudocode. -/
def Run.start {W : Nat} (m : Arch W) : Run W := { arch := m, pcWritten := false, sr4Written := false }

/-- `x[r]` as the pseudocode sees it now. -/
def Run.reg {W : Nat} (k : Run W) (r : Reg) : BitVec W := k.arch.reg r

/-- `x[r] <- v`; a write of `x[0]` is a control transfer (10_state.md rule R26). -/
def Run.setReg {W : Nat} (k : Run W) (r : Reg) (v : BitVec W) : Run W :=
  { k with arch := k.arch.setReg r v, pcWritten := k.pcWritten || r = 0 }

/-- `sr[4] <- v` (10_state.md rule R36). -/
def Run.setRetired {W : Nat} (k : Run W) (v : BitVec W) : Run W :=
  { k with arch := { k.arch with sr4 := v }, sr4Written := true }

/-! ### Memory -/

/-- One byte of memory. One that neither the image nor a write covers holds an arbitrary value, the same at every read
(70_reset_and_hazards.md rule R342, log entry 3). -/
def Memory.read : List Host.Cell → Nat → Byte
  | [], a => Config.unwrittenByte a
  | (k, b) :: rest, a => if k = a then b else Memory.read rest a

/-- Memory with one byte written: the address is listed from then on, in its place. -/
def Memory.write : List Host.Cell → Nat → Byte → List Host.Cell
  | [], a, v => [(a, v)]
  | (k, b) :: rest, a, v =>
    if a < k then (a, v) :: (k, b) :: rest
    else if a = k then (a, v) :: rest
    else (k, b) :: Memory.write rest a v

/-- Memory with the bytes `vs` written at the addresses `as`, in order. -/
def Memory.writeAll : List Host.Cell → List Nat → List Byte → List Host.Cell
  | m, a :: as, v :: vs => Memory.writeAll (Memory.write m a v) as vs
  | m, _, _ => m

/-- The canonical form: addresses strictly rising. What an unlisted address reads as has no known value, so that no entry
can be told equal to it (log entry 3). -/
abbrev Memory.wf (m : List Host.Cell) : Prop := m.Pairwise fun c c' => c.1 < c'.1

/-- The byte addresses of an `n`-byte access at `a`, modulo `2^W` (20_memory.md rules R64, R70). -/
def accessAddrs (W a n : Nat) : List Nat := (List.range n).map fun i => (a + i) % 2 ^ W

/-- The state with the bytes `bs` in memory from `base` on, modulo `2^W`: how the platform places an image, a program of any
length (70_reset_and_hazards.md rule R342, log entry 4). -/
def State.withBytes (s : State) (base : Nat) (bs : List Byte) : State :=
  { cfg := s.cfg
    arch := { s.arch with mem := Memory.writeAll s.arch.mem (accessAddrs s.W base bs.length) bs } }

/-- The kind of a byte address: that of the first region holding it, plain memory when none does (20_memory.md rule
R61). -/
def kindAt (c : Config) (a : Nat) : RegionKind :=
  match c.regions.find? (fun r => r.base ≤ a && a < r.base + r.size) with
  | some r => r.kind
  | none => .plain

/-- The kind of an access: "nothing" when it touches a byte of that kind (20_memory.md rule R61); otherwise a device access
when it touches a device byte (log entry 8), otherwise plain. -/
def accessKind (c : Config) (as : List Nat) : RegionKind :=
  if as.any (fun a => kindAt c a = .nothing) then .nothing
  else if as.any (fun a => kindAt c a = .device) then .device
  else .plain

/-- `MemRead(a, n)` (20_memory.md rule R64): alignment first, then mapping. A device read is the device's affair: a free
value, the access recorded (rule R69, log entry 7). -/
def memRead {W : Nat} (c : Config) (n : Nat) (misaligned : Fault) (a : BitVec W) (m : Arch W) :
    Except Fault (Nat × Arch W) :=
  if a.toNat % n ≠ 0 then .error misaligned
  else
    match accessKind c (accessAddrs W a.toNat n) with
    | .nothing => .error .unmappedAccess
    | .device =>
      .ok (Config.deviceValue m.draws % 2 ^ (8 * n),
        { m with bus := m.bus ++ [.read a.toNat n], draws := m.draws + 1 })
    | .plain =>
      .ok (natOfBytes (c.byteOrder.arrange ((accessAddrs W a.toNat n).map (Memory.read m.mem))), m)

/-- A data read of one word (20_memory.md rules R67, R68). -/
def loadWord {W : Nat} (c : Config) (a : BitVec W) (m : Arch W) : Except Fault (BitVec W × Arch W) :=
  match memRead c c.wordBytes .misalignedAccess a m with
  | .error f => .error f
  | .ok (v, m') => .ok (BitVec.ofNat W v, m')

/-- `MemWrite(a, WB, v)` (20_memory.md rule R65): alignment first, then mapping, and no byte is written when either
fails. -/
def storeWord {W : Nat} (c : Config) (a v : BitVec W) (m : Arch W) : Except Fault (Arch W) :=
  if a.toNat % c.wordBytes ≠ 0 then .error .misalignedAccess
  else
    match accessKind c (accessAddrs W a.toNat c.wordBytes) with
    | .nothing => .error .unmappedAccess
    | .device => .ok { m with bus := m.bus ++ [.write a.toNat c.wordBytes v.toNat] }
    | .plain =>
      .ok { m with
        mem := Memory.writeAll m.mem (accessAddrs W a.toNat c.wordBytes)
          (c.byteOrder.arrange (bytesOfNat c.wordBytes v.toNat)) }

/-- Instruction fetch, `MemRead(x[0], 2)` (20_memory.md rule R66). -/
def fetch {W : Nat} (c : Config) (m : Arch W) : Except Fault (IWord × Arch W) :=
  match memRead c 2 .misalignedFetch (m.reg 0) m with
  | .error f => .error f
  | .ok (v, m') => .ok (BitVec.ofNat 16 v, m')

/-! ### Exceptions -/

/-- The code of a cause in the SR 9 table (10_state.md rule R41). -/
def Exc.code : Exc → Nat
  | .divideByZero => 0
  | .illegalInstruction => 1
  | .supervisorRequest => 2

/-- The word SR 9 receives: the code above bit 0, which is 1 (10_state.md rule R41). -/
def Exc.causeWord (W : Nat) (e : Exc) : BitVec W := BitVec.ofNat W (2 * e.code + 1)

/-- `TrapEntry(cause, cont)`, the one way into the handler (60_exceptions.md rule R304): SR 2 loses bit 0, SR 8 receives the
continuation, the program counter the new SR 2, SR 9 the cause. -/
def trapEntry {W : Nat} (cause cont : BitVec W) (m : Arch W) : Arch W :=
  let handler := m.sr2 &&& ~~~BitVec.ofNat W 1
  { m.setReg 0 handler with sr2 := handler, sr8 := cont, sr9 := cause }

/-- The continuation of a synchronous exception other than DEG, of an instruction `len` bytes long (60_exceptions.md rule
R307). -/
def faultContinuation {W : Nat} (c : Config) (len : Nat) (cur : BitVec W) : BitVec W :=
  match c.faultContinuation with
  | .current => cur
  | .next => cur + BitVec.ofNat W len

/-- An instruction of `len` bytes raises `e`: step 6 of 10_state.md rule R27. With exceptions disabled it is a model fault
(60_exceptions.md rule R308); none of the instruction's writes has happened (rule R306) and SR 4 is not counted. There is no
return instruction (rule R315): a handler returns by writing R0. -/
def takeException (s : State) (len : Nat) (e : Exc) : Result :=
  if s.arch.exceptionsEnabled then
    .next { cfg := s.cfg, arch := trapEntry (e.causeWord s.W) (faultContinuation s.cfg len (s.arch.reg 0)) s.arch }
  else .fault .exceptionWhileDisabled

/-- The region address of the device served: the only one requesting, or any one of several (60_exceptions.md rule R312
(c), log entry 10). -/
def servedDevice {W : Nat} (m : Arch W) : BitVec W :=
  match m.pending with
  | [d] => d
  | ds => ds.getD (Config.deviceChoice m.draws % ds.length) 0

/-- Step 1 of 10_state.md rule R27 (60_exceptions.md rule R311): entry at an instruction boundary, the cause the region
address of a requesting device, the continuation `x[0]`. The request itself stays as it is. -/
def takeInterrupt {W : Nat} (m : Arch W) : Arch W :=
  trapEntry (servedDevice m) (m.reg 0) { m with draws := m.draws + 1 }

/-! ### Around an instruction -/

/-- Steps 7 to 9 of 10_state.md rule R27, after pseudocode that completed: the advance of `x[0]` unless it was written (rule
R25), the count of SR 4 unless it was written (rule R36), and the cycles of SR 5 (rule R37). -/
def retire {W : Nat} (k : Run W) : Arch W :=
  let m := if k.pcWritten then k.arch else k.arch.setReg 0 (k.arch.reg 0 + BitVec.ofNat W 2)
  { m with
    sr4 := if k.sr4Written then m.sr4 else m.sr4 + BitVec.ofNat W 1
    sr5 := m.sr5 + BitVec.ofNat W (Config.cycles m.draws)
    draws := m.draws + 1 }

/-- Steps 5 to 9 of 10_state.md rule R27 for an instruction of one word whose pseudocode is `p`. -/
def execute (s : State) (p : Run s.W → Except Abort (Run s.W)) : Result :=
  match p (Run.start s.arch) with
  | .ok k => .next { cfg := s.cfg, arch := retire k }
  | .error (.raise e) => takeException s 2 e
  | .error (.modelFault f) => .fault f

/-- A pseudocode that neither raises an exception nor stops the model. -/
def executeOk (s : State) (p : Run s.W → Run s.W) : Result := execute s fun k => .ok (p k)

/-- Illegal instruction at decode when the machine lacks what the instruction needs (42_arithmetic.md rule R152). -/
def requireAvailable {W : Nat} (available : Bool) (p : Run W → Except Abort (Run W)) (k : Run W) :
    Except Abort (Run W) :=
  if available then p k else .error (.raise .illegalInstruction)

end Sys2Proof.Machine
end

