-- ==== Sys2Proof/Machine/Bitwise.lean ====
section
/-!
DEFINITION. The bitwise instructions (41_bitwise.md). Each is its own rule's pseudocode; that each is the truth table of its
number M (rule R130) is stated as an obligation.
-/

namespace Sys2Proof.Machine

/-- `x[D] <- f(x[D], x[S])`, both read before the write (rule R130). -/
def registerOp {W : Nat} (f : BitVec W → BitVec W → BitVec W) (d r : Reg) (k : Run W) : Run W :=
  k.setReg d (f (k.reg d) (k.reg r))

/-- `BIT.F` (rule R131). -/
def execBitF (d r : Reg) (s : State) : Result := executeOk s (registerOp (fun _ _ => BitVec.ofNat _ 0) d r)

/-- `BIT.NOR` (rule R132). -/
def execBitNor (d r : Reg) (s : State) : Result := executeOk s (registerOp (fun a b => ~~~(a ||| b)) d r)

/-- `BIT.NCI` (rule R133). -/
def execBitNci (d r : Reg) (s : State) : Result := executeOk s (registerOp (fun a b => ~~~a &&& b) d r)

/-- `BIT.ND` (rule R134). -/
def execBitNd (d r : Reg) (s : State) : Result := executeOk s (registerOp (fun a _ => ~~~a) d r)

/-- `BIT.NMI` (rule R135). -/
def execBitNmi (d r : Reg) (s : State) : Result := executeOk s (registerOp (fun a b => a &&& ~~~b) d r)

/-- `BIT.NS` (rule R136). -/
def execBitNs (d r : Reg) (s : State) : Result := executeOk s (registerOp (fun _ b => ~~~b) d r)

/-- `BIT.XOR` (rule R137). -/
def execBitXor (d r : Reg) (s : State) : Result := executeOk s (registerOp (fun a b => a ^^^ b) d r)

/-- `BIT.NAND` (rule R138). -/
def execBitNand (d r : Reg) (s : State) : Result := executeOk s (registerOp (fun a b => ~~~(a &&& b)) d r)

/-- `BIT.AND` (rule R139). -/
def execBitAnd (d r : Reg) (s : State) : Result := executeOk s (registerOp (fun a b => a &&& b) d r)

/-- `BIT.XNOR` (rule R140). -/
def execBitXnor (d r : Reg) (s : State) : Result := executeOk s (registerOp (fun a b => ~~~(a ^^^ b)) d r)

/-- `BIT.S` (rule R141). -/
def execBitS (d r : Reg) (s : State) : Result := executeOk s (registerOp (fun _ b => b) d r)

/-- `BIT.MI` (rule R142). -/
def execBitMi (d r : Reg) (s : State) : Result := executeOk s (registerOp (fun a b => ~~~a ||| b) d r)

/-- `BIT.D` (rule R143). -/
def execBitD (d r : Reg) (s : State) : Result := executeOk s (registerOp (fun a _ => a) d r)

/-- `BIT.CI` (rule R144). -/
def execBitCi (d r : Reg) (s : State) : Result := executeOk s (registerOp (fun a b => a ||| ~~~b) d r)

/-- `BIT.OR` (rule R145). -/
def execBitOr (d r : Reg) (s : State) : Result := executeOk s (registerOp (fun a b => a ||| b) d r)

/-- `BIT.T` (rule R146). -/
def execBitT (d r : Reg) (s : State) : Result := executeOk s (registerOp (fun _ _ => BitVec.allOnes _) d r)

end Sys2Proof.Machine
end

