-- ==== Sys2Proof/Machine/Operands.lean ====
section
/-!
DEFINITION. The operand forms: immediates (30_encoding.md rules R94 to R101), the eight forms of a data-transfer operand
(44_data_transfer.md rule R200), the system registers by number (10_state.md rule R31).
-/

namespace Sys2Proof.Machine

/-- An unsigned immediate field as a word (30_encoding.md rules R94, R97). -/
def zext {n : Nat} (W : Nat) (v : BitVec n) : BitVec W := BitVec.ofNat W v.toNat

/-- A two's-complement immediate field as a word (30_encoding.md rules R96, R101). -/
def sext {n : Nat} (W : Nat) (v : BitVec n) : BitVec W := BitVec.ofInt W v.toInt

/-- A jump offset in instructions, in bytes: times IWB = 2 (30_encoding.md rules R96, R101). -/
def jumpBytes {n : Nat} (W : Nat) (v : BitVec n) : BitVec W := sext W v * BitVec.ofNat W 2

/-- The step a data-transfer operand takes before it is used (44_data_transfer.md rule R194). -/
def stepBefore {W : Nat} (c : Config) (o : Operand) (k : Run W) : Run W :=
  match o.mode with
  | .autoDec => k.setReg o.reg (k.reg o.reg - BitVec.ofNat W c.wordBytes)
  | _ => k

/-- The step a data-transfer operand takes after it is used (44_data_transfer.md rules R193, R195). -/
def stepAfter {W : Nat} (c : Config) (o : Operand) (k : Run W) : Run W :=
  match o.mode with
  | .autoInc => k.setReg o.reg (k.reg o.reg + BitVec.ofNat W c.wordBytes)
  | .autoPostDec => k.setReg o.reg (k.reg o.reg - BitVec.ofNat W c.wordBytes)
  | _ => k

/-- The word a source operand gives, and the run after its pre-step, its read and its post-step (44_data_transfer.md rule
R190, the first four statements). -/
def readOperand {W : Nat} (c : Config) (o : Operand) (k : Run W) : Except Abort (BitVec W × Run W) :=
  let k1 := stepBefore c o k
  if o.indirect then
    match loadWord c (k1.reg o.reg) k1.arch with
    | .error f => .error (.modelFault f)
    | .ok (v, m) => .ok (v, stepAfter c o { k1 with arch := m })
  else .ok (k1.reg o.reg, stepAfter c o k1)

/-- The address a destination operand stores to, in the run after the source operand: the register after its pre-step. -/
def destAddr {W : Nat} (c : Config) (o : Operand) (k : Run W) : BitVec W := (stepBefore c o k).reg o.reg

/-- The word `v` into a destination operand: its pre-step, its write and its post-step (44_data_transfer.md rule R190, the
last four statements). -/
def writeOperand {W : Nat} (c : Config) (o : Operand) (v : BitVec W) (k : Run W) : Except Abort (Run W) :=
  let k1 := stepBefore c o k
  if o.indirect then
    match storeWord c (destAddr c o k) v k1.arch with
    | .error f => .error (.modelFault f)
    | .ok m => .ok (stepAfter c o { k1 with arch := m })
  else .ok (stepAfter c o (k1.setReg o.reg v))

/-- The system registers an instruction can name (10_state.md rule R31). -/
inductive SysReg where
  | modelStepping
  | wordSize
  | handlingRoutine
  | powerState
  | retired
  | cycles
  | frequency
  | extensions
  | continuation
  | cause
  | debugOutput
  | undefined
deriving DecidableEq, Repr

/-- The system register of a number 0 to 255; 11 to 255 do not exist (10_state.md rules R43, R44). -/
def sysReg (n : BitVec 8) : SysReg :=
  match n.toNat with
  | 0 => .modelStepping
  | 1 => .wordSize
  | 2 => .handlingRoutine
  | 3 => .powerState
  | 4 => .retired
  | 5 => .cycles
  | 6 => .frequency
  | 7 => .extensions
  | 8 => .continuation
  | 9 => .cause
  | 10 => .debugOutput
  | _ => .undefined

/-- The word a system register reads as (47_system_registers.md rule R225). -/
def readSysReg {W : Nat} (c : Config) (r : SysReg) (m : Arch W) : Except Abort (BitVec W) :=
  match r with
  | .modelStepping => .ok (BitVec.ofNat W Config.modelId)
  | .wordSize => .ok (BitVec.ofNat W W)
  | .handlingRoutine => .ok m.sr2
  | .retired => .ok m.sr4
  | .cycles => .ok m.sr5
  | .frequency => .ok (BitVec.ofNat W Config.coreKhz)
  | .extensions => .ok (BitVec.ofNat W c.hasMul.toNat)
  | .continuation => .ok m.sr8
  | .cause => .ok m.sr9
  | .powerState => .error (.modelFault .undefinedSRAccess)
  | .debugOutput => .error (.modelFault .undefinedSRAccess)
  | .undefined => .error (.modelFault .undefinedSRAccess)

/-- A write of SR 3 (10_state.md rule R35): the word 1 halts, the word 0 does nothing, any other word is a model fault. -/
def writePowerState {W : Nat} (v : BitVec W) (k : Run W) : Except Abort (Run W) :=
  if v.toNat / 2 ≠ 0 then .error (.modelFault .reservedSRBits)
  else if v.toNat % 2 = 1 then .ok { k with arch := { k.arch with halted := true } }
  else .ok k

/-- The run after `v` is written to a system register (47_system_registers.md rule R226). -/
def writeSysReg {W : Nat} (r : SysReg) (v : BitVec W) (k : Run W) : Except Abort (Run W) :=
  match r with
  | .handlingRoutine => .ok { k with arch := { k.arch with sr2 := v } }
  | .powerState => writePowerState v k
  | .retired => .ok (k.setRetired v)
  | .cycles => .ok { k with arch := { k.arch with sr5 := v } }
  | .continuation => .ok { k with arch := { k.arch with sr8 := v } }
  | .cause => .ok { k with arch := { k.arch with sr9 := v } }
  | .debugOutput => .ok { k with arch := { k.arch with debugOut := k.arch.debugOut ++ [BitVec.ofNat 8 v.toNat] } }
  | .modelStepping => .error (.modelFault .undefinedSRAccess)
  | .wordSize => .error (.modelFault .undefinedSRAccess)
  | .frequency => .error (.modelFault .undefinedSRAccess)
  | .extensions => .error (.modelFault .undefinedSRAccess)
  | .undefined => .error (.modelFault .undefinedSRAccess)

end Sys2Proof.Machine
end

