-- ==== Sys2Proof/Machine/Arithmetic.lean ====
section
/-!
DEFINITION. The arithmetic instructions (42_arithmetic.md), register and immediate forms.
-/

namespace Sys2Proof.Machine

/-- `x[D] <- f(x[D], n)` with the immediate field zero-extended (rule R150). -/
def immediateOp {W : Nat} (f : BitVec W → BitVec W → BitVec W) (d : Reg) (n : BitVec 4) (k : Run W) : Run W :=
  k.setReg d (f (k.reg d) (zext W n))

/-- Shl: `a * 2^b mod 2^W`, which is 0 when `b >= W`; the amount is the whole unsigned operand (rules R151, R155). -/
def shiftLeft {W : Nat} (a b : BitVec W) : BitVec W :=
  if W ≤ b.toNat then BitVec.ofNat W 0 else BitVec.ofNat W (a.toNat * 2 ^ b.toNat)

/-- Shr: `floor(unsigned(a) / 2^b)`, which is 0 when `b >= W` (rules R151, R156). -/
def shiftRight {W : Nat} (a b : BitVec W) : BitVec W :=
  if W ≤ b.toNat then BitVec.ofNat W 0 else BitVec.ofNat W (a.toNat / 2 ^ b.toNat)

/-- Asr: `floor(signed(a) / 2^b)`, which is 0 or all ones when `b >= W` (rules R151, R157). -/
def shiftArith {W : Nat} (a b : BitVec W) : BitVec W :=
  if W ≤ b.toNat then (if a.toInt < 0 then BitVec.allOnes W else BitVec.ofNat W 0)
  else BitVec.ofInt W (a.toInt / 2 ^ b.toNat)

/-- Mul: the low `W` bits of the product (rule R158). -/
def product {W : Nat} (a b : BitVec W) : BitVec W := BitVec.ofNat W (a.toNat * b.toNat)

/-- Div: the unsigned quotient by a non-zero divisor (rule R159). -/
def quotient {W : Nat} (a b : BitVec W) : BitVec W := BitVec.ofNat W (a.toNat / b.toNat)

/-- Mod: the unsigned remainder by a non-zero divisor (rule R160). -/
def remainder {W : Nat} (a b : BitVec W) : BitVec W := BitVec.ofNat W (a.toNat % b.toNat)

/-- `x[D] <- f(x[D], rhs)`, raising Divide by Zero before any write when `rhs` is 0 (rules R159, R160, R301). -/
def divideOp {W : Nat} (f : BitVec W → BitVec W → BitVec W) (d : Reg) (rhs : BitVec W) (k : Run W) :
    Except Abort (Run W) :=
  if rhs = 0 then .error (.raise .divideByZero) else .ok (k.setReg d (f (k.reg d) rhs))

/-- `ADD Rd, Rs` (rule R153). -/
def execAdd (d r : Reg) (s : State) : Result := executeOk s (registerOp (fun a b => a + b) d r)

/-- `SUB Rd, Rs` (rule R154). -/
def execSub (d r : Reg) (s : State) : Result := executeOk s (registerOp (fun a b => a - b) d r)

/-- `SHL Rd, Rs` (rule R155). -/
def execShl (d r : Reg) (s : State) : Result := executeOk s (registerOp shiftLeft d r)

/-- `SHR Rd, Rs` (rule R156). -/
def execShr (d r : Reg) (s : State) : Result := executeOk s (registerOp shiftRight d r)

/-- `ASR Rd, Rs` (rule R157). -/
def execAsr (d r : Reg) (s : State) : Result := executeOk s (registerOp shiftArith d r)

/-- `MUL Rd, Rs` (rule R158); needs the multiplier (rule R152). -/
def execMul (d r : Reg) (s : State) : Result :=
  execute s (requireAvailable s.cfg.hasMul fun k => .ok (registerOp product d r k))

/-- `DIV Rd, Rs` (rule R159); needs the multiplier (rule R152). -/
def execDiv (d r : Reg) (s : State) : Result :=
  execute s (requireAvailable s.cfg.hasMul fun k => divideOp quotient d (k.reg r) k)

/-- `MOD Rd, Rs` (rule R160); needs the multiplier (rule R152). -/
def execMod (d r : Reg) (s : State) : Result :=
  execute s (requireAvailable s.cfg.hasMul fun k => divideOp remainder d (k.reg r) k)

/-- `ADDI Rd, n` (rule R153). -/
def execAddi (d : Reg) (n : BitVec 4) (s : State) : Result := executeOk s (immediateOp (fun a b => a + b) d n)

/-- `SUBI Rd, n` (rule R154). -/
def execSubi (d : Reg) (n : BitVec 4) (s : State) : Result := executeOk s (immediateOp (fun a b => a - b) d n)

/-- `SHLI Rd, n` (rule R155). -/
def execShli (d : Reg) (n : BitVec 4) (s : State) : Result := executeOk s (immediateOp shiftLeft d n)

/-- `SHRI Rd, n` (rule R156). -/
def execShri (d : Reg) (n : BitVec 4) (s : State) : Result := executeOk s (immediateOp shiftRight d n)

/-- `ASRI Rd, n` (rule R157). -/
def execAsri (d : Reg) (n : BitVec 4) (s : State) : Result := executeOk s (immediateOp shiftArith d n)

/-- `MULI Rd, n` (rule R158); needs the multiplier (rule R152). -/
def execMuli (d : Reg) (n : BitVec 4) (s : State) : Result :=
  execute s (requireAvailable s.cfg.hasMul fun k => .ok (immediateOp product d n k))

/-- `DIVI Rd, n` (rule R159); needs the multiplier (rule R152). -/
def execDivi (d : Reg) (n : BitVec 4) (s : State) : Result :=
  execute s (requireAvailable s.cfg.hasMul fun k => divideOp quotient d (zext s.W n) k)

/-- `MODI Rd, n` (rule R160); needs the multiplier (rule R152). -/
def execModi (d : Reg) (n : BitVec 4) (s : State) : Result :=
  execute s (requireAvailable s.cfg.hasMul fun k => divideOp remainder d (zext s.W n) k)

end Sys2Proof.Machine
end

