-- ==== Sys2Proof/Machine/Flags.lean ====
section
/-!
DEFINITION. Truth values. The machine has no flags (10_state.md rule R30): a comparison writes its truth value to a register
(43_comparison.md rules R170, R171) and a conditional instruction tests a register.
-/

namespace Sys2Proof.Machine

/-- A truth value as a word: 1 or 0 (43_comparison.md rule R171). -/
def truthWord (W : Nat) (t : Bool) : BitVec W := if t then BitVec.ofNat W 1 else BitVec.ofNat W 0

/-- The greater-than test, signed when SN is set (43_comparison.md rule R170). -/
def greater {W : Nat} (sn : Bool) (a b : BitVec W) : Bool :=
  if sn then b.toInt < a.toInt else b.toNat < a.toNat

/-- The finished test of a comparison with the four condition bits (43_comparison.md rule R170). -/
def comparison {W : Nat} (iv sn gt eq : Bool) (a b : BitVec W) : Bool :=
  let t := (eq && a = b) || (gt && greater sn a b)
  if iv then !t else t

/-- The register is zero (JZ; 49_misc_and_long.md rule R281). -/
def isZero {W : Nat} (a : BitVec W) : Bool := a = 0

/-- The register is non-zero (BNZ, JNZ, LOOP, SEL). -/
def isNonzero {W : Nat} (a : BitVec W) : Bool := a ≠ 0

/-- The register, read as signed, is greater than 0 (JGZ; rule R285). -/
def isPositive {W : Nat} (a : BitVec W) : Bool := 0 < a.toInt

/-- The register, read as signed, is less than 0 (JLZ; rule R287). -/
def isNegative {W : Nat} (a : BitVec W) : Bool := a.toInt < 0

end Sys2Proof.Machine
end

