-- ==== Sys2Proof/Machine/Comparison.lean ====
section
/-!
DEFINITION. The comparison instructions (43_comparison.md): the four condition bits IV, SN, GT, EQ of each code, and the one
test of rule R170. Codes 14 and 15 follow the bit definitions (rule R188, 90_conflicts.md C5).
-/

namespace Sys2Proof.Machine

/-- `x[D] <- t ? 1 : 0` with the condition bits IV, SN, GT, EQ (rules R170, R171). -/
def compareOp {W : Nat} (iv sn gt eq : Bool) (d r : Reg) (k : Run W) : Run W :=
  registerOp (fun a b => truthWord W (comparison iv sn gt eq a b)) d r k

/-- `CMP.F`, code 0 (rule R172). -/
def execCmpF (d r : Reg) (s : State) : Result := executeOk s (compareOp false false false false d r)

/-- `CMP.EQ`, code 1 (rule R173). -/
def execCmpEq (d r : Reg) (s : State) : Result := executeOk s (compareOp false false false true d r)

/-- `CMP.AB`, code 2 (rule R174). -/
def execCmpAb (d r : Reg) (s : State) : Result := executeOk s (compareOp false false true false d r)

/-- `CMP.ABE`, code 3 (rule R175). -/
def execCmpAbe (d r : Reg) (s : State) : Result := executeOk s (compareOp false false true true d r)

/-- `CMP.SF`, code 4 (rule R176). -/
def execCmpSf (d r : Reg) (s : State) : Result := executeOk s (compareOp false true false false d r)

/-- `CMP.SEQ`, code 5 (rule R177). -/
def execCmpSeq (d r : Reg) (s : State) : Result := executeOk s (compareOp false true false true d r)

/-- `CMP.GT`, code 6 (rule R178). -/
def execCmpGt (d r : Reg) (s : State) : Result := executeOk s (compareOp false true true false d r)

/-- `CMP.GTE`, code 7 (rule R179). -/
def execCmpGte (d r : Reg) (s : State) : Result := executeOk s (compareOp false true true true d r)

/-- `CMP.T`, code 8 (rule R180). -/
def execCmpT (d r : Reg) (s : State) : Result := executeOk s (compareOp true false false false d r)

/-- `CMP.NEQ`, code 9 (rule R181). -/
def execCmpNeq (d r : Reg) (s : State) : Result := executeOk s (compareOp true false false true d r)

/-- `CMP.BLE`, code 10 (rule R182). -/
def execCmpBle (d r : Reg) (s : State) : Result := executeOk s (compareOp true false true false d r)

/-- `CMP.BL`, code 11 (rule R183). -/
def execCmpBl (d r : Reg) (s : State) : Result := executeOk s (compareOp true false true true d r)

/-- `CMP.ST`, code 12 (rule R184). -/
def execCmpSt (d r : Reg) (s : State) : Result := executeOk s (compareOp true true false false d r)

/-- `CMP.SNEQ`, code 13 (rule R185). -/
def execCmpSneq (d r : Reg) (s : State) : Result := executeOk s (compareOp true true false true d r)

/-- `CMP.LTE`, code 14 (rule R186). -/
def execCmpLte (d r : Reg) (s : State) : Result := executeOk s (compareOp true true true false d r)

/-- `CMP.LT`, code 15 (rule R187). -/
def execCmpLt (d r : Reg) (s : State) : Result := executeOk s (compareOp true true true true d r)

end Sys2Proof.Machine
end

