-- ==== Sys2Proof/Machine/Generator.lean ====
section
/-!
DEFINITION. The distinguished exception generator (40_exception_generator.md) and the long instruction (49_misc_and_long.md
section 4): the two instructions whose own effect is to enter the handler.
-/

namespace Sys2Proof.Machine

/-- The pseudocode of `DEG`: the trap entry with cause word 1 and continuation `cur + 2`, whatever bit 0 of SR 2 was; it
writes `x[0]` (rule R120, 90_conflicts.md C1). -/
def generateException {W : Nat} (k : Run W) : Run W :=
  { k with
    arch := trapEntry (BitVec.ofNat W 1) (k.reg 0 + BitVec.ofNat W 2) k.arch
    pcWritten := true }

/-- `DEG` (rule R120): a completed instruction, counted in SR 4. -/
def execDeg (s : State) : Result := executeOk s generateException

/-- `LONG L, ext8` (rule R290): Illegal instruction; the following words are not fetched and the low byte has no meaning. The
length `2 * (1 + L)` shows only in the continuation (60_exceptions.md rule R307). -/
def execLong (l : BitVec 4) (s : State) : Result := takeException s (2 * (1 + l.toNat)) .illegalInstruction

end Sys2Proof.Machine
end

