-- ==== Sys2Proof/Machine/ImmSelect.lean ====
section
/-!
DEFINITION. Small immediate and select register (48_small_immediate_select.md).
-/

namespace Sys2Proof.Machine

/-- `SI Rd, n`: the zero-extended immediate (rule R260). -/
def execSi (d : Reg) (n : BitVec 8) (s : State) : Result := executeOk s fun k => k.setReg d (zext s.W n)

/-- `SEL Rc, Rn, Rz`: all three read first (rule R262). -/
def execSel (c n z : Reg) (s : State) : Result :=
  executeOk s fun k => k.setReg c (if isNonzero (k.reg c) then k.reg n else k.reg z)

end Sys2Proof.Machine
end

