-- ==== Sys2Proof/Machine/Transfer.lean ====
section
/-!
DEFINITION. The data transfer (44_data_transfer.md) and the conditional instruction (45_conditional.md).
-/

namespace Sys2Proof.Machine

/-- The eight statements of rule R190: the source operand completely, then the destination operand (rule R198). -/
def transfer {W : Nat} (c : Config) (dst src : Operand) (k : Run W) : Except Abort (Run W) :=
  match readOperand c src k with
  | .error a => .error a
  | .ok (v, k1) => writeOperand c dst v k1

/-- `XF dst, src` in all 64 mode combinations (rule R190). -/
def execXf (dst src : Operand) (s : State) : Result := execute s (transfer s.cfg dst src)

/-- `x[0] <- x[0] + offset` when the condition holds; otherwise nothing (rule R210, 49_misc_and_long.md rule R278). -/
def jumpIf {W : Nat} (taken : Bool) (offset : BitVec W) (k : Run W) : Run W :=
  if taken then k.setReg 0 (k.reg 0 + offset) else k

/-- `BNZ Rc, off` (rule R210). -/
def execBnz (c : Reg) (off : BitVec 8) (s : State) : Result :=
  executeOk s fun k => jumpIf (isNonzero (k.reg c)) (jumpBytes s.W off) k

end Sys2Proof.Machine
end

