-- ==== Sys2Proof/Machine/Misc.lean ====
section
/-!
DEFINITION. The miscellaneous instructions (49_misc_and_long.md sections 2 and 3).
-/

namespace Sys2Proof.Machine

/-- Whether MULTIPLY, DIVIDE and MODULUS are available (rules R272 to R274, parameter MISC_MULDIV_NEEDS_MUL). -/
def miscMulDivAvailable (c : Config) : Bool := !c.miscMulDivNeedsMul || c.hasMul

/-- A simultaneous exchange (rule R271). -/
def exchange {W : Nat} (a b : Reg) (k : Run W) : Run W := (k.setReg a (k.reg b)).setReg b (k.reg a)

/-- `SWAP Ra, Rb` (rule R271). -/
def execSwap (a b : Reg) (s : State) : Result := executeOk s (exchange a b)

/-- `MMUL Ra, Rb` (rule R272). -/
def execMmul (a b : Reg) (s : State) : Result :=
  execute s (requireAvailable (miscMulDivAvailable s.cfg) fun k => .ok (registerOp product a b k))

/-- `MDIV Ra, Rb` (rule R273). -/
def execMdiv (a b : Reg) (s : State) : Result :=
  execute s (requireAvailable (miscMulDivAvailable s.cfg) fun k => divideOp quotient a (k.reg b) k)

/-- `MMOD Ra, Rb` (rule R274). -/
def execMmod (a b : Reg) (s : State) : Result :=
  execute s (requireAvailable (miscMulDivAvailable s.cfg) fun k => divideOp remainder a (k.reg b) k)

/-- The register whose number a register holds; 16 or more is a model fault (rules R275, R276). -/
def indexedReg {W : Nat} (v : BitVec W) : Except Abort Reg :=
  if v.toNat < 16 then .ok (Fin.ofNat 16 v.toNat) else .error (.modelFault .registerIndexOutOfRange)

/-- `x[A] <- x[x[B]]` (rule R275). -/
def loadRegister {W : Nat} (a b : Reg) (k : Run W) : Except Abort (Run W) :=
  match indexedReg (k.reg b) with
  | .error e => .error e
  | .ok i => .ok (k.setReg a (k.reg i))

/-- `LDREG Ra, Rb` (rule R275). -/
def execLdreg (a b : Reg) (s : State) : Result := execute s (loadRegister a b)

/-- `x[x[B]] <- x[A]` (rule R276). -/
def storeRegister {W : Nat} (a b : Reg) (k : Run W) : Except Abort (Run W) :=
  match indexedReg (k.reg b) with
  | .error e => .error e
  | .ok i => .ok (k.setReg i (k.reg a))

/-- `STREG Ra, Rb` (rule R276). -/
def execStreg (a b : Reg) (s : State) : Result := execute s (storeRegister a b)

/-- The address LDOFF loads from: `x[A] + imm(B) * WB` (rule R277). -/
def offsetAddr {W : Nat} (c : Config) (base : BitVec W) (imm : BitVec 4) : BitVec W :=
  base + sext W imm * BitVec.ofNat W c.wordBytes

/-- `x[A] <- MemRead(x[A] + imm(B) * WB, WB)` (rule R277). -/
def loadOffset {W : Nat} (c : Config) (a : Reg) (imm : BitVec 4) (k : Run W) : Except Abort (Run W) :=
  match loadWord c (offsetAddr c (k.reg a) imm) k.arch with
  | .error f => .error (.modelFault f)
  | .ok (v, m) => .ok ({ k with arch := m }.setReg a v)

/-- `LDOFF Ra, imm` (rule R277). -/
def execLdoff (a : Reg) (imm : BitVec 4) (s : State) : Result := execute s (loadOffset s.cfg a imm)

/-- The offset of the code 0b0111: `imm(B) * 2` for LOOP (rule R279), the register `x[B]` for LOOP INDIRECT (rule R280), as
the parameter MISC_0111 says; read after the decrement. -/
def loopOffset {W : Nat} (c : Config) (b : BitVec 4) (k : Run W) : BitVec W :=
  match c.misc0111 with
  | .loop => jumpBytes W b
  | .loopIndirect => k.reg (Fin.ofNat 16 b.toNat)

/-- `x[A] <- x[A] - 1`, then the jump when the decremented value is non-zero (rules R279, R280). -/
def decrementAndJump {W : Nat} (c : Config) (a : Reg) (b : BitVec 4) (k : Run W) : Run W :=
  let k1 := k.setReg a (k.reg a - BitVec.ofNat W 1)
  jumpIf (isNonzero (k1.reg a)) (loopOffset c b k1) k1

/-- `LOOP Ra, imm` (rule R279), or LOOP INDIRECT (rule R280) where MISC_0111 selects it. -/
def execLoop (a : Reg) (b : BitVec 4) (s : State) : Result := executeOk s (decrementAndJump s.cfg a b)

/-- `JZ Ra, imm` (rule R281). -/
def execJz (a : Reg) (imm : BitVec 4) (s : State) : Result :=
  executeOk s fun k => jumpIf (isZero (k.reg a)) (jumpBytes s.W imm) k

/-- `JZR Ra, Rb` (rule R282). -/
def execJzr (a b : Reg) (s : State) : Result := executeOk s fun k => jumpIf (isZero (k.reg a)) (k.reg b) k

/-- `JNZ Ra, imm` (rule R283). -/
def execJnz (a : Reg) (imm : BitVec 4) (s : State) : Result :=
  executeOk s fun k => jumpIf (isNonzero (k.reg a)) (jumpBytes s.W imm) k

/-- `JNZR Ra, Rb` (rule R284). -/
def execJnzr (a b : Reg) (s : State) : Result := executeOk s fun k => jumpIf (isNonzero (k.reg a)) (k.reg b) k

/-- `JGZ Ra, imm` (rule R285). -/
def execJgz (a : Reg) (imm : BitVec 4) (s : State) : Result :=
  executeOk s fun k => jumpIf (isPositive (k.reg a)) (jumpBytes s.W imm) k

/-- `JGZR Ra, Rb` (rule R286). -/
def execJgzr (a b : Reg) (s : State) : Result := executeOk s fun k => jumpIf (isPositive (k.reg a)) (k.reg b) k

/-- `JLZ Ra, imm` (rule R287). -/
def execJlz (a : Reg) (imm : BitVec 4) (s : State) : Result :=
  executeOk s fun k => jumpIf (isNegative (k.reg a)) (jumpBytes s.W imm) k

/-- `JLZR Ra, Rb` (rule R288). -/
def execJlzr (a b : Reg) (s : State) : Result := executeOk s fun k => jumpIf (isNegative (k.reg a)) (k.reg b) k

end Sys2Proof.Machine
end

