-- ==== Sys2Proof/Machine/Subword.lean ====
section
/-!
DEFINITION. The subword operations (46_subword.md).
-/

namespace Sys2Proof.Machine

/-- The `n` bytes of `a` from byte number `idx`, zero- or sign-extended: the pseudocode of rule R217, with `8 * idx` a
mathematical integer (rule R218). -/
def subword {W : Nat} (sex : Bool) (n idx : Nat) (a : BitVec W) : BitVec W :=
  let v := if W ≤ 8 * idx then 0 else a.toNat / 2 ^ (8 * idx)
  if 8 * n < W then
    let u := v % 2 ^ (8 * n)
    if sex && u.testBit (8 * n - 1) then BitVec.ofNat W (u + (2 ^ W - 2 ^ (8 * n))) else BitVec.ofNat W u
  else BitVec.ofNat W v

/-- `x[D] <-` the subword of `x[D]` at the index in register Swi, read before the write (rules R216, R217). -/
def subwordOp {W : Nat} (sex : Bool) (n : Nat) (d i : Reg) (k : Run W) : Run W :=
  k.setReg d (subword sex n (k.reg i).toNat (k.reg d))

/-- `SUBW Rd, Ri, n` (rule R217, Sex = 0). -/
def execSubw (d i : Reg) (size : Nat) (s : State) : Result := executeOk s (subwordOp false size d i)

/-- `SUBWS Rd, Ri, n` (rule R217, Sex = 1). -/
def execSubws (d i : Reg) (size : Nat) (s : State) : Result := executeOk s (subwordOp true size d i)

end Sys2Proof.Machine
end

