-- ==== Sys2Proof/Machine/System.lean ====
section
/-!
DEFINITION. The system register instructions (47_system_registers.md), for every system register number.
-/

namespace Sys2Proof.Machine

/-- `x[R] <- sr[S]` (rule R225). -/
def readToRegister {W : Nat} (c : Config) (r : Reg) (n : BitVec 8) (k : Run W) : Except Abort (Run W) :=
  match readSysReg c (sysReg n) k.arch with
  | .error a => .error a
  | .ok v => .ok (k.setReg r v)

/-- `SRR Rr, s` (rule R225). -/
def execSrr (r : Reg) (n : BitVec 8) (s : State) : Result := execute s (readToRegister s.cfg r n)

/-- `SRW Rr, s` (rule R226). -/
def execSrw (r : Reg) (n : BitVec 8) (s : State) : Result :=
  execute s fun k => writeSysReg (sysReg n) (k.reg r) k

end Sys2Proof.Machine
end

