-- ==== Sys2Proof/Machine/Dispatch.lean ====
section
/-!
DEFINITION. exec: one arm per instruction, each one direct call of its meaning.
-/

namespace Sys2Proof.Machine

def exec (i : Instr) (s : State) : Host.Outcome State Fault Refusal :=
  match i with
  | .deg => Sys2Proof.Machine.execDeg s
  | .bitF d r => Sys2Proof.Machine.execBitF d r s
  | .bitNor d r => Sys2Proof.Machine.execBitNor d r s
  | .bitNci d r => Sys2Proof.Machine.execBitNci d r s
  | .bitNd d r => Sys2Proof.Machine.execBitNd d r s
  | .bitNmi d r => Sys2Proof.Machine.execBitNmi d r s
  | .bitNs d r => Sys2Proof.Machine.execBitNs d r s
  | .bitXor d r => Sys2Proof.Machine.execBitXor d r s
  | .bitNand d r => Sys2Proof.Machine.execBitNand d r s
  | .bitAnd d r => Sys2Proof.Machine.execBitAnd d r s
  | .bitXnor d r => Sys2Proof.Machine.execBitXnor d r s
  | .bitS d r => Sys2Proof.Machine.execBitS d r s
  | .bitMi d r => Sys2Proof.Machine.execBitMi d r s
  | .bitD d r => Sys2Proof.Machine.execBitD d r s
  | .bitCi d r => Sys2Proof.Machine.execBitCi d r s
  | .bitOr d r => Sys2Proof.Machine.execBitOr d r s
  | .bitT d r => Sys2Proof.Machine.execBitT d r s
  | .add d r => Sys2Proof.Machine.execAdd d r s
  | .sub d r => Sys2Proof.Machine.execSub d r s
  | .shl d r => Sys2Proof.Machine.execShl d r s
  | .shr d r => Sys2Proof.Machine.execShr d r s
  | .asr d r => Sys2Proof.Machine.execAsr d r s
  | .mul d r => Sys2Proof.Machine.execMul d r s
  | .div d r => Sys2Proof.Machine.execDiv d r s
  | .mod d r => Sys2Proof.Machine.execMod d r s
  | .addi d n => Sys2Proof.Machine.execAddi d n s
  | .subi d n => Sys2Proof.Machine.execSubi d n s
  | .shli d n => Sys2Proof.Machine.execShli d n s
  | .shri d n => Sys2Proof.Machine.execShri d n s
  | .asri d n => Sys2Proof.Machine.execAsri d n s
  | .muli d n => Sys2Proof.Machine.execMuli d n s
  | .divi d n => Sys2Proof.Machine.execDivi d n s
  | .modi d n => Sys2Proof.Machine.execModi d n s
  | .cmpF d r => Sys2Proof.Machine.execCmpF d r s
  | .cmpEq d r => Sys2Proof.Machine.execCmpEq d r s
  | .cmpAb d r => Sys2Proof.Machine.execCmpAb d r s
  | .cmpAbe d r => Sys2Proof.Machine.execCmpAbe d r s
  | .cmpSf d r => Sys2Proof.Machine.execCmpSf d r s
  | .cmpSeq d r => Sys2Proof.Machine.execCmpSeq d r s
  | .cmpGt d r => Sys2Proof.Machine.execCmpGt d r s
  | .cmpGte d r => Sys2Proof.Machine.execCmpGte d r s
  | .cmpT d r => Sys2Proof.Machine.execCmpT d r s
  | .cmpNeq d r => Sys2Proof.Machine.execCmpNeq d r s
  | .cmpBle d r => Sys2Proof.Machine.execCmpBle d r s
  | .cmpBl d r => Sys2Proof.Machine.execCmpBl d r s
  | .cmpSt d r => Sys2Proof.Machine.execCmpSt d r s
  | .cmpSneq d r => Sys2Proof.Machine.execCmpSneq d r s
  | .cmpLte d r => Sys2Proof.Machine.execCmpLte d r s
  | .cmpLt d r => Sys2Proof.Machine.execCmpLt d r s
  | .xf dst src => Sys2Proof.Machine.execXf dst src s
  | .bnz c off => Sys2Proof.Machine.execBnz c off s
  | .subw d x size => Sys2Proof.Machine.execSubw d x size s
  | .subws d x size => Sys2Proof.Machine.execSubws d x size s
  | .srr r n => Sys2Proof.Machine.execSrr r n s
  | .srw r n => Sys2Proof.Machine.execSrw r n s
  | .si d n => Sys2Proof.Machine.execSi d n s
  | .sel c n z => Sys2Proof.Machine.execSel c n z s
  | .swap a b => Sys2Proof.Machine.execSwap a b s
  | .mmul a b => Sys2Proof.Machine.execMmul a b s
  | .mdiv a b => Sys2Proof.Machine.execMdiv a b s
  | .mmod a b => Sys2Proof.Machine.execMmod a b s
  | .ldreg a b => Sys2Proof.Machine.execLdreg a b s
  | .streg a b => Sys2Proof.Machine.execStreg a b s
  | .ldoff a imm => Sys2Proof.Machine.execLdoff a imm s
  | .loop a b => Sys2Proof.Machine.execLoop a b s
  | .jz a imm => Sys2Proof.Machine.execJz a imm s
  | .jzr a b => Sys2Proof.Machine.execJzr a b s
  | .jnz a imm => Sys2Proof.Machine.execJnz a imm s
  | .jnzr a b => Sys2Proof.Machine.execJnzr a b s
  | .jgz a imm => Sys2Proof.Machine.execJgz a imm s
  | .jgzr a b => Sys2Proof.Machine.execJgzr a b s
  | .jlz a imm => Sys2Proof.Machine.execJlz a imm s
  | .jlzr a b => Sys2Proof.Machine.execJlzr a b s
  | .long l _ => Sys2Proof.Machine.execLong l s

end Sys2Proof.Machine
end

