-- ==== Sys2Proof/Machine/Step.lean ====
section
/-!
DEFINITION. One step of the machine (10_state.md rule R27), and the placing of an instruction where the step fetches.
-/

namespace Sys2Proof.Machine

/-- The step of 10_state.md rule R27. A halted core takes none (60_exceptions.md rule R330): its state is final. A requesting
device interrupts when exceptions are enabled (rule R311). Otherwise the word at `x[0]` is fetched, decoded and executed; a
reserved word raises Illegal instruction (rule R302 (a)). -/
def step (s : State) : Host.Outcome State Fault Refusal :=
  if s.arch.halted then .fault .halted
  else if s.arch.exceptionsEnabled && !s.arch.pending.isEmpty then
    .next { cfg := s.cfg, arch := takeInterrupt s.arch }
  else
    match fetch s.cfg s.arch with
    | .error f => .fault f
    | .ok (w, m) =>
      match decode w with
      | .ok i => exec i { cfg := s.cfg, arch := m }
      | .error _ => takeException { cfg := s.cfg, arch := m } 2 .illegalInstruction

/-- The state with the instruction whose bits are `w` (the bits above `nbits` 0) in memory where the step fetches, at
`x[0]`, in the machine's byte order: a platform image of one instruction. -/
def State.withFetchWord (s : State) (nbits w : Nat) : State :=
  s.withBytes (s.arch.reg 0).toNat (wordBytesOf s.cfg.byteOrder (BitVec.ofNat 16 (w % 2 ^ nbits)))

end Sys2Proof.Machine
end

