-- ==== Sys2Proof/Safety.lean ====
section
/-!
DEFINITION. What a good state is and what a safe run is, and the vocabulary of the claims: what an instruction leaves alone,
how it ends, what entering the handler does.
-/

namespace Sys2Proof.Machine

/-- Memory is canonical and lists only addresses of the machine (20_memory.md rule R60). -/
abbrev State.MemoryInv (s : State) : Prop :=
  Memory.wf s.arch.mem ∧ ∀ c ∈ s.arch.mem, c.1 < 2 ^ s.W

/-- The requesting devices are devices of MEM_MAP, each by its region address and none twice (60_exceptions.md rule
R310). -/
abbrev State.PendingInv (s : State) : Prop :=
  s.arch.pending.Nodup ∧
    (s.arch.pending.all fun d => s.cfg.regions.any fun r => r.kind = .device && d = BitVec.ofNat s.W r.base) = true

/-- The invariant: a configuration rule R7 allows, canonical memory, requests only from devices. -/
abbrev State.Inv (s : State) : Prop := s.cfg.WellFormed ∧ s.MemoryInv ∧ s.PendingInv

/-- A step that completes: the machine neither stops on a model fault nor is halted. A proof about a program shows it of
every state the program reaches (93_implementation_defined.md, treatment "refuse"). -/
abbrev State.StepsTo (s t : State) : Prop := step s = .next t

/-- An interrupt is taken at this boundary (60_exceptions.md rule R311). -/
abbrev State.InterruptTaken (s : State) : Prop :=
  s.arch.exceptionsEnabled = true ∧ s.arch.pending ≠ []

/-- The core is about to fetch: it runs, and no interrupt is taken (10_state.md rule R27, step 2). -/
abbrev State.Fetching (s : State) : Prop := s.arch.halted = false ∧ ¬ s.InterruptTaken

/-- An `n`-byte access at `a` that is aligned and touches plain memory only (20_memory.md rules R61, R67). -/
abbrev State.PlainAccess (s : State) (a : BitVec s.W) (n : Nat) : Prop :=
  a.toNat % n = 0 ∧ accessKind s.cfg (accessAddrs s.W a.toNat n) = .plain

/-! ### How an instruction ends -/

/-- The instruction completes at `s` and leaves the architectural state `m`. -/
abbrev State.Completes (s : State) (i : Instr) (m : Arch s.W) : Prop := exec i s = .next { cfg := s.cfg, arch := m }

/-- The step completes at `s` and leaves the architectural state `m`. -/
abbrev State.StepsToArch (s : State) (m : Arch s.W) : Prop := step s = .next { cfg := s.cfg, arch := m }

/-- What stays when an instruction changes general registers and memory only: the exception registers, the halted state, the
requests, the debug output stream and the accesses to devices. -/
structure Arch.KeptControl {W : Nat} (m m' : Arch W) : Prop where
  sr2 : m'.sr2 = m.sr2
  sr8 : m'.sr8 = m.sr8
  sr9 : m'.sr9 = m.sr9
  halted : m'.halted = m.halted
  pending : m'.pending = m.pending
  debugOut : m'.debugOut = m.debugOut
  bus : m'.bus = m.bus

/-- What stays when an instruction changes general registers only: all of that and every byte of memory. -/
structure Arch.Kept {W : Nat} (m m' : Arch W) : Prop extends Arch.KeptControl m m' where
  mem : ∀ a, Memory.read m'.mem a = Memory.read m.mem a

/-- The instruction retires: SR 4 counts it (10_state.md rule R36) and SR 5 takes its draw of cycles (rule R37). -/
structure Arch.Counted {W : Nat} (m m' : Arch W) : Prop where
  sr4 : m'.sr4 = m.sr4 + BitVec.ofNat W 1
  sr5 : m'.sr5 = m.sr5 + BitVec.ofNat W (Config.cycles m.draws)

/-- The handler was entered with this cause and continuation (60_exceptions.md rule R304), and nothing else changed. -/
structure Arch.Trapped {W : Nat} (m : Arch W) (cause cont : BitVec W) (m' : Arch W) : Prop where
  sr2 : m'.sr2 = m.sr2 &&& ~~~BitVec.ofNat W 1
  pc : m'.reg 0 = m'.sr2
  sr8 : m'.sr8 = cont
  sr9 : m'.sr9 = cause
  regs : ∀ j : Reg, j ≠ 0 → m'.reg j = m.reg j
  sr4 : m'.sr4 = m.sr4
  sr5 : m'.sr5 = m.sr5
  halted : m'.halted = m.halted
  pending : m'.pending = m.pending
  debugOut : m'.debugOut = m.debugOut
  bus : m'.bus = m.bus
  mem : ∀ a, Memory.read m'.mem a = Memory.read m.mem a

/-- The instruction completes with `x[d] = v` and changes nothing else but the program counter and the two counters. -/
def State.Sets (s : State) (i : Instr) (d : Reg) (v : BitVec s.W) : Prop :=
  ∃ m : Arch s.W, s.Completes i m ∧ m.reg d = v ∧ (∀ j : Reg, j ≠ d → j ≠ 0 → m.reg j = s.arch.reg j) ∧
    s.arch.Kept m

/-- The same, and what the program counter and the counters become: `x[0]` advances unless it is `d` (10_state.md rules R25,
R26). -/
def State.SetsAndAdvances (s : State) (i : Instr) (d : Reg) (v : BitVec s.W) : Prop :=
  ∃ m : Arch s.W, s.Completes i m ∧ m.reg d = v ∧ (∀ j : Reg, j ≠ d → j ≠ 0 → m.reg j = s.arch.reg j) ∧
    (d ≠ 0 → m.reg 0 = s.arch.reg 0 + BitVec.ofNat s.W 2) ∧ s.arch.Kept m ∧ s.arch.Counted m

/-- The instruction completes, the program counter becomes `target`, and nothing else changes but the two counters. -/
def State.GoesTo (s : State) (i : Instr) (target : BitVec s.W) : Prop :=
  ∃ m : Arch s.W, s.Completes i m ∧ m.reg 0 = target ∧ (∀ j : Reg, j ≠ 0 → m.reg j = s.arch.reg j) ∧
    s.arch.Kept m ∧ s.arch.Counted m

/-- The instruction raises an exception with this cause word: with exceptions enabled the handler is entered, the
continuation that of an instruction of `len` bytes (60_exceptions.md rule R307), nothing is counted; with exceptions
disabled the model stops (rule R308). -/
def State.Raises (s : State) (i : Instr) (cause len : Nat) : Prop :=
  (s.arch.exceptionsEnabled = true → ∃ m : Arch s.W, s.Completes i m ∧
    s.arch.Trapped (BitVec.ofNat s.W cause)
      (if s.cfg.faultContinuation = .current then s.arch.reg 0 else s.arch.reg 0 + BitVec.ofNat s.W len) m) ∧
  (s.arch.exceptionsEnabled = false → exec i s = .fault .exceptionWhileDisabled)

/-- The state after an instruction that writes no general register has retired. -/
def Arch.advanced {W : Nat} (m : Arch W) : Arch W :=
  { m.setReg 0 (m.reg 0 + BitVec.ofNat W 2) with
    sr4 := m.sr4 + BitVec.ofNat W 1
    sr5 := m.sr5 + BitVec.ofNat W (Config.cycles m.draws)
    draws := m.draws + 1 }

/-! ### Words of memory and the operands of a transfer -/

/-- The word of memory at an address, as a data read of plain memory gives it. -/
def State.wordAt (s : State) (a : BitVec s.W) : BitVec s.W :=
  BitVec.ofNat s.W (natOfBytes
    (s.cfg.byteOrder.arrange ((accessAddrs s.W a.toNat s.cfg.wordBytes).map (Memory.read s.arch.mem))))

/-- A register as an operand uses it: WB less under autodecrement (44_data_transfer.md rule R194). -/
def State.used (s : State) (mode : IncMode) (v : BitVec s.W) : BitVec s.W :=
  match mode with
  | .autoDec => v - BitVec.ofNat s.W s.cfg.wordBytes
  | _ => v

/-- What the operand's register holds after the operand was used, from the value used (44_data_transfer.md rules R192 to
R195). -/
def State.stepped (s : State) (mode : IncMode) (v : BitVec s.W) : BitVec s.W :=
  match mode with
  | .autoInc => v + BitVec.ofNat s.W s.cfg.wordBytes
  | .autoPostDec => v - BitVec.ofNat s.W s.cfg.wordBytes
  | _ => v

/-- The operand's register as the operand uses it: the value or the address. -/
def State.operandValue (s : State) (o : Operand) : BitVec s.W := s.used o.mode (s.arch.reg o.reg)

/-- The operand leaves the program counter to the ordinary advance: its register is not R0, or it has no increment mode. -/
abbrev sparesPc (o : Operand) : Prop := o.reg ≠ 0 ∨ o.mode = .none

/-- The same machine with other requests and with an earlier debug output stream in front. -/
def State.overlay (s : State) (requests : List (BitVec s.W)) (earlier : List Byte) : State :=
  { cfg := s.cfg, arch := { s.arch with pending := requests, debugOut := earlier ++ s.arch.debugOut } }

end Sys2Proof.Machine
end

