-- ==== Sys2Proof/Certificates/Slice0/Obligations.lean ====
section
/-!
DEFINITION. The statements for the provers. Each docstring names the rule of spec/ a statement formalises, or, where the
statement rests on a choice the spec marks as its own (a decision) or on one the model made, the decision or log entry.
-/

open Sys2Proof Sys2Proof.Machine

/-! ### Encoding and decoding -/

/-- Every well-formed instruction's word decodes to it, with every operand at every value (30_encoding.md, the formats and
the decoding procedure). -/
def Obligations.DecodeInvertsEncode : Prop :=
  ∀ i : Instr, i.WellFormed → decode (encode i) = .ok i

/-- Every word that decodes is the word of the instruction it decodes to, which is well-formed: no two words stand for one
instruction and no bit is dropped (30_encoding.md, the opcode map). -/
def Obligations.EncodeInvertsDecode : Prop :=
  ∀ (w : IWord) (i : Instr), decode w = .ok i → i.WellFormed ∧ encode i = w

/-- The decoder rejects exactly the words 0x0001 to 0x0FFF, each as reserved (30_encoding.md section 5; the Illegal
instruction they raise is decision D19 and is stated of the step). -/
def Obligations.ReservedWordsOnly : Prop :=
  ∀ w : IWord, (decode w = .error (.reserved w) ↔ 1 ≤ w.toNat ∧ w.toNat ≤ 0x0FFF) ∧
    (∀ r, decode w = .error r → r = .reserved w)

/-- Words the rules of 40_ to 49_ spell out decode to the instructions they are given for, one for each class. -/
def Obligations.SampleWordsDecode : Prop :=
  decode 0x0000 = .ok .deg ∧
  decode 0x1321 = .ok (.bitNd 1 2) ∧
  decode 0x2851 = .ok (.addi 1 5) ∧
  decode 0x3F21 = .ok (.cmpLt 1 2) ∧
  decode 0x463F = .ok (.xf ⟨15, true, .autoDec⟩ ⟨3, false, .none⟩) ∧
  decode 0x68F3 = .ok (.xf ⟨3, false, .none⟩ ⟨15, true, .autoInc⟩) ∧
  decode 0x82FE = .ok (.bnz 2 0xFE) ∧
  decode 0x9A21 = .ok (.subws 1 2 2) ∧
  decode 0x9021 = .ok (.subw 1 2 8) ∧
  decode 0xA008 = .ok (.srr 0 8) ∧
  decode 0xB40A = .ok (.srw 4 10) ∧
  decode 0xCFF2 = .ok (.si 2 255) ∧
  decode 0xD123 = .ok (.sel 1 2 3) ∧
  decode 0xE7F1 = .ok (.loop 1 15) ∧
  decode 0xF2AB = .ok (.long 2 0xAB)

/-- In either byte order an instruction's bytes at the head of any bytes decode to it, and the rest is left; fewer than two
bytes are no instruction (20_memory.md section 2). -/
def Obligations.BytesDecodeInEitherOrder : Prop :=
  (∀ (o : ByteOrder) (i : Instr) (rest : List Byte), i.WellFormed →
    decodeBytes o (wordBytesOf o (encode i) ++ rest) = .ok (i, rest)) ∧
  (∀ (o : ByteOrder) (bs : List Byte), bs.length < 2 → decodeBytes o bs = .error .truncated)

/-! ### Bitwise -/

/-- Rules R131 to R138: the word, the result in D, no exception in any state, nothing else changed but the counters and the
program counter. -/
def Obligations.BitwiseTables0To7 : Prop :=
  ∀ (s : State) (d r : Reg),
    (decode (BitVec.ofNat 16 (0x1000 + 16 * r + d)) = .ok (.bitF d r) ∧ s.Sets (.bitF d r) d (BitVec.ofNat s.W 0)) ∧
    (decode (BitVec.ofNat 16 (0x1100 + 16 * r + d)) = .ok (.bitNor d r) ∧
      s.Sets (.bitNor d r) d (~~~(s.arch.reg d ||| s.arch.reg r))) ∧
    (decode (BitVec.ofNat 16 (0x1200 + 16 * r + d)) = .ok (.bitNci d r) ∧
      s.Sets (.bitNci d r) d (~~~s.arch.reg d &&& s.arch.reg r)) ∧
    (decode (BitVec.ofNat 16 (0x1300 + 16 * r + d)) = .ok (.bitNd d r) ∧ s.Sets (.bitNd d r) d (~~~s.arch.reg d)) ∧
    (decode (BitVec.ofNat 16 (0x1400 + 16 * r + d)) = .ok (.bitNmi d r) ∧
      s.Sets (.bitNmi d r) d (s.arch.reg d &&& ~~~s.arch.reg r)) ∧
    (decode (BitVec.ofNat 16 (0x1500 + 16 * r + d)) = .ok (.bitNs d r) ∧ s.Sets (.bitNs d r) d (~~~s.arch.reg r)) ∧
    (decode (BitVec.ofNat 16 (0x1600 + 16 * r + d)) = .ok (.bitXor d r) ∧
      s.Sets (.bitXor d r) d (s.arch.reg d ^^^ s.arch.reg r)) ∧
    (decode (BitVec.ofNat 16 (0x1700 + 16 * r + d)) = .ok (.bitNand d r) ∧
      s.Sets (.bitNand d r) d (~~~(s.arch.reg d &&& s.arch.reg r)))

/-- Rules R139 to R146, in the same form; the all-ones word of `BIT.T` is `2^W - 1`. -/
def Obligations.BitwiseTables8To15 : Prop :=
  ∀ (s : State) (d r : Reg),
    (decode (BitVec.ofNat 16 (0x1800 + 16 * r + d)) = .ok (.bitAnd d r) ∧
      s.Sets (.bitAnd d r) d (s.arch.reg d &&& s.arch.reg r)) ∧
    (decode (BitVec.ofNat 16 (0x1900 + 16 * r + d)) = .ok (.bitXnor d r) ∧
      s.Sets (.bitXnor d r) d (~~~(s.arch.reg d ^^^ s.arch.reg r))) ∧
    (decode (BitVec.ofNat 16 (0x1A00 + 16 * r + d)) = .ok (.bitS d r) ∧ s.Sets (.bitS d r) d (s.arch.reg r)) ∧
    (decode (BitVec.ofNat 16 (0x1B00 + 16 * r + d)) = .ok (.bitMi d r) ∧
      s.Sets (.bitMi d r) d (~~~s.arch.reg d ||| s.arch.reg r)) ∧
    (decode (BitVec.ofNat 16 (0x1C00 + 16 * r + d)) = .ok (.bitD d r) ∧ s.Sets (.bitD d r) d (s.arch.reg d)) ∧
    (decode (BitVec.ofNat 16 (0x1D00 + 16 * r + d)) = .ok (.bitCi d r) ∧
      s.Sets (.bitCi d r) d (s.arch.reg d ||| ~~~s.arch.reg r)) ∧
    (decode (BitVec.ofNat 16 (0x1E00 + 16 * r + d)) = .ok (.bitOr d r) ∧
      s.Sets (.bitOr d r) d (s.arch.reg d ||| s.arch.reg r)) ∧
    (decode (BitVec.ofNat 16 (0x1F00 + 16 * r + d)) = .ok (.bitT d r) ∧
      s.Sets (.bitT d r) d (BitVec.ofNat s.W (2 ^ s.W - 1)))

/-- Each of the sixteen bitwise instructions is the truth table of its number: bit k of the result is the bit of M whose
index is twice the bit of D plus the bit of S (41_bitwise.md, the class rule, which the spec derives from the names). -/
def Obligations.BitwiseTruthTable : Prop :=
  ∀ (s : State) (m : Nat) (d r : Reg), m < 16 → ∃ v : BitVec s.W, s.Sets (decodeBitwise m d r) d v ∧
    ∀ k : Nat, k < s.W →
      v.getLsbD k = m.testBit (2 * ((s.arch.reg d).getLsbD k).toNat + ((s.arch.reg r).getLsbD k).toNat)

/-! ### Arithmetic -/

/-- Rules R153 and R154: the words, the sum and the difference modulo 2^W in D, no exception, nothing else changed but the
counters and the program counter. -/
def Obligations.AddAndSubtract : Prop :=
  ∀ (s : State) (d r : Reg) (n : BitVec 4),
    (decode (BitVec.ofNat 16 (0x2000 + 16 * r + d)) = .ok (.add d r) ∧
      decode (BitVec.ofNat 16 (0x2800 + 16 * n.toNat + d)) = .ok (.addi d n) ∧
      s.Sets (.add d r) d (BitVec.ofNat s.W ((s.arch.reg d).toNat + (s.arch.reg r).toNat)) ∧
      s.Sets (.addi d n) d (BitVec.ofNat s.W ((s.arch.reg d).toNat + n.toNat))) ∧
    (decode (BitVec.ofNat 16 (0x2100 + 16 * r + d)) = .ok (.sub d r) ∧
      decode (BitVec.ofNat 16 (0x2900 + 16 * n.toNat + d)) = .ok (.subi d n) ∧
      s.Sets (.sub d r) d (BitVec.ofInt s.W ((s.arch.reg d).toNat - (s.arch.reg r).toNat)) ∧
      s.Sets (.subi d n) d (BitVec.ofInt s.W ((s.arch.reg d).toNat - n.toNat)))

/-- What the step adds to a bitwise instruction, an addition or a subtraction: the program counter advances by 2 unless D is
R0, SR 4 counts the instruction and SR 5 takes its cycles (10_state.md, the step; decisions D1, D23, D24 of the spec; log
entry 5 for the draw). -/
def Obligations.OrdinaryInstructionAdvances : Prop :=
  ∀ (s : State) (d r : Reg) (n : BitVec 4) (t op : Nat), t < 16 → op < 2 →
    (∃ v, s.SetsAndAdvances (decodeBitwise t d r) d v) ∧
    (∃ v, s.SetsAndAdvances (decodeArith op d r n) d v) ∧
    (∃ v, s.SetsAndAdvances (decodeArith (8 + op) d r n) d v)

/-- The shifts are the mathematical ones for every amount, the width and more included: times 2^b modulo 2^W, and the floor
of the unsigned or the signed value divided by 2^b; the amount is the whole unsigned right operand (42_arithmetic.md; the
amounts of W or more are decision D7 of the spec, log entry 13). -/
def Obligations.ShiftsAreMathematical : Prop :=
  ∀ (s : State) (d r : Reg) (n : BitVec 4),
    (∃ v, s.SetsAndAdvances (.shl d r) d v ∧ v.toNat = (s.arch.reg d).toNat * 2 ^ (s.arch.reg r).toNat % 2 ^ s.W) ∧
    (∃ v, s.SetsAndAdvances (.shli d n) d v ∧ v.toNat = (s.arch.reg d).toNat * 2 ^ (zext s.W n).toNat % 2 ^ s.W) ∧
    (∃ v, s.SetsAndAdvances (.shr d r) d v ∧ v.toNat = (s.arch.reg d).toNat / 2 ^ (s.arch.reg r).toNat) ∧
    (∃ v, s.SetsAndAdvances (.shri d n) d v ∧ v.toNat = (s.arch.reg d).toNat / 2 ^ (zext s.W n).toNat) ∧
    (∃ v, s.SetsAndAdvances (.asr d r) d v ∧ v.toInt = (s.arch.reg d).toInt / 2 ^ (s.arch.reg r).toNat) ∧
    (∃ v, s.SetsAndAdvances (.asri d n) d v ∧ v.toInt = (s.arch.reg d).toInt / 2 ^ (zext s.W n).toNat)

/-- With the multiplier the products are the low W bits; MMUL needs it only where MISC_MULDIV_NEEDS_MUL says so
(42_arithmetic.md, 49_misc_and_long.md; the availability is decision D10 of the spec). -/
def Obligations.MultiplyKeepsLowWord : Prop :=
  ∀ (s : State) (d r : Reg) (n : BitVec 4),
    (s.cfg.hasMul = true → s.SetsAndAdvances (.mul d r) d (s.arch.reg d * s.arch.reg r) ∧
      s.SetsAndAdvances (.muli d n) d (s.arch.reg d * zext s.W n)) ∧
    (s.cfg.hasMul = true ∨ s.cfg.miscMulDivNeedsMul = false →
      s.SetsAndAdvances (.mmul d r) d (s.arch.reg d * s.arch.reg r))

/-- A non-zero divisor gives the unsigned quotient and remainder in all six dividing instructions; the two results satisfy
the law of division (decisions D8 and D10 of the spec). -/
def Obligations.DivideAndRemainder : Prop :=
  ∀ (s : State) (d r : Reg) (n : BitVec 4),
    (s.cfg.hasMul = true → s.arch.reg r ≠ 0 → ∃ q m : BitVec s.W,
      s.SetsAndAdvances (.div d r) d q ∧ s.SetsAndAdvances (.mod d r) d m ∧
      (s.arch.reg d).toNat = (s.arch.reg r).toNat * q.toNat + m.toNat ∧ m.toNat < (s.arch.reg r).toNat) ∧
    (s.cfg.hasMul = true → zext s.W n ≠ 0 → ∃ q m : BitVec s.W,
      s.SetsAndAdvances (.divi d n) d q ∧ s.SetsAndAdvances (.modi d n) d m ∧
      (s.arch.reg d).toNat = (zext s.W n).toNat * q.toNat + m.toNat ∧ m.toNat < (zext s.W n).toNat) ∧
    (s.cfg.hasMul = true ∨ s.cfg.miscMulDivNeedsMul = false → s.arch.reg r ≠ 0 → ∃ q m : BitVec s.W,
      s.SetsAndAdvances (.mdiv d r) d q ∧ s.SetsAndAdvances (.mmod d r) d m ∧
      (s.arch.reg d).toNat = (s.arch.reg r).toNat * q.toNat + m.toNat ∧ m.toNat < (s.arch.reg r).toNat)

/-- A zero divisor raises Divide by Zero (cause word 1) in all six dividing instructions, and writes nothing but what the
entry into the handler writes; with exceptions disabled the model stops (decisions D9, D26, D27, D28 of the spec, log entry
13; that the model stops with exceptions disabled is log entry 11, DEDUCED; that SR 5 takes no cycles across the trap is log
entry 5, DEDUCED and unsafe). -/
def Obligations.DivideByZeroTraps : Prop :=
  ∀ (s : State) (d r : Reg) (n : BitVec 4),
    (s.cfg.hasMul = true → s.arch.reg r = 0 → s.Raises (.div d r) 1 2 ∧ s.Raises (.mod d r) 1 2) ∧
    (s.cfg.hasMul = true → zext s.W n = 0 → s.Raises (.divi d n) 1 2 ∧ s.Raises (.modi d n) 1 2) ∧
    (s.cfg.hasMul = true ∨ s.cfg.miscMulDivNeedsMul = false → s.arch.reg r = 0 →
      s.Raises (.mdiv d r) 1 2 ∧ s.Raises (.mmod d r) 1 2)

/-- Without the multiplier the six arithmetic forms raise Illegal instruction (cause word 3) whatever the operands, a zero
divisor included; MMUL, MDIV and MMOD do when MISC_MULDIV_NEEDS_MUL is true as well (decision D10 of the spec for when it is
raised, D26, D27 and D28 for how; that the model stops with exceptions disabled is log entry 11, DEDUCED; that SR 5 takes no
cycles across the trap is log entry 5, DEDUCED and unsafe). -/
def Obligations.MissingMultiplierIsIllegal : Prop :=
  ∀ (s : State) (d r : Reg) (n : BitVec 4), s.cfg.hasMul = false →
    (s.Raises (.mul d r) 3 2 ∧ s.Raises (.div d r) 3 2 ∧ s.Raises (.mod d r) 3 2) ∧
    (s.Raises (.muli d n) 3 2 ∧ s.Raises (.divi d n) 3 2 ∧ s.Raises (.modi d n) 3 2) ∧
    (s.cfg.miscMulDivNeedsMul = true →
      s.Raises (.mmul d r) 3 2 ∧ s.Raises (.mdiv d r) 3 2 ∧ s.Raises (.mmod d r) 3 2)

/-! ### Comparison -/

/-- The eight comparisons that read their operands as unsigned or test equality write 1 or 0 to D (43_comparison.md; that
truth is the word 1 is decision D11 of the spec). -/
def Obligations.UnsignedComparisons : Prop :=
  ∀ (s : State) (d r : Reg) (a b : BitVec s.W) (yes no : BitVec s.W), a = s.arch.reg d → b = s.arch.reg r →
    yes = BitVec.ofNat s.W 1 → no = BitVec.ofNat s.W 0 →
    s.SetsAndAdvances (.cmpF d r) d no ∧
    s.SetsAndAdvances (.cmpEq d r) d (if a = b then yes else no) ∧
    s.SetsAndAdvances (.cmpAb d r) d (if b.toNat < a.toNat then yes else no) ∧
    s.SetsAndAdvances (.cmpAbe d r) d (if b.toNat ≤ a.toNat then yes else no) ∧
    s.SetsAndAdvances (.cmpT d r) d yes ∧
    s.SetsAndAdvances (.cmpNeq d r) d (if a = b then no else yes) ∧
    s.SetsAndAdvances (.cmpBle d r) d (if a.toNat ≤ b.toNat then yes else no) ∧
    s.SetsAndAdvances (.cmpBl d r) d (if a.toNat < b.toNat then yes else no)

/-- The eight comparisons with SN set; codes 14 and 15 are LTE and LT, as the bit definitions give them (43_comparison.md;
decisions D11 and D12 of the spec, conflict C5). -/
def Obligations.SignedComparisons : Prop :=
  ∀ (s : State) (d r : Reg) (a b : BitVec s.W) (yes no : BitVec s.W), a = s.arch.reg d → b = s.arch.reg r →
    yes = BitVec.ofNat s.W 1 → no = BitVec.ofNat s.W 0 →
    s.SetsAndAdvances (.cmpSf d r) d no ∧
    s.SetsAndAdvances (.cmpSeq d r) d (if a = b then yes else no) ∧
    s.SetsAndAdvances (.cmpGt d r) d (if b.toInt < a.toInt then yes else no) ∧
    s.SetsAndAdvances (.cmpGte d r) d (if b.toInt ≤ a.toInt then yes else no) ∧
    s.SetsAndAdvances (.cmpSt d r) d yes ∧
    s.SetsAndAdvances (.cmpSneq d r) d (if a = b then no else yes) ∧
    s.SetsAndAdvances (.cmpLte d r) d (if a.toInt ≤ b.toInt then yes else no) ∧
    s.SetsAndAdvances (.cmpLt d r) d (if a.toInt < b.toInt then yes else no)

/-- The bit IV inverts the finished test: a code and the code eight above it write different truth values, whose sum is 1
(43_comparison.md, the class rule; decision D11 of the spec for the words 1 and 0). -/
def Obligations.InvertedComparisons : Prop :=
  ∀ (s : State) (c : Nat) (d r : Reg), c < 8 → ∃ v v' : BitVec s.W,
    s.Sets (decodeCompare c d r) d v ∧ s.Sets (decodeCompare (c + 8) d r) d v' ∧
    v + v' = BitVec.ofNat s.W 1 ∧ (v = 0 ∨ v' = 0)

/-! ### Data transfer -/

/-- What a source operand gives, in all eight forms: the register as used, or the word of memory it addresses, and its
register stepped; a device's word is a free value and the read is recorded; a misaligned address and an unmapped one stop the
model (44_data_transfer.md, 20_memory.md; decisions D4, D5, D13 of the spec, log entries 7, 8 and 11). -/
def Obligations.SourceOperandForms : Prop :=
  ∀ (s : State) (src : Operand) (a : BitVec s.W), a = s.operandValue src →
    (src.indirect = false → ∃ k, readOperand s.cfg src (Run.start s.arch) = .ok (a, k) ∧
      k.reg = Function.update s.arch.reg src.reg (s.stepped src.mode a) ∧ s.arch.Kept k.arch) ∧
    (src.indirect = true → s.PlainAccess a s.cfg.wordBytes →
      ∃ k, readOperand s.cfg src (Run.start s.arch) = .ok (s.wordAt a, k) ∧
        k.reg = Function.update s.arch.reg src.reg (s.stepped src.mode a) ∧ s.arch.Kept k.arch) ∧
    (src.indirect = true → a.toNat % s.cfg.wordBytes = 0 →
      accessKind s.cfg (accessAddrs s.W a.toNat s.cfg.wordBytes) = .device →
      ∃ k, readOperand s.cfg src (Run.start s.arch) =
          .ok (BitVec.ofNat s.W (Config.deviceValue s.arch.draws % 2 ^ (8 * s.cfg.wordBytes)), k) ∧
        k.reg = Function.update s.arch.reg src.reg (s.stepped src.mode a) ∧
        Arch.Kept { s.arch with bus := s.arch.bus ++ [.read a.toNat s.cfg.wordBytes] } k.arch) ∧
    (src.indirect = true → a.toNat % s.cfg.wordBytes ≠ 0 →
      ∀ dst, exec (.xf dst src) s = .fault .misalignedAccess) ∧
    (src.indirect = true → a.toNat % s.cfg.wordBytes = 0 →
      accessKind s.cfg (accessAddrs s.W a.toNat s.cfg.wordBytes) = .nothing →
      ∀ dst, exec (.xf dst src) s = .fault .unmappedAccess)

/-- A transfer to a register, whatever its readable source: D holds the word moved, stepped after by the destination's mode;
the source register was stepped before, so with one register for both the destination wins; nothing else changes
(44_data_transfer.md; decision D13 of the spec for the order and for modes without the indirect bit). -/
def Obligations.TransferToRegister : Prop :=
  ∀ (s : State) (dst src : Operand) (v : BitVec s.W) (k : Run s.W),
    dst.indirect = false → readOperand s.cfg src (Run.start s.arch) = .ok (v, k) →
    ∃ m : Arch s.W, s.Completes (.xf dst src) m ∧
      (∀ j : Reg, j ≠ 0 → m.reg j = Function.update k.reg dst.reg (s.stepped dst.mode v) j) ∧
      (dst.reg = 0 → m.reg 0 = s.stepped dst.mode v) ∧
      (dst.reg ≠ 0 → sparesPc src → m.reg 0 = s.arch.reg 0 + BitVec.ofNat s.W 2) ∧
      (dst.reg ≠ 0 → ¬ sparesPc src → m.reg 0 = k.reg 0) ∧
      k.arch.Kept m ∧ k.arch.Counted m

/-- A transfer to plain memory, whatever its readable source: the bytes of the word at the destination's address, computed
after the source operand was handled, hold the word moved; every other byte of memory is as before; D is stepped
(44_data_transfer.md, 20_memory.md; decisions D3 and D13 of the spec). -/
def Obligations.TransferToMemory : Prop :=
  ∀ (s : State) (dst src : Operand) (v : BitVec s.W) (k : Run s.W), s.Inv → dst.indirect = true →
    readOperand s.cfg src (Run.start s.arch) = .ok (v, k) → s.PlainAccess (destAddr s.cfg dst k) s.cfg.wordBytes →
    destAddr s.cfg dst k = s.used dst.mode (k.reg dst.reg) ∧
    ∃ m : Arch s.W, s.Completes (.xf dst src) m ∧
      State.wordAt { cfg := s.cfg, arch := m } (destAddr s.cfg dst k) = v ∧
      (∀ x, x ∉ accessAddrs s.W (destAddr s.cfg dst k).toNat s.cfg.wordBytes →
        Memory.read m.mem x = Memory.read s.arch.mem x) ∧
      (∀ j : Reg, j ≠ 0 →
        m.reg j = Function.update k.reg dst.reg (s.stepped dst.mode (destAddr s.cfg dst k)) j) ∧
      (sparesPc src → sparesPc dst → m.reg 0 = s.arch.reg 0 + BitVec.ofNat s.W 2) ∧
      (¬ (sparesPc src ∧ sparesPc dst) →
        m.reg 0 = Function.update k.reg dst.reg (s.stepped dst.mode (destAddr s.cfg dst k)) 0) ∧
      k.arch.KeptControl m ∧ k.arch.Counted m

/-- A destination address that is misaligned or unmapped stops the model, which has then written nothing; a store to a device
changes no byte of memory and is recorded (20_memory.md; decisions D4, D5 and D6 of the spec, log entries 7, 8 and 11). -/
def Obligations.TransferToFaultOrDevice : Prop :=
  ∀ (s : State) (dst src : Operand) (v a : BitVec s.W) (k : Run s.W), dst.indirect = true →
    readOperand s.cfg src (Run.start s.arch) = .ok (v, k) → a = destAddr s.cfg dst k →
    (a.toNat % s.cfg.wordBytes ≠ 0 → exec (.xf dst src) s = .fault .misalignedAccess) ∧
    (a.toNat % s.cfg.wordBytes = 0 → accessKind s.cfg (accessAddrs s.W a.toNat s.cfg.wordBytes) = .nothing →
      exec (.xf dst src) s = .fault .unmappedAccess) ∧
    (a.toNat % s.cfg.wordBytes = 0 → accessKind s.cfg (accessAddrs s.W a.toNat s.cfg.wordBytes) = .device →
      ∃ m : Arch s.W, s.Completes (.xf dst src) m ∧
        Arch.Kept { k.arch with bus := k.arch.bus ++ [.write a.toNat s.cfg.wordBytes v.toNat] } m ∧
        (∀ j : Reg, j ≠ 0 → m.reg j = Function.update k.reg dst.reg (s.stepped dst.mode a) j) ∧
        (sparesPc src → sparesPc dst → m.reg 0 = s.arch.reg 0 + BitVec.ofNat s.W 2) ∧
        (¬ (sparesPc src ∧ sparesPc dst) → m.reg 0 = Function.update k.reg dst.reg (s.stepped dst.mode a) 0) ∧
        k.arch.Counted m)

/-! ### Jumps -/

/-- The jumps with an immediate offset go to the jump's own address plus twice the signed offset when the condition holds,
and to the next instruction otherwise; they change nothing else (45_conditional.md, 49_misc_and_long.md; decisions D1, D14
and D15 of the spec). -/
def Obligations.ImmediateJumps : Prop :=
  ∀ (s : State) (a : Reg) (off : BitVec 8) (imm : BitVec 4) (next target far : BitVec s.W),
    next = s.arch.reg 0 + BitVec.ofNat s.W 2 → target = s.arch.reg 0 + BitVec.ofInt s.W (2 * imm.toInt) →
    far = s.arch.reg 0 + BitVec.ofInt s.W (2 * off.toInt) →
    s.GoesTo (.bnz a off) (if s.arch.reg a ≠ 0 then far else next) ∧
    s.GoesTo (.jz a imm) (if s.arch.reg a = 0 then target else next) ∧
    s.GoesTo (.jnz a imm) (if s.arch.reg a ≠ 0 then target else next) ∧
    s.GoesTo (.jgz a imm) (if 0 < (s.arch.reg a).toInt then target else next) ∧
    s.GoesTo (.jlz a imm) (if (s.arch.reg a).toInt < 0 then target else next)

/-- JZR, JNZR, JGZR and JLZR: the words, and the jump by the bytes a register holds when the condition on register A holds;
otherwise the next instruction, at the jump's own address plus 2; nothing else changes but the counters, no exception
(49_misc_and_long.md section 3; 10_state.md section 2 for the advance, decision D1 of the spec, log entry 13). -/
def Obligations.IndirectJumps : Prop :=
  ∀ (s : State) (a b : Reg) (next target : BitVec s.W),
    next = s.arch.reg 0 + BitVec.ofNat s.W 2 → target = s.arch.reg 0 + s.arch.reg b →
    (decode (BitVec.ofNat 16 (0xE900 + 16 * b + a)) = .ok (.jzr a b) ∧
      s.Sets (.jzr a b) 0 (if s.arch.reg a = 0 then target else next)) ∧
    (decode (BitVec.ofNat 16 (0xEB00 + 16 * b + a)) = .ok (.jnzr a b) ∧
      s.Sets (.jnzr a b) 0 (if s.arch.reg a ≠ 0 then target else next)) ∧
    (decode (BitVec.ofNat 16 (0xED00 + 16 * b + a)) = .ok (.jgzr a b) ∧
      s.Sets (.jgzr a b) 0 (if 0 < (s.arch.reg a).toInt then target else next)) ∧
    (decode (BitVec.ofNat 16 (0xEF00 + 16 * b + a)) = .ok (.jlzr a b) ∧
      s.Sets (.jlzr a b) 0 (if (s.arch.reg a).toInt < 0 then target else next))

/-- LOOP decrements A and jumps, relative to the program counter as it then stands, when the decremented value is not zero;
the offset is the scaled immediate, or, where MISC_0111 selects LOOP INDIRECT, the register B as it then stands. With A the
program counter the decrement itself is the control transfer (49_misc_and_long.md; decisions D14 and D17 of the spec, log
entry 14). -/
def Obligations.LoopDecrementsAndJumps : Prop :=
  ∀ (s : State) (a : Reg) (b : BitVec 4) (v off : BitVec s.W) (x : Reg → BitVec s.W),
    v = s.arch.reg a - BitVec.ofNat s.W 1 → x = Function.update s.arch.reg a v →
    off = (if s.cfg.misc0111 = .loop then BitVec.ofInt s.W (2 * b.toInt) else x ⟨b.toNat, b.isLt⟩) →
    ∃ m : Arch s.W, s.Completes (.loop a b) m ∧
      (∀ j : Reg, j ≠ 0 → m.reg j = x j) ∧
      m.reg 0 = (if v ≠ 0 then x 0 + off else if a = 0 then v else s.arch.reg 0 + BitVec.ofNat s.W 2) ∧
      s.arch.Kept m ∧ s.arch.Counted m

/-! ### Subword -/

/-- The subword operations, bit by bit: the field's bits come down from byte number `x[Ri]` (read before the write, as a
mathematical number), and above them stand zeros, or copies of the field's top bit for SUBWS; bits beyond the register read
as zero (46_subword.md; decisions D7 and D39 of the spec). -/
def Obligations.SubwordBits : Prop :=
  ∀ (s : State) (d i : Reg) (n : Nat), 1 ≤ n → n ≤ 8 →
    (∃ v : BitVec s.W, s.SetsAndAdvances (.subw d i n) d v ∧ ∀ k, k < s.W →
      v.getLsbD k = if k < 8 * n then (s.arch.reg d).getLsbD (8 * (s.arch.reg i).toNat + k) else false) ∧
    (∃ v : BitVec s.W, s.SetsAndAdvances (.subws d i n) d v ∧ ∀ k, k < s.W →
      v.getLsbD k = if k < 8 * n then (s.arch.reg d).getLsbD (8 * (s.arch.reg i).toNat + k)
        else (s.arch.reg d).getLsbD (8 * (s.arch.reg i).toNat + (8 * n - 1)))

/-! ### System registers -/

/-- In every state SRR of SR 0 gives the model number 0, of SR 1 the word size in bits, of SR 6 the core frequency, and
changes nothing else but the counters and the program counter (10_state.md section 4; that SR 6 is the free constant
CORE_KHZ reduced to W bits is log entry 6, DESIGN CHOICE: the spec does not say what is read when it does not fit). -/
def Obligations.ConstantSystemRegisters : Prop :=
  ∀ (s : State) (r : Reg),
    s.Sets (.srr r 0) r (BitVec.ofNat s.W 0) ∧ s.Sets (.srr r 1) r (BitVec.ofNat s.W s.W) ∧
    s.Sets (.srr r 6) r (BitVec.ofNat s.W Config.coreKhz)

/-- SRR of each readable system register copies its word to the register named; with R0 and SR 8 it returns from the
handler, and reading has no side effect (47_system_registers.md; decisions D21 and D36 of the spec; that SR 6 is the free
constant CORE_KHZ reduced to W bits is log entry 6, DESIGN CHOICE). -/
def Obligations.SystemRegisterReads : Prop :=
  ∀ (s : State) (r : Reg),
    s.SetsAndAdvances (.srr r 0) r (BitVec.ofNat s.W 0) ∧ s.SetsAndAdvances (.srr r 1) r (BitVec.ofNat s.W s.W) ∧
    s.SetsAndAdvances (.srr r 2) r s.arch.sr2 ∧ s.SetsAndAdvances (.srr r 4) r s.arch.sr4 ∧
    s.SetsAndAdvances (.srr r 5) r s.arch.sr5 ∧ s.SetsAndAdvances (.srr r 6) r (BitVec.ofNat s.W Config.coreKhz) ∧
    s.SetsAndAdvances (.srr r 7) r (if s.cfg.hasMul then BitVec.ofNat s.W 1 else BitVec.ofNat s.W 0) ∧
    s.SetsAndAdvances (.srr r 8) r s.arch.sr8 ∧ s.SetsAndAdvances (.srr r 9) r s.arch.sr9

/-- SRW of each writable system register, the whole next state: the register takes the word, a write of SR 4 replaces the
count of the writing instruction, a write of SR 5 goes on counting from the word, a write of SR 10 appends the low byte to
the debug output stream (47_system_registers.md; decisions D21, D23, D24 and D25 of the spec, log entry 5). -/
def Obligations.SystemRegisterWrites : Prop :=
  ∀ (s : State) (r : Reg) (v : BitVec s.W), v = s.arch.reg r →
    s.Completes (.srw r 2) { s.arch.advanced with sr2 := v } ∧
    s.Completes (.srw r 4) { s.arch.advanced with sr4 := v } ∧
    s.Completes (.srw r 5)
      { s.arch.advanced with sr5 := v + BitVec.ofNat s.W (Config.cycles s.arch.draws) } ∧
    s.Completes (.srw r 8) { s.arch.advanced with sr8 := v } ∧
    s.Completes (.srw r 9) { s.arch.advanced with sr9 := v } ∧
    s.Completes (.srw r 10)
      { s.arch.advanced with debugOut := s.arch.debugOut ++ [BitVec.ofNat 8 (v.toNat % 256)] }

/-- An access to a system register with no meaning in that direction stops the model: every number, SRR and SRW
(10_state.md; decision D21 of the spec, log entry 11). -/
def Obligations.UndefinedSystemRegisterStops : Prop :=
  ∀ (s : State) (r : Reg) (n : BitVec 8),
    (n = 3 ∨ n = 10 ∨ 11 ≤ n.toNat → exec (.srr r n) s = .fault .undefinedSRAccess) ∧
    (n = 0 ∨ n = 1 ∨ n = 6 ∨ n = 7 ∨ 11 ≤ n.toNat → exec (.srw r n) s = .fault .undefinedSRAccess)

/-- SRW of SR 3: the word 1 halts the core after the instruction has completed, the word 0 does nothing more than retire, any
other word stops the model (10_state.md; decision D22 of the spec, log entry 11). -/
def Obligations.PowerStateWrites : Prop :=
  ∀ (s : State) (r : Reg),
    (s.arch.reg r = BitVec.ofNat s.W 1 → 1 ≤ s.W → s.Completes (.srw r 3) { s.arch.advanced with halted := true }) ∧
    (s.arch.reg r = BitVec.ofNat s.W 0 → s.Completes (.srw r 3) s.arch.advanced) ∧
    (2 ≤ (s.arch.reg r).toNat → exec (.srw r 3) s = .fault .reservedSRBits)

/-- A halted core takes no step, a pending interrupt or not, and only a write of the word 1 to SR 3 halts it (10_state.md,
60_exceptions.md; decision D22 of the spec, log entry 12). -/
def Obligations.HaltedIsFinal : Prop :=
  (∀ s : State, s.arch.halted = true → step s = .fault .halted) ∧
  (∀ (s : State) (i : Instr) (m : Arch s.W), s.Completes i m → s.arch.halted = false → m.halted = true →
    ∃ r, i = .srw r 3 ∧ (s.arch.reg r).toNat = 1)

/-! ### Small immediate, select, miscellaneous -/

/-- SI loads the zero-extended byte; SEL replaces the condition register by N when it is not zero and by Z when it is, all
three read first (48_small_immediate_select.md; decisions D16 and D38 of the spec). -/
def Obligations.SmallImmediateAndSelect : Prop :=
  ∀ (s : State) (c n z : Reg) (k : BitVec 8),
    s.SetsAndAdvances (.si c k) c (BitVec.ofNat s.W k.toNat) ∧
    s.SetsAndAdvances (.sel c n z) c (if s.arch.reg c ≠ 0 then s.arch.reg n else s.arch.reg z)

/-- SWAP exchanges two registers at once; with R0 among them the program counter takes the other's value
(49_misc_and_long.md; decision D40 of the spec). -/
def Obligations.SwapExchanges : Prop :=
  ∀ (s : State) (a b : Reg), ∃ m : Arch s.W, s.Completes (.swap a b) m ∧
    m.reg a = s.arch.reg b ∧ m.reg b = s.arch.reg a ∧
    (∀ j : Reg, j ≠ a → j ≠ b → j ≠ 0 → m.reg j = s.arch.reg j) ∧
    (a ≠ 0 → b ≠ 0 → m.reg 0 = s.arch.reg 0 + BitVec.ofNat s.W 2) ∧
    s.arch.Kept m ∧ s.arch.Counted m

/-- LDREG and STREG name a register by its number held in register B; a number of 16 or more stops the model
(49_misc_and_long.md; decision D18 of the spec, log entry 11). -/
def Obligations.IndexedRegisters : Prop :=
  ∀ (s : State) (a b : Reg),
    (∀ i : Reg, (s.arch.reg b).toNat = i.val →
      s.SetsAndAdvances (.ldreg a b) a (s.arch.reg i) ∧ s.SetsAndAdvances (.streg a b) i (s.arch.reg a)) ∧
    (16 ≤ (s.arch.reg b).toNat →
      exec (.ldreg a b) s = .fault .registerIndexOutOfRange ∧ exec (.streg a b) s = .fault .registerIndexOutOfRange)

/-- LDOFF loads the word at the base plus the signed displacement in words: from plain memory; from a device, a free value
with the read recorded; a misaligned or an unmapped address stops the model (49_misc_and_long.md, 20_memory.md; decisions D4,
D5 and D14 of the spec, log entries 7, 8 and 11). -/
def Obligations.LoadOffset : Prop :=
  ∀ (s : State) (a : Reg) (imm : BitVec 4) (addr : BitVec s.W),
    addr = s.arch.reg a + BitVec.ofInt s.W (imm.toInt * s.cfg.wordBytes) →
    (s.PlainAccess addr s.cfg.wordBytes → s.SetsAndAdvances (.ldoff a imm) a (s.wordAt addr)) ∧
    (addr.toNat % s.cfg.wordBytes ≠ 0 → exec (.ldoff a imm) s = .fault .misalignedAccess) ∧
    (addr.toNat % s.cfg.wordBytes = 0 →
      accessKind s.cfg (accessAddrs s.W addr.toNat s.cfg.wordBytes) = .nothing →
      exec (.ldoff a imm) s = .fault .unmappedAccess) ∧
    (addr.toNat % s.cfg.wordBytes = 0 →
      accessKind s.cfg (accessAddrs s.W addr.toNat s.cfg.wordBytes) = .device →
      ∃ m : Arch s.W, s.Completes (.ldoff a imm) m ∧
        m.reg a = BitVec.ofNat s.W (Config.deviceValue s.arch.draws % 2 ^ (8 * s.cfg.wordBytes)) ∧
        (∀ j : Reg, j ≠ a → j ≠ 0 → m.reg j = s.arch.reg j) ∧
        (a ≠ 0 → m.reg 0 = s.arch.reg 0 + BitVec.ofNat s.W 2) ∧
        Arch.Kept { s.arch with bus := s.arch.bus ++ [.read addr.toNat s.cfg.wordBytes] } m ∧
        Arch.Counted { s.arch with draws := s.arch.draws + 1 } m)

/-! ### Exceptions -/

/-- A long instruction raises Illegal instruction (cause word 3) whatever its low byte; its length of 2 times 1 plus L bytes
shows in the continuation only (49_misc_and_long.md section 4; decisions D20, D26, D27 and D28 of the spec, log entry 18;
that the model stops with exceptions disabled is log entry 11, DEDUCED; that SR 5 takes no cycles across the trap is log
entry 5, DEDUCED and unsafe). -/
def Obligations.LongInstructionIsIllegal : Prop :=
  ∀ (s : State) (l : BitVec 4) (ext : BitVec 8), s.Raises (.long l ext) 3 (2 * (1 + l.toNat))

/-- Rule R120: the word 0x0000 is DEG; in every state, exceptions enabled or not, it clears bit 0 of SR 2 and keeps the
rest, saves its address plus 2 in SR 8, puts the new SR 2 into R0 and 1 into SR 9, is counted in SR 4, and writes no other
general register and no memory. What it does to SR 5 is stated by `GeneratorIsCounted`. -/
def Obligations.GeneratorEntersHandler : Prop :=
  decode 0x0000 = .ok .deg ∧
  ∀ s : State, ∃ m : Arch s.W, s.Completes .deg m ∧
    (m.sr2.getLsbD 0 = false ∧ ∀ k, 1 ≤ k → m.sr2.getLsbD k = s.arch.sr2.getLsbD k) ∧
    m.sr8 = s.arch.reg 0 + BitVec.ofNat s.W 2 ∧ m.reg 0 = m.sr2 ∧ m.sr9 = BitVec.ofNat s.W 1 ∧
    m.sr4 = s.arch.sr4 + BitVec.ofNat s.W 1 ∧
    (∀ j : Reg, j ≠ 0 → m.reg j = s.arch.reg j) ∧
    (∀ a, Memory.read m.mem a = Memory.read s.arch.mem a) ∧
    m.halted = s.arch.halted ∧ m.pending = s.arch.pending ∧ m.debugOut = s.arch.debugOut ∧ m.bus = s.arch.bus

/-- DEG retires like every instruction that completes, with exceptions enabled or not: SR 4 counts it and SR 5 takes its
cycles, a free amount (10_state.md section 2, the step; decisions D23 and D24 of the spec, log entry 5 for the draw). -/
def Obligations.GeneratorIsCounted : Prop :=
  ∀ s : State, ∃ m : Arch s.W, s.Completes .deg m ∧ s.arch.Counted m

/-- The one entry sequence writes SR 2 with bit 0 clear, SR 8, x[0] and SR 9 and nothing else, and every entry is that
sequence: the generator's, an exception's and an interrupt's (60_exceptions.md section 2). The continuation of an interrupt
is x[0] (decision D29 of the spec); its entry takes one draw of the model's own counter, for which device is served (log
entry 10, DESIGN CHOICE); the sequence adds no cycles to SR 5 (log entry 5, DEDUCED and unsafe). -/
def Obligations.TrapEntrySequence : Prop :=
  (∀ (W : Nat) (cause cont : BitVec W) (m : Arch W), m.Trapped cause cont (trapEntry cause cont m)) ∧
  (∀ (W : Nat) (k : Run W),
    (generateException k).arch = trapEntry (BitVec.ofNat W 1) (k.reg 0 + BitVec.ofNat W 2) k.arch) ∧
  (∀ (s : State) (len : Nat) (e : Exc), s.arch.exceptionsEnabled = true → ∃ cause cont,
    takeException s len e = .next { cfg := s.cfg, arch := trapEntry cause cont s.arch }) ∧
  (∀ (W : Nat) (m : Arch W), ∃ cause, takeInterrupt m = { trapEntry cause (m.reg 0) m with draws := m.draws + 1 })

/-- With exceptions enabled and a device requesting, the step of a running core executes nothing and enters the handler,
with the region address of one of the requesting devices as the cause and the program counter as the continuation; the
request stays (60_exceptions.md section 3; decisions D29 and D30 of the spec, log entries 9 and 10; that SR 5 takes no
cycles when an interrupt is taken is log entry 5, DEDUCED and unsafe). -/
def Obligations.InterruptAtBoundary : Prop :=
  ∀ s : State, s.arch.halted = false → s.InterruptTaken → ∃ d ∈ s.arch.pending, ∃ m : Arch s.W,
    s.StepsToArch m ∧ s.arch.Trapped d (s.arch.reg 0) m

/-- An instruction that completes is counted once in SR 4, unless it writes SR 4 itself; every other next state is a precise
trap: exceptions were enabled, the instruction is one of those that can raise, the handler was entered and nothing else
changed (10_state.md, 60_exceptions.md; decisions D23 and D34 of the spec; that SR 5 is among what a trap leaves unchanged
is log entry 5, DEDUCED and unsafe). -/
def Obligations.RetiredOrPreciselyTrapped : Prop :=
  ∀ (s : State) (i : Instr) (m : Arch s.W), s.Completes i m →
    m.sr4 = s.arch.sr4 + BitVec.ofNat s.W 1 ∨
    (∃ r, i = .srw r 4 ∧ m.sr4 = s.arch.reg r) ∨
    (s.arch.exceptionsEnabled = true ∧
      (∃ cause cont, (cause = BitVec.ofNat s.W 1 ∨ cause = BitVec.ofNat s.W 3) ∧ s.arch.Trapped cause cont m) ∧
      ((∃ d r, i = .mul d r ∨ i = .div d r ∨ i = .mod d r ∨ i = .mmul d r ∨ i = .mdiv d r ∨ i = .mmod d r) ∨
        (∃ d n, i = .muli d n ∨ i = .divi d n ∨ i = .modi d n) ∨ (∃ l x, i = .long l x)))

/-- The exception registers are written by SRW, each by its own number, and by the entry into the handler, and by nothing
else; the entry clears bit 0 of SR 2 and keeps the handler address, and puts 1 or 3 into SR 9 (10_state.md; decision D26 of
the spec for the cause words). -/
def Obligations.ExceptionRegisterWriters : Prop :=
  ∀ (s : State) (i : Instr) (m : Arch s.W), s.Completes i m →
    (m.sr2 = s.arch.sr2 ∧ m.sr8 = s.arch.sr8 ∧ m.sr9 = s.arch.sr9) ∨
    (∃ r, i = .srw r 2 ∧ m.sr2 = s.arch.reg r ∧ m.sr8 = s.arch.sr8 ∧ m.sr9 = s.arch.sr9) ∨
    (∃ r, i = .srw r 8 ∧ m.sr2 = s.arch.sr2 ∧ m.sr8 = s.arch.reg r ∧ m.sr9 = s.arch.sr9) ∨
    (∃ r, i = .srw r 9 ∧ m.sr2 = s.arch.sr2 ∧ m.sr8 = s.arch.sr8 ∧ m.sr9 = s.arch.reg r) ∨
    (m.sr2 = s.arch.sr2 &&& ~~~BitVec.ofNat s.W 1 ∧ m.reg 0 = m.sr2 ∧
      (m.sr9 = BitVec.ofNat s.W 1 ∨ m.sr9 = BitVec.ofNat s.W 3) ∧ ∀ r n, i ≠ .srw r n)

/-! ### The step -/

/-- When the bytes at the program counter of plain memory decode to an instruction, and the core is about to fetch, the step
is that instruction's execution at that state; a fetch from a device runs the word it got, in the state the fetch left
(10_state.md, the step; decision D1 of the spec). -/
def Obligations.StepRunsDecoded : Prop :=
  ∀ (s : State) (i : Instr), s.Fetching →
    (s.PlainAccess (s.arch.reg 0) 2 →
      decodeBytes s.cfg.byteOrder ((accessAddrs s.W (s.arch.reg 0).toNat 2).map (Memory.read s.arch.mem)) =
        .ok (i, []) → step s = exec i s) ∧
    (∀ w m, fetch s.cfg s.arch = .ok (w, m) → decode w = .ok i → step s = exec i { cfg := s.cfg, arch := m })

/-- An instruction placed where the step fetches is the one the very next step runs (20_memory.md section 3 and log
entry 4, how a program comes to run). -/
def Obligations.PlacedInstructionRuns : Prop :=
  ∀ (s : State) (i : Instr), s.Inv → s.Fetching → i.WellFormed → s.PlainAccess (s.arch.reg 0) 2 →
    step (s.withFetchWord 16 (encode i).toNat) = exec i (s.withFetchWord 16 (encode i).toNat)

/-- A word 0x0001 to 0x0FFF at the program counter raises Illegal instruction at the step: cause word 3, the continuation of
an instruction of 2 bytes, nothing else changed; with exceptions disabled the model stops (30_encoding.md section 5;
decisions D19, D26, D27 and D28 of the spec; that the model stops with exceptions disabled is log entry 11, DEDUCED; that SR
5 takes no cycles across the trap is log entry 5, DEDUCED and unsafe). -/
def Obligations.StepOnReservedWord : Prop :=
  ∀ (s : State) (w : IWord), s.Fetching → s.PlainAccess (s.arch.reg 0) 2 → 1 ≤ w.toNat → w.toNat ≤ 0x0FFF →
    (accessAddrs s.W (s.arch.reg 0).toNat 2).map (Memory.read s.arch.mem) = wordBytesOf s.cfg.byteOrder w →
    (s.arch.exceptionsEnabled = true → ∃ m : Arch s.W, s.StepsToArch m ∧
      s.arch.Trapped (BitVec.ofNat s.W 3)
        (if s.cfg.faultContinuation = .current then s.arch.reg 0 else s.arch.reg 0 + BitVec.ofNat s.W 2) m) ∧
    (s.arch.exceptionsEnabled = false → step s = .fault .exceptionWhileDisabled)

/-- A fetch from an odd address stops the model, and so does one from an even address that touches an unmapped byte
(10_state.md, 20_memory.md; decisions D4 and D5 of the spec, log entry 11). -/
def Obligations.FetchFaults : Prop :=
  ∀ s : State, s.Fetching →
    ((s.arch.reg 0).toNat % 2 = 1 → step s = .fault .misalignedFetch) ∧
    ((s.arch.reg 0).toNat % 2 = 0 → accessKind s.cfg (accessAddrs s.W (s.arch.reg 0).toNat 2) = .nothing →
      step s = .fault .unmappedAccess)

/-- An instruction fetch from a device region is a device read of two bytes: its word is a free value, the read is recorded
with its address and size, one draw is used and nothing else changes; the step then runs that word, or raises Illegal
instruction for a reserved one, in the state the fetch left (20_memory.md sections 3 to 5; 10_state.md section 2, the step;
decisions D5 and D6 of the spec; that the word is a free value and the read is recorded in `bus` is the model's choice, log
entry 7, DESIGN CHOICE, and that an access over device and plain bytes is a device access is log entry 8, DESIGN CHOICE). -/
def Obligations.DeviceFetch : Prop :=
  ∀ (s : State) (w : IWord) (m : Arch s.W), (s.arch.reg 0).toNat % 2 = 0 →
    accessKind s.cfg (accessAddrs s.W (s.arch.reg 0).toNat 2) = .device →
    w = BitVec.ofNat 16 (Config.deviceValue s.arch.draws % 2 ^ 16) →
    m = { s.arch with bus := s.arch.bus ++ [.read (s.arch.reg 0).toNat 2], draws := s.arch.draws + 1 } →
    fetch s.cfg s.arch = .ok (w, m) ∧
    (s.Fetching →
      (∃ i, decode w = .ok i ∧ step s = exec i { cfg := s.cfg, arch := m }) ∨
      (decode w = .error (.reserved w) ∧
        step s = takeException { cfg := s.cfg, arch := m } 2 .illegalInstruction))

/-! ### Memory -/

/-- A data read of plain memory assembles the bytes at its addresses, modulo 2^W, in the machine's byte order, and changes
nothing (20_memory.md section 3; decision D3 of the spec). -/
def Obligations.LoadedWordBytes : Prop :=
  ∀ (s : State) (a : BitVec s.W), s.PlainAccess a s.cfg.wordBytes →
    ∃ v : BitVec s.W, loadWord s.cfg a s.arch = .ok (v, s.arch) ∧ ∀ i, i < s.cfg.wordBytes →
      (s.cfg.byteOrder = .little →
        v.extractLsb' (8 * i) 8 = Memory.read s.arch.mem ((a.toNat + i) % 2 ^ s.W)) ∧
      (s.cfg.byteOrder = .big →
        v.extractLsb' (8 * (s.cfg.wordBytes - 1 - i)) 8 = Memory.read s.arch.mem ((a.toNat + i) % 2 ^ s.W))

/-- A data write of plain memory puts the word's bytes at its addresses, modulo 2^W, in the machine's byte order; every other
byte is as before, and the word reads back (20_memory.md section 3; decision D3 of the spec). -/
def Obligations.StoredWordBytes : Prop :=
  ∀ (s : State) (a v : BitVec s.W), s.Inv → s.PlainAccess a s.cfg.wordBytes →
    ∃ m : Arch s.W, storeWord s.cfg a v s.arch = .ok m ∧ loadWord s.cfg a m = .ok (v, m) ∧
      (∀ i, i < s.cfg.wordBytes →
        (s.cfg.byteOrder = .little →
          Memory.read m.mem ((a.toNat + i) % 2 ^ s.W) = v.extractLsb' (8 * i) 8) ∧
        (s.cfg.byteOrder = .big →
          Memory.read m.mem ((a.toNat + i) % 2 ^ s.W) = v.extractLsb' (8 * (s.cfg.wordBytes - 1 - i)) 8)) ∧
      (∀ x, x ∉ accessAddrs s.W a.toNat s.cfg.wordBytes → Memory.read m.mem x = Memory.read s.arch.mem x)

/-- A stored word is seen by the very next fetch: the instruction 2k bytes into it is its bits from 16k up, little-endian, or
its bits from the top down, big-endian (20_memory.md, mixed widths and fetch coherence; decisions D3 and D6 of the spec). -/
def Obligations.StoreThenFetch : Prop :=
  ∀ (s : State) (a v : BitVec s.W) (m : Arch s.W) (k : Nat), s.Inv → s.PlainAccess a s.cfg.wordBytes →
    storeWord s.cfg a v s.arch = .ok m → 2 * k + 2 ≤ s.cfg.wordBytes →
    (a + BitVec.ofNat s.W (2 * k)).toNat % 2 = 0 →
    ∃ w m', fetch s.cfg (m.setReg 0 (a + BitVec.ofNat s.W (2 * k))) = .ok (w, m') ∧
      (s.cfg.byteOrder = .little → w = v.extractLsb' (16 * k) 16) ∧
      (s.cfg.byteOrder = .big → w = v.extractLsb' (s.W - 16 * (k + 1)) 16)

/-- Only a data transfer with an indirect destination changes a byte of memory, and only it, a transfer with an indirect
source and LDOFF access a device (20_memory.md, which instructions touch memory). -/
def Obligations.OnlyTransfersStore : Prop :=
  ∀ (s : State) (i : Instr) (m : Arch s.W), s.Completes i m →
    (∃ dst src, i = .xf dst src ∧ dst.indirect = true) ∨
    ((∀ a, Memory.read m.mem a = Memory.read s.arch.mem a) ∧
      (m.bus = s.arch.bus ∨ (∃ dst src, i = .xf dst src ∧ src.indirect = true) ∨ (∃ a imm, i = .ldoff a imm)))

/-! ### Invariants -/

/-- Every step keeps the invariant: the configuration stays one that 00_scope.md allows, memory stays in canonical form
within the address space, and the requests stay those of devices. -/
def Obligations.StepKeepsInvariant : Prop :=
  ∀ s t : State, s.Inv → step s = .next t → t.Inv

/-- The state after reset meets the invariant, in the reference configuration and in every one that 00_scope.md allows, with
any image the platform supplies (70_reset_and_hazards.md section 1; decision D33 of the spec). -/
def Obligations.ResetMeetsInvariant : Prop :=
  State.reset.Inv ∧ ∀ (c : Config) (image : List Host.Cell), c.WellFormed → Memory.wf image →
    (∀ x ∈ image, x.1 < 2 ^ c.wordBits) → (State.resetOf c image).Inv

/-- The platform's image is the memory after reset: a byte it covers reads as the image has it, and one it does not cover as
a free value (70_reset_and_hazards.md section 1; decision D33 of the spec; the free value is log entry 3, DESIGN CHOICE).
Bytes placed from an address on, any number of them, read back, every other byte is as before, and nothing but memory
changes (log entry 4, DEDUCED). -/
def Obligations.PlatformImage : Prop :=
  (∀ (c : Config) (image : List Host.Cell), (State.resetOf c image).arch.mem = image) ∧
  (∀ (image : List Host.Cell) (a : Nat) (b : Byte), Memory.wf image → (a, b) ∈ image → Memory.read image a = b) ∧
  (∀ (image : List Host.Cell) (a : Nat), a ∉ image.map Prod.fst → Memory.read image a = Config.unwrittenByte a) ∧
  (∀ (s : State) (base : Nat) (bs : List Byte), s.Inv → bs.length ≤ 2 ^ s.W → (s.withBytes base bs).Inv ∧
    ∃ mem : List Host.Cell, s.withBytes base bs = { cfg := s.cfg, arch := { s.arch with mem := mem } } ∧
      (accessAddrs s.W base bs.length).map (Memory.read mem) = bs ∧
      ∀ x, x ∉ accessAddrs s.W base bs.length → Memory.read mem x = Memory.read s.arch.mem x)

/-- Every run, of any length and from any state that meets the invariant, ends in one that meets it. -/
def Obligations.RunsKeepInvariant : Prop :=
  ∀ (n : Nat) (s t : State), s.Inv → Host.Core.run Sys2Proof.core n s = .next t → t.Inv

/-- No step changes the configuration or the requests: only the platform does (00_scope.md; 10_state.md; decision D29 of the
spec, log entries 1 and 9). -/
def Obligations.StepKeepsPlatform : Prop :=
  ∀ s t : State, step s = .next t → ∃ m : Arch s.W, t = { cfg := s.cfg, arch := m } ∧ m.pending = s.arch.pending

/-- After reset of any configuration, with any image: the program counter is RESET_PC, exceptions are disabled, SR 4 and SR
5 are 0, the core runs, nothing requests and the debug output stream is empty (10_state.md, the reset table; decisions D25
and D32 of the spec; the values the spec leaves unspecified are log entry 2 and are not stated here). -/
def Obligations.ResetState : Prop :=
  ∀ (c : Config) (image : List Host.Cell), ∃ m : Arch c.wordBits, State.resetOf c image = { cfg := c, arch := m } ∧
    m.reg 0 = BitVec.ofNat c.wordBits c.resetPc ∧ m.exceptionsEnabled = false ∧ m.sr4 = 0 ∧ m.sr5 = 0 ∧
    m.halted = false ∧ m.pending = [] ∧ m.debugOut = []

/-- The debug output stream only grows, by at most one byte, and only by SRW of SR 10 with the low byte of its register
(10_state.md; decision D25 of the spec). -/
def Obligations.DebugStreamAppendOnly : Prop :=
  ∀ (s : State) (i : Instr) (m : Arch s.W), s.Completes i m →
    m.debugOut = s.arch.debugOut ∨
    (∃ r, i = .srw r 10 ∧ m.debugOut = s.arch.debugOut ++ [BitVec.ofNat 8 ((s.arch.reg r).toNat % 256)])

/-- With exceptions disabled no step depends on the requests, and no step, with exceptions disabled or enabled, depends on
what the debug output stream already holds: two machines that differ only in an earlier part of the stream, and in the
requests only while exceptions are disabled, step alike and differ only in these after the step (10_state.md,
60_exceptions.md; decisions D25 and D29 of the spec). -/
def Obligations.MaskedRequestsAndDebugUnseen : Prop :=
  ∀ (s : State) (requests : List (BitVec s.W)) (earlier : List Byte),
    s.arch.exceptionsEnabled = false ∨ requests = s.arch.pending →
    (∀ m : Arch s.W, step s = .next { cfg := s.cfg, arch := m } →
      step (s.overlay requests earlier) = .next (State.overlay { cfg := s.cfg, arch := m } requests earlier)) ∧
    (∀ f, step s = .fault f → step (s.overlay requests earlier) = .fault f)
end

