-- ==== Sys2Proof/Laws/State.lean ====
section
/-!
SUPPORT. One lemma per field per update of the state, true by rfl, and what a register reads as after a register write.
-/

namespace Sys2Proof.Machine

section ArchFields
variable {W : Nat} (m : Arch W) (r : Reg) (v : BitVec W)

@[simp] theorem Arch.setReg_sr2 : (m.setReg r v).sr2 = m.sr2 := rfl
@[simp] theorem Arch.setReg_sr4 : (m.setReg r v).sr4 = m.sr4 := rfl
@[simp] theorem Arch.setReg_sr5 : (m.setReg r v).sr5 = m.sr5 := rfl
@[simp] theorem Arch.setReg_sr8 : (m.setReg r v).sr8 = m.sr8 := rfl
@[simp] theorem Arch.setReg_sr9 : (m.setReg r v).sr9 = m.sr9 := rfl
@[simp] theorem Arch.setReg_halted : (m.setReg r v).halted = m.halted := rfl
@[simp] theorem Arch.setReg_pending : (m.setReg r v).pending = m.pending := rfl
@[simp] theorem Arch.setReg_debugOut : (m.setReg r v).debugOut = m.debugOut := rfl
@[simp] theorem Arch.setReg_mem : (m.setReg r v).mem = m.mem := rfl
@[simp] theorem Arch.setReg_bus : (m.setReg r v).bus = m.bus := rfl
@[simp] theorem Arch.setReg_draws : (m.setReg r v).draws = m.draws := rfl

/-- A register reads as written, and every other as before. -/
theorem Arch.reg_setReg (j : Reg) : (m.setReg r v).reg j = if r = j then v else m.reg j := by
  simp only [Arch.setReg, Arch.reg, Vector.getElem_set, Fin.val_inj]

@[simp] theorem Arch.reg_setReg_self : (m.setReg r v).reg r = v := by simp [Arch.reg_setReg]

theorem Arch.reg_setReg_ne {j : Reg} (h : r ≠ j) : (m.setReg r v).reg j = m.reg j := by
  simp [Arch.reg_setReg, h]

/-- Writing a register with its own value changes nothing. -/
@[simp] theorem Arch.setReg_reg_self : m.setReg r (m.reg r) = m := by
  cases m; simp [Arch.setReg, Arch.reg]

end ArchFields

section ArchUpdates
variable {W : Nat} (m : Arch W) (j : Reg)

@[simp] theorem Arch.reg_with_sr2 (v : BitVec W) : Arch.reg { m with sr2 := v } j = m.reg j := rfl
@[simp] theorem Arch.reg_with_sr4 (v : BitVec W) : Arch.reg { m with sr4 := v } j = m.reg j := rfl
@[simp] theorem Arch.reg_with_sr5 (v : BitVec W) : Arch.reg { m with sr5 := v } j = m.reg j := rfl
@[simp] theorem Arch.reg_with_sr8 (v : BitVec W) : Arch.reg { m with sr8 := v } j = m.reg j := rfl
@[simp] theorem Arch.reg_with_sr9 (v : BitVec W) : Arch.reg { m with sr9 := v } j = m.reg j := rfl
@[simp] theorem Arch.reg_with_halted (b : Bool) : Arch.reg { m with halted := b } j = m.reg j := rfl
@[simp] theorem Arch.reg_with_debugOut (l : List Byte) : Arch.reg { m with debugOut := l } j = m.reg j := rfl
@[simp] theorem Arch.reg_with_mem (l : List Host.Cell) : Arch.reg { m with mem := l } j = m.reg j := rfl
@[simp] theorem Arch.reg_with_bus (l : List DeviceAccess) : Arch.reg { m with bus := l } j = m.reg j := rfl
@[simp] theorem Arch.reg_with_draws (n : Nat) : Arch.reg { m with draws := n } j = m.reg j := rfl
@[simp] theorem Arch.reg_with_bus_draws (l : List DeviceAccess) (n : Nat) :
    Arch.reg { m with bus := l, draws := n } j = m.reg j := rfl
@[simp] theorem Arch.reg_with_counters (v w : BitVec W) (n : Nat) :
    Arch.reg { m with sr4 := v, sr5 := w, draws := n } j = m.reg j := rfl
@[simp] theorem Arch.reg_with_trap (u v w : BitVec W) :
    Arch.reg { m with sr2 := u, sr8 := v, sr9 := w } j = m.reg j := rfl

end ArchUpdates

section RunFields
variable {W : Nat} (k : Run W) (m : Arch W) (r : Reg) (v : BitVec W)

@[simp] theorem Run.start_arch : (Run.start m).arch = m := rfl
@[simp] theorem Run.start_pcWritten : (Run.start m).pcWritten = false := rfl
@[simp] theorem Run.start_sr4Written : (Run.start m).sr4Written = false := rfl
@[simp] theorem Run.start_reg : (Run.start m).reg r = m.reg r := rfl
@[simp] theorem Run.setReg_arch : (k.setReg r v).arch = k.arch.setReg r v := rfl
@[simp] theorem Run.setReg_pcWritten : (k.setReg r v).pcWritten = (k.pcWritten || decide (r = 0)) := rfl
@[simp] theorem Run.setReg_sr4Written : (k.setReg r v).sr4Written = k.sr4Written := rfl
@[simp] theorem Run.setRetired_arch : (k.setRetired v).arch = { k.arch with sr4 := v } := rfl
@[simp] theorem Run.setRetired_pcWritten : (k.setRetired v).pcWritten = k.pcWritten := rfl
@[simp] theorem Run.setRetired_sr4Written : (k.setRetired v).sr4Written = true := rfl

theorem Run.reg_eq : k.reg r = k.arch.reg r := rfl

/-- A register reads as written, and every other as before, inside a pseudocode. -/
theorem Run.reg_setReg (j : Reg) : (k.setReg r v).reg j = if r = j then v else k.reg j :=
  Arch.reg_setReg k.arch r v j

@[simp] theorem Run.reg_setReg_self : (k.setReg r v).reg r = v := by simp [Run.reg_setReg]

end RunFields

section TrapFields
variable {W : Nat} (cause cont : BitVec W) (m : Arch W)

@[simp] theorem trapEntry_sr2 : (trapEntry cause cont m).sr2 = m.sr2 &&& ~~~BitVec.ofNat W 1 := rfl
@[simp] theorem trapEntry_sr4 : (trapEntry cause cont m).sr4 = m.sr4 := rfl
@[simp] theorem trapEntry_sr5 : (trapEntry cause cont m).sr5 = m.sr5 := rfl
@[simp] theorem trapEntry_sr8 : (trapEntry cause cont m).sr8 = cont := rfl
@[simp] theorem trapEntry_sr9 : (trapEntry cause cont m).sr9 = cause := rfl
@[simp] theorem trapEntry_halted : (trapEntry cause cont m).halted = m.halted := rfl
@[simp] theorem trapEntry_pending : (trapEntry cause cont m).pending = m.pending := rfl
@[simp] theorem trapEntry_debugOut : (trapEntry cause cont m).debugOut = m.debugOut := rfl
@[simp] theorem trapEntry_mem : (trapEntry cause cont m).mem = m.mem := rfl
@[simp] theorem trapEntry_bus : (trapEntry cause cont m).bus = m.bus := rfl
@[simp] theorem trapEntry_draws : (trapEntry cause cont m).draws = m.draws := rfl

/-- The trap entry writes no register but the program counter, which receives the handler address. -/
theorem trapEntry_reg (j : Reg) :
    (trapEntry cause cont m).reg j = if j = 0 then m.sr2 &&& ~~~BitVec.ofNat W 1 else m.reg j := by
  rw [trapEntry, Arch.reg_with_trap, Arch.reg_setReg]; simp only [eq_comm]

end TrapFields

section RetireFields
variable {W : Nat} (k : Run W)

@[simp] theorem retire_sr2 : (retire k).sr2 = k.arch.sr2 := by unfold retire; split <;> rfl
@[simp] theorem retire_sr8 : (retire k).sr8 = k.arch.sr8 := by unfold retire; split <;> rfl
@[simp] theorem retire_sr9 : (retire k).sr9 = k.arch.sr9 := by unfold retire; split <;> rfl
@[simp] theorem retire_halted : (retire k).halted = k.arch.halted := by unfold retire; split <;> rfl
@[simp] theorem retire_pending : (retire k).pending = k.arch.pending := by unfold retire; split <;> rfl
@[simp] theorem retire_debugOut : (retire k).debugOut = k.arch.debugOut := by unfold retire; split <;> rfl
@[simp] theorem retire_mem : (retire k).mem = k.arch.mem := by unfold retire; split <;> rfl
@[simp] theorem retire_bus : (retire k).bus = k.arch.bus := by unfold retire; split <;> rfl
@[simp] theorem retire_draws : (retire k).draws = k.arch.draws + 1 := by unfold retire; split <;> rfl

@[simp] theorem retire_sr4 :
    (retire k).sr4 = if k.sr4Written then k.arch.sr4 else k.arch.sr4 + BitVec.ofNat W 1 := by
  unfold retire; split <;> rfl

@[simp] theorem retire_sr5 :
    (retire k).sr5 = k.arch.sr5 + BitVec.ofNat W (Config.cycles k.arch.draws) := by
  unfold retire; split <;> rfl

/-- The registers after the end of an instruction: the advance of the program counter unless it was written. -/
theorem retire_reg (j : Reg) :
    (retire k).reg j =
      if j = 0 ∧ k.pcWritten = false then k.arch.reg 0 + BitVec.ofNat W 2 else k.arch.reg j := by
  have h : (retire k).reg j =
      (if k.pcWritten then k.arch else k.arch.setReg 0 (k.arch.reg 0 + BitVec.ofNat W 2)).reg j := rfl
  rw [h]
  cases k.pcWritten
  · simp [Arch.reg_setReg, eq_comm]
  · simp

/-- Any register but the program counter is as the pseudocode left it. -/
theorem retire_reg_ne {j : Reg} (h : j ≠ 0) : (retire k).reg j = k.arch.reg j := by
  simp [retire_reg, h]

end RetireFields

section ResetFields
variable (W pc : Nat) (image : List Host.Cell)

@[simp] theorem Arch.reset_reg_zero : (Arch.reset W pc image).reg 0 = BitVec.ofNat W pc := rfl
@[simp] theorem Arch.reset_sr2 : (Arch.reset W pc image).sr2 = 0#W := rfl
@[simp] theorem Arch.reset_sr4 : (Arch.reset W pc image).sr4 = 0#W := rfl
@[simp] theorem Arch.reset_sr5 : (Arch.reset W pc image).sr5 = 0#W := rfl
@[simp] theorem Arch.reset_halted : (Arch.reset W pc image).halted = false := rfl
@[simp] theorem Arch.reset_pending : (Arch.reset W pc image).pending = [] := rfl
@[simp] theorem Arch.reset_debugOut : (Arch.reset W pc image).debugOut = [] := rfl
@[simp] theorem Arch.reset_mem : (Arch.reset W pc image).mem = image := rfl

end ResetFields

section PlacedFields
variable (s : State) (base : Nat) (bs : List Byte)

@[simp] theorem State.withBytes_cfg : (s.withBytes base bs).cfg = s.cfg := rfl
@[simp] theorem State.withBytes_arch : (s.withBytes base bs).arch =
    { s.arch with mem := Memory.writeAll s.arch.mem (accessAddrs s.W base bs.length) bs } := rfl

end PlacedFields

end Sys2Proof.Machine
end

