-- ==== Sys2Proof/Laws/Memory.lean ====
section
/-!
SUPPORT. Memory: what a byte reads as after a write, that every memory operation keeps the canonical form, and what the
access primitives can do.
-/

namespace Sys2Proof.Machine

/-- An address no entry lists reads as the free value. -/
theorem Memory.read_of_not_mem {m : List Host.Cell} {a : Nat} (h : a ∉ m.map Prod.fst) :
    Memory.read m a = Config.unwrittenByte a := by
  induction m with
  | nil => rfl
  | cons c rest ih =>
    obtain ⟨k, b⟩ := c
    simp only [List.map_cons, List.mem_cons, not_or] at h
    rw [Memory.read, if_neg (Ne.symm h.1), ih h.2]

/-- A byte reads as written, and every other as before. -/
theorem Memory.read_write (m : List Host.Cell) (a a' : Nat) (v : Byte) :
    Memory.read (Memory.write m a v) a' = if a = a' then v else Memory.read m a' := by
  induction m with
  | nil => rfl
  | cons c rest ih =>
    obtain ⟨k, b⟩ := c
    unfold Memory.write
    split
    · rfl
    · split
      · rename_i _ hk; subst hk
        by_cases he : a = a' <;> simp [Memory.read, he]
      · rename_i _ hne
        simp only [Memory.read, ih]
        by_cases hk : k = a'
        · subst hk; simp [hne]
        · simp [hk]

/-- Every entry after a write is the written byte or was there before. -/
theorem Memory.mem_write {m : List Host.Cell} {a : Nat} {v : Byte} {c : Host.Cell} (h : c ∈ Memory.write m a v) :
    c = (a, v) ∨ c ∈ m := by
  induction m with
  | nil => simpa [Memory.write] using h
  | cons d rest ih =>
    obtain ⟨k, b⟩ := d
    unfold Memory.write at h
    split at h
    · exact List.mem_cons.mp h
    · split at h
      · exact (List.mem_cons.mp h).imp_right (List.mem_cons_of_mem _)
      · rcases List.mem_cons.mp h with rfl | h
        · exact .inr (by simp)
        · exact (ih h).imp_right (List.mem_cons_of_mem _)

/-- A write keeps the canonical form. -/
theorem Memory.write_wf {m : List Host.Cell} (hm : Memory.wf m) (a : Nat) (v : Byte) : Memory.wf (Memory.write m a v) := by
  induction m with
  | nil => simp [Memory.write]
  | cons d rest ih =>
    obtain ⟨k, b⟩ := d
    obtain ⟨hk, hr⟩ := List.pairwise_cons.mp hm
    unfold Memory.write
    split
    · rename_i hlt
      refine List.pairwise_cons.mpr ⟨fun c hc => ?_, hm⟩
      rcases List.mem_cons.mp hc with rfl | hc
      · exact hlt
      · exact lt_trans hlt (hk c hc)
    · split
      · rename_i _ he; subst he
        exact List.pairwise_cons.mpr ⟨hk, hr⟩
      · refine List.pairwise_cons.mpr ⟨fun c hc => ?_, ih hr⟩
        rcases Memory.mem_write hc with rfl | hc
        · simp only; omega
        · exact hk c hc

/-- Writing several bytes keeps the canonical form. -/
theorem Memory.writeAll_wf {m : List Host.Cell} (hm : Memory.wf m) (as : List Nat) (vs : List Byte) :
    Memory.wf (Memory.writeAll m as vs) := by
  induction as generalizing m vs with
  | nil => simpa [Memory.writeAll] using hm
  | cons a as ih =>
    cases vs with
    | nil => simpa [Memory.writeAll] using hm
    | cons v vs => exact ih (Memory.write_wf hm a v) vs

/-- Every entry after writing several bytes is at one of their addresses or was there before. -/
theorem Memory.mem_writeAll {m : List Host.Cell} {as : List Nat} {vs : List Byte} {c : Host.Cell}
    (h : c ∈ Memory.writeAll m as vs) : c.1 ∈ as ∨ c ∈ m := by
  induction as generalizing m vs with
  | nil => exact .inr (by simpa [Memory.writeAll] using h)
  | cons a as ih =>
    cases vs with
    | nil => exact .inr (by simpa [Memory.writeAll] using h)
    | cons v vs =>
      rcases ih h with h | h
      · exact .inl (by simp [h])
      · rcases Memory.mem_write h with rfl | h
        · exact .inl (by simp)
        · exact .inr h

/-- A byte that is not among those written reads as before. -/
theorem Memory.read_writeAll_of_not_mem {m : List Host.Cell} {as : List Nat} {vs : List Byte} {x : Nat}
    (h : x ∉ as) : Memory.read (Memory.writeAll m as vs) x = Memory.read m x := by
  induction as generalizing m vs with
  | nil => rfl
  | cons a as ih =>
    cases vs with
    | nil => rfl
    | cons v vs =>
      rw [List.mem_cons, not_or] at h
      rw [Memory.writeAll, ih h.2, Memory.read_write, if_neg (Ne.symm h.1)]

/-- The bytes written read back, when their addresses differ. -/
theorem Memory.map_read_writeAll {m : List Host.Cell} {as : List Nat} {vs : List Byte}
    (hd : as.Nodup) (hl : as.length = vs.length) : as.map (Memory.read (Memory.writeAll m as vs)) = vs := by
  induction as generalizing m vs with
  | nil => cases vs <;> simp_all
  | cons a as ih =>
    cases vs with
    | nil => simp at hl
    | cons v vs =>
      rw [List.nodup_cons] at hd
      simp only [List.length_cons, Nat.add_right_cancel_iff] at hl
      rw [List.map_cons, Memory.writeAll, Memory.read_writeAll_of_not_mem hd.1, Memory.read_write, if_pos rfl, ih hd.2 hl]

/-- Every byte of an access lies in the address space. -/
theorem accessAddrs_lt {W a n x : Nat} (h : x ∈ accessAddrs W a n) : x < 2 ^ W := by
  simp only [accessAddrs, List.mem_map] at h
  obtain ⟨i, -, rfl⟩ := h
  exact Nat.mod_lt _ (Nat.two_pow_pos W)

@[simp] theorem accessAddrs_length (W a n : Nat) : (accessAddrs W a n).length = n := by simp [accessAddrs]

/-- The bytes of an access no wider than the address space are at different addresses. -/
theorem accessAddrs_nodup {W a n : Nat} (h : n ≤ 2 ^ W) : (accessAddrs W a n).Nodup := by
  refine List.Nodup.map_on (fun i hi j hj hij => ?_) List.nodup_range
  rw [List.mem_range] at hi hj
  have h1 : i ≡ j [MOD 2 ^ W] := Nat.ModEq.add_left_cancel' a hij
  have hi' : i % 2 ^ W = i := Nat.mod_eq_of_lt (lt_of_lt_of_le hi h)
  have hj' : j % 2 ^ W = j := Nat.mod_eq_of_lt (lt_of_lt_of_le hj h)
  have h2 : i % 2 ^ W = j % 2 ^ W := h1
  omega

@[simp] theorem bytesOfNat_length (n v : Nat) : (bytesOfNat n v).length = n := by
  induction n generalizing v with
  | zero => rfl
  | succ n ih => simp [bytesOfNat, ih]

@[simp] theorem arrange_length (o : ByteOrder) (bs : List Byte) : (o.arrange bs).length = bs.length := by
  cases o <;> simp [ByteOrder.arrange]

@[simp] theorem arrange_arrange (o : ByteOrder) (bs : List Byte) : o.arrange (o.arrange bs) = bs := by
  cases o <;> simp [ByteOrder.arrange]

/-- The bytes of a number stand for it, modulo their width. -/
theorem natOfBytes_bytesOfNat (n v : Nat) : natOfBytes (bytesOfNat n v) = v % 256 ^ n := by
  induction n generalizing v with
  | zero => simp [bytesOfNat, natOfBytes, Nat.mod_one]
  | succ n ih =>
    simp only [bytesOfNat, natOfBytes, ih, BitVec.toNat_ofNat]
    have h : v % 256 ^ (n + 1) = v % 256 + 256 * (v / 256 % 256 ^ n) := by
      rw [Nat.pow_succ, Nat.mul_comm (256 ^ n) 256, Nat.mod_mul]
    rw [h]

/-- Bytes stand for a number below 2 to their width. -/
theorem natOfBytes_lt (bs : List Byte) : natOfBytes bs < 256 ^ bs.length := by
  induction bs with
  | nil => simp [natOfBytes]
  | cons b bs ih =>
    have hb : b.toNat < 256 := b.isLt
    simp only [natOfBytes, List.length_cons, Nat.pow_succ]
    omega

/-- Everything `MemRead` can do: an aligned read of plain memory changes nothing; an aligned read of a device gives a free
value, is recorded and uses a draw; anything else is a fault. -/
theorem memRead_ok {W : Nat} {c : Config} {n : Nat} {f : Fault} {a : BitVec W} {m m' : Arch W} {v : Nat}
    (h : memRead c n f a m = .ok (v, m')) :
    a.toNat % n = 0 ∧
      ((accessKind c (accessAddrs W a.toNat n) = .plain ∧ m' = m ∧
          v = natOfBytes (c.byteOrder.arrange ((accessAddrs W a.toNat n).map (Memory.read m.mem)))) ∨
        (accessKind c (accessAddrs W a.toNat n) = .device ∧
          m' = { m with bus := m.bus ++ [.read a.toNat n], draws := m.draws + 1 } ∧
          v = Config.deviceValue m.draws % 2 ^ (8 * n))) := by
  unfold memRead at h
  split at h
  · cases h
  · rename_i ha
    refine ⟨by simpa using ha, ?_⟩
    split at h <;> rename_i hk <;> cases h
    · exact .inr ⟨hk, rfl, rfl⟩
    · exact .inl ⟨hk, rfl, rfl⟩

/-- The read of plain memory that is aligned succeeds. -/
theorem memRead_plain {W : Nat} {c : Config} {n : Nat} {f : Fault} {a : BitVec W} {m : Arch W}
    (ha : a.toNat % n = 0) (hk : accessKind c (accessAddrs W a.toNat n) = .plain) :
    memRead c n f a m =
      .ok (natOfBytes (c.byteOrder.arrange ((accessAddrs W a.toNat n).map (Memory.read m.mem))), m) := by
  simp [memRead, ha, hk]

/-- Everything a word load can do. -/
theorem loadWord_ok {W : Nat} {c : Config} {a v : BitVec W} {m m' : Arch W} (h : loadWord c a m = .ok (v, m')) :
    a.toNat % c.wordBytes = 0 ∧
      ((accessKind c (accessAddrs W a.toNat c.wordBytes) = .plain ∧ m' = m ∧
          v = BitVec.ofNat W (natOfBytes
            (c.byteOrder.arrange ((accessAddrs W a.toNat c.wordBytes).map (Memory.read m.mem))))) ∨
        (accessKind c (accessAddrs W a.toNat c.wordBytes) = .device ∧
          m' = { m with bus := m.bus ++ [.read a.toNat c.wordBytes], draws := m.draws + 1 } ∧
          v = BitVec.ofNat W (Config.deviceValue m.draws % 2 ^ (8 * c.wordBytes)))) := by
  unfold loadWord at h
  split at h
  · cases h
  · rename_i u m1 hr
    cases h
    obtain ⟨ha, ⟨hk, h1, h2⟩ | ⟨hk, h1, h2⟩⟩ := memRead_ok hr
    · exact ⟨ha, .inl ⟨hk, h1, by rw [h2]⟩⟩
    · exact ⟨ha, .inr ⟨hk, h1, by rw [h2]⟩⟩

/-- The load of a word of plain memory that is aligned succeeds. -/
theorem loadWord_plain {W : Nat} {c : Config} {a : BitVec W} {m : Arch W} (ha : a.toNat % c.wordBytes = 0)
    (hk : accessKind c (accessAddrs W a.toNat c.wordBytes) = .plain) :
    loadWord c a m =
      .ok (BitVec.ofNat W (natOfBytes
        (c.byteOrder.arrange ((accessAddrs W a.toNat c.wordBytes).map (Memory.read m.mem)))), m) := by
  simp [loadWord, memRead_plain ha hk]

/-- Everything a word store can do: write the word's bytes to plain memory, or record the store to a device. -/
theorem storeWord_ok {W : Nat} {c : Config} {a v : BitVec W} {m m' : Arch W} (h : storeWord c a v m = .ok m') :
    a.toNat % c.wordBytes = 0 ∧
      ((accessKind c (accessAddrs W a.toNat c.wordBytes) = .plain ∧
          m' = { m with
            mem := Memory.writeAll m.mem (accessAddrs W a.toNat c.wordBytes)
              (c.byteOrder.arrange (bytesOfNat c.wordBytes v.toNat)) }) ∨
        (accessKind c (accessAddrs W a.toNat c.wordBytes) = .device ∧
          m' = { m with bus := m.bus ++ [.write a.toNat c.wordBytes v.toNat] })) := by
  unfold storeWord at h
  split at h
  · cases h
  · rename_i ha
    refine ⟨by simpa using ha, ?_⟩
    split at h <;> rename_i hk <;> cases h
    · exact .inr ⟨hk, rfl⟩
    · exact .inl ⟨hk, rfl⟩

/-- The store of a word to plain memory that is aligned succeeds. -/
theorem storeWord_plain {W : Nat} {c : Config} {a v : BitVec W} {m : Arch W} (ha : a.toNat % c.wordBytes = 0)
    (hk : accessKind c (accessAddrs W a.toNat c.wordBytes) = .plain) :
    storeWord c a v m =
      .ok { m with
        mem := Memory.writeAll m.mem (accessAddrs W a.toNat c.wordBytes)
          (c.byteOrder.arrange (bytesOfNat c.wordBytes v.toNat)) } := by
  simp [storeWord, ha, hk]

/-- Everything a fetch can do. -/
theorem fetch_ok {W : Nat} {c : Config} {m m' : Arch W} {w : IWord} (h : fetch c m = .ok (w, m')) :
    (m.reg 0).toNat % 2 = 0 ∧
      (m' = m ∨ m' = { m with bus := m.bus ++ [.read (m.reg 0).toNat 2], draws := m.draws + 1 }) := by
  unfold fetch at h
  split at h
  · cases h
  · rename_i u m1 hr
    cases h
    obtain ⟨ha, ⟨-, h1, -⟩ | ⟨-, h1, -⟩⟩ := memRead_ok hr
    · exact ⟨ha, .inl h1⟩
    · exact ⟨ha, .inr h1⟩

/-- A load keeps memory as it is. -/
theorem loadWord_mem {W : Nat} {c : Config} {a v : BitVec W} {m m' : Arch W} (h : loadWord c a m = .ok (v, m')) :
    m'.mem = m.mem := by
  obtain ⟨-, ⟨-, rfl, -⟩ | ⟨-, rfl, -⟩⟩ := loadWord_ok h <;> rfl

/-- A fetch keeps memory as it is. -/
theorem fetch_mem {W : Nat} {c : Config} {m m' : Arch W} {w : IWord} (h : fetch c m = .ok (w, m')) : m'.mem = m.mem := by
  obtain ⟨-, rfl | rfl⟩ := fetch_ok h <;> rfl

/-- A store keeps the canonical form. -/
theorem storeWord_wf {W : Nat} {c : Config} {a v : BitVec W} {m m' : Arch W} (hm : Memory.wf m.mem)
    (h : storeWord c a v m = .ok m') : Memory.wf m'.mem := by
  obtain ⟨-, ⟨-, rfl⟩ | ⟨-, rfl⟩⟩ := storeWord_ok h
  · exact Memory.writeAll_wf hm _ _
  · exact hm

end Sys2Proof.Machine
end

