-- ==== Sys2Proof/Laws/Ops.lean ====
section
/-!
SUPPORT. For each shared operation, once, everything it can do: the exception, the end of an instruction, the transfer's
operands, the system registers, the miscellaneous helpers, and the step.
-/

namespace Sys2Proof.Machine

/-! ### Exceptions and the end of an instruction -/

/-- Everything taking an exception can do. -/
theorem takeException_next {s t : State} {len : Nat} {e : Exc} (h : takeException s len e = .next t) :
    s.arch.exceptionsEnabled = true ∧
      t = { cfg := s.cfg,
            arch := trapEntry (e.causeWord s.W) (faultContinuation s.cfg len (s.arch.reg 0)) s.arch } := by
  unfold takeException at h
  split at h
  · rename_i he
    cases h
    exact ⟨he, rfl⟩
  · cases h

theorem takeException_enabled {s : State} (len : Nat) (e : Exc) (h : s.arch.exceptionsEnabled = true) :
    takeException s len e =
      .next { cfg := s.cfg,
              arch := trapEntry (e.causeWord s.W) (faultContinuation s.cfg len (s.arch.reg 0)) s.arch } := by
  simp [takeException, h]

theorem takeException_disabled {s : State} (len : Nat) (e : Exc) (h : s.arch.exceptionsEnabled = false) :
    takeException s len e = .fault .exceptionWhileDisabled := by
  simp [takeException, h]

/-- An instruction whose pseudocode always completes ends in the retired run. -/
theorem executeOk_eq (s : State) (p : Run s.W → Run s.W) :
    executeOk s p = .next { cfg := s.cfg, arch := retire (p (Run.start s.arch)) } := rfl

theorem execute_of_ok {s : State} {p : Run s.W → Except Abort (Run s.W)} {k : Run s.W}
    (h : p (Run.start s.arch) = .ok k) : execute s p = .next { cfg := s.cfg, arch := retire k } := by
  simp [execute, h]

theorem execute_of_raise {s : State} {p : Run s.W → Except Abort (Run s.W)} {e : Exc}
    (h : p (Run.start s.arch) = .error (.raise e)) : execute s p = takeException s 2 e := by
  simp [execute, h]

theorem execute_of_fault {s : State} {p : Run s.W → Except Abort (Run s.W)} {f : Fault}
    (h : p (Run.start s.arch) = .error (.modelFault f)) : execute s p = .fault f := by
  simp [execute, h]

/-- Everything an instruction can do when it gives a next state: its pseudocode completed, or it took an exception. -/
theorem execute_next {s t : State} {p : Run s.W → Except Abort (Run s.W)} (h : execute s p = .next t) :
    (∃ k, p (Run.start s.arch) = .ok k ∧ t = { cfg := s.cfg, arch := retire k }) ∨
      (∃ e, p (Run.start s.arch) = .error (.raise e) ∧ s.arch.exceptionsEnabled = true ∧
        t = { cfg := s.cfg,
              arch := trapEntry (e.causeWord s.W) (faultContinuation s.cfg 2 (s.arch.reg 0)) s.arch }) := by
  unfold execute at h
  split at h
  · rename_i k hk
    cases h
    exact .inl ⟨k, hk, rfl⟩
  · rename_i e he
    exact .inr ⟨e, he, takeException_next h⟩
  · cases h

/-- What is available runs; what is not raises Illegal instruction. -/
theorem requireAvailable_true {W : Nat} (p : Run W → Except Abort (Run W)) : requireAvailable true p = p := rfl

theorem requireAvailable_false {W : Nat} (p : Run W → Except Abort (Run W)) (k : Run W) :
    requireAvailable false p k = .error (.raise .illegalInstruction) := rfl

theorem divideOp_zero {W : Nat} (f : BitVec W → BitVec W → BitVec W) (d : Reg) (k : Run W) :
    divideOp f d 0 k = .error (.raise .divideByZero) := by simp [divideOp]

theorem divideOp_nonzero {W : Nat} (f : BitVec W → BitVec W → BitVec W) (d : Reg) {v : BitVec W} (k : Run W) (h : v ≠ 0) :
    divideOp f d v k = .ok (k.setReg d (f (k.reg d) v)) := if_neg h

/-! ### The operands of a data transfer -/

section Steps
variable {W : Nat} (c : Config) (o : Operand) (k : Run W)

@[simp] theorem stepBefore_sr2 : (stepBefore c o k).arch.sr2 = k.arch.sr2 := by unfold stepBefore; split <;> rfl
@[simp] theorem stepBefore_sr4 : (stepBefore c o k).arch.sr4 = k.arch.sr4 := by unfold stepBefore; split <;> rfl
@[simp] theorem stepBefore_sr5 : (stepBefore c o k).arch.sr5 = k.arch.sr5 := by unfold stepBefore; split <;> rfl
@[simp] theorem stepBefore_sr8 : (stepBefore c o k).arch.sr8 = k.arch.sr8 := by unfold stepBefore; split <;> rfl
@[simp] theorem stepBefore_sr9 : (stepBefore c o k).arch.sr9 = k.arch.sr9 := by unfold stepBefore; split <;> rfl
@[simp] theorem stepBefore_halted : (stepBefore c o k).arch.halted = k.arch.halted := by unfold stepBefore; split <;> rfl
@[simp] theorem stepBefore_pending : (stepBefore c o k).arch.pending = k.arch.pending := by unfold stepBefore; split <;> rfl
@[simp] theorem stepBefore_debugOut : (stepBefore c o k).arch.debugOut = k.arch.debugOut := by unfold stepBefore; split <;> rfl
@[simp] theorem stepBefore_mem : (stepBefore c o k).arch.mem = k.arch.mem := by unfold stepBefore; split <;> rfl
@[simp] theorem stepBefore_bus : (stepBefore c o k).arch.bus = k.arch.bus := by unfold stepBefore; split <;> rfl
@[simp] theorem stepBefore_draws : (stepBefore c o k).arch.draws = k.arch.draws := by unfold stepBefore; split <;> rfl
@[simp] theorem stepBefore_sr4Written : (stepBefore c o k).sr4Written = k.sr4Written := by unfold stepBefore; split <;> rfl

@[simp] theorem stepAfter_sr2 : (stepAfter c o k).arch.sr2 = k.arch.sr2 := by unfold stepAfter; split <;> rfl
@[simp] theorem stepAfter_sr4 : (stepAfter c o k).arch.sr4 = k.arch.sr4 := by unfold stepAfter; split <;> rfl
@[simp] theorem stepAfter_sr5 : (stepAfter c o k).arch.sr5 = k.arch.sr5 := by unfold stepAfter; split <;> rfl
@[simp] theorem stepAfter_sr8 : (stepAfter c o k).arch.sr8 = k.arch.sr8 := by unfold stepAfter; split <;> rfl
@[simp] theorem stepAfter_sr9 : (stepAfter c o k).arch.sr9 = k.arch.sr9 := by unfold stepAfter; split <;> rfl
@[simp] theorem stepAfter_halted : (stepAfter c o k).arch.halted = k.arch.halted := by unfold stepAfter; split <;> rfl
@[simp] theorem stepAfter_pending : (stepAfter c o k).arch.pending = k.arch.pending := by unfold stepAfter; split <;> rfl
@[simp] theorem stepAfter_debugOut : (stepAfter c o k).arch.debugOut = k.arch.debugOut := by unfold stepAfter; split <;> rfl
@[simp] theorem stepAfter_mem : (stepAfter c o k).arch.mem = k.arch.mem := by unfold stepAfter; split <;> rfl
@[simp] theorem stepAfter_bus : (stepAfter c o k).arch.bus = k.arch.bus := by unfold stepAfter; split <;> rfl
@[simp] theorem stepAfter_draws : (stepAfter c o k).arch.draws = k.arch.draws := by unfold stepAfter; split <;> rfl
@[simp] theorem stepAfter_sr4Written : (stepAfter c o k).sr4Written = k.sr4Written := by unfold stepAfter; split <;> rfl

/-- The pre-step touches its own register only. -/
theorem stepBefore_reg_ne {j : Reg} (h : o.reg ≠ j) : (stepBefore c o k).reg j = k.reg j := by
  unfold stepBefore
  split
  · rw [Run.reg_setReg, if_neg h]
  · rfl

/-- The post-step touches its own register only. -/
theorem stepAfter_reg_ne {j : Reg} (h : o.reg ≠ j) : (stepAfter c o k).reg j = k.reg j := by
  unfold stepAfter
  split
  · rw [Run.reg_setReg, if_neg h]
  · rw [Run.reg_setReg, if_neg h]
  · rfl

end Steps

/-- Everything reading a source operand can do: a register value, or a loaded word; between the operand's two steps. -/
theorem readOperand_ok {W : Nat} {c : Config} {o : Operand} {k k' : Run W} {v : BitVec W}
    (h : readOperand c o k = .ok (v, k')) :
    (o.indirect = false ∧ v = (stepBefore c o k).reg o.reg ∧ k' = stepAfter c o (stepBefore c o k)) ∨
      (o.indirect = true ∧ ∃ m, loadWord c ((stepBefore c o k).reg o.reg) (stepBefore c o k).arch = .ok (v, m) ∧
        k' = stepAfter c o { stepBefore c o k with arch := m }) := by
  unfold readOperand at h
  simp only at h
  split at h
  · rename_i hi
    split at h
    · cases h
    · rename_i u m hl
      cases h
      exact .inr ⟨hi, m, hl, rfl⟩
  · rename_i hi
    cases h
    exact .inl ⟨by simpa using hi, rfl, rfl⟩

/-- Everything writing a destination operand can do: a register write, or a stored word; between the operand's two steps. -/
theorem writeOperand_ok {W : Nat} {c : Config} {o : Operand} {k k' : Run W} {v : BitVec W}
    (h : writeOperand c o v k = .ok k') :
    (o.indirect = false ∧ k' = stepAfter c o ((stepBefore c o k).setReg o.reg v)) ∨
      (o.indirect = true ∧ ∃ m, storeWord c (destAddr c o k) v (stepBefore c o k).arch = .ok m ∧
        k' = stepAfter c o { stepBefore c o k with arch := m }) := by
  unfold writeOperand at h
  simp only at h
  split at h
  · rename_i hi
    split at h
    · cases h
    · rename_i m hl
      cases h
      exact .inr ⟨hi, m, hl, rfl⟩
  · rename_i hi
    cases h
    exact .inl ⟨by simpa using hi, rfl⟩

/-- A transfer that completes read its source and then wrote its destination. -/
theorem transfer_ok {W : Nat} {c : Config} {dst src : Operand} {k k' : Run W} (h : transfer c dst src k = .ok k') :
    ∃ v k1, readOperand c src k = .ok (v, k1) ∧ writeOperand c dst v k1 = .ok k' := by
  unfold transfer at h
  split at h
  · cases h
  · rename_i v k1 hr
    exact ⟨v, k1, hr, h⟩

/-- No transfer raises an exception: it completes or the model stops (44_data_transfer.md rule R190). -/
theorem transfer_not_raise {W : Nat} {c : Config} {dst src : Operand} {k : Run W} {e : Exc} :
    transfer c dst src k ≠ .error (.raise e) := by
  intro h
  unfold transfer at h
  split at h
  · rename_i a hr
    cases h
    unfold readOperand at hr
    simp only at hr
    split at hr
    · split at hr <;> cases hr
    · cases hr
  · unfold writeOperand at h
    simp only at h
    split at h
    · split at h <;> cases h
    · cases h

/-! ### System registers -/

/-- Everything a write of a system register can do, register by register. -/
theorem writeSysReg_ok {W : Nat} {r : SysReg} {v : BitVec W} {k k' : Run W} (h : writeSysReg r v k = .ok k') :
    (r = .handlingRoutine ∧ k' = { k with arch := { k.arch with sr2 := v } }) ∨
    (r = .powerState ∧ v.toNat = 1 ∧ k' = { k with arch := { k.arch with halted := true } }) ∨
    (r = .powerState ∧ v.toNat = 0 ∧ k' = k) ∨
    (r = .retired ∧ k' = k.setRetired v) ∨
    (r = .cycles ∧ k' = { k with arch := { k.arch with sr5 := v } }) ∨
    (r = .continuation ∧ k' = { k with arch := { k.arch with sr8 := v } }) ∨
    (r = .cause ∧ k' = { k with arch := { k.arch with sr9 := v } }) ∨
    (r = .debugOutput ∧
      k' = { k with arch := { k.arch with debugOut := k.arch.debugOut ++ [BitVec.ofNat 8 v.toNat] } }) := by
  cases r <;> simp only [writeSysReg, writePowerState] at h
  case powerState =>
    split at h
    · cases h
    · split at h <;> cases h
      · exact .inr (.inl ⟨rfl, by omega, rfl⟩)
      · exact .inr (.inr (.inl ⟨rfl, by omega, rfl⟩))
  all_goals first | (cases h; done) | (cases h; simp)

/-- No system register access raises an exception (47_system_registers.md rules R225, R226). -/
theorem writeSysReg_not_raise {W : Nat} {r : SysReg} {v : BitVec W} {k : Run W} {e : Exc} :
    writeSysReg r v k ≠ .error (.raise e) := by
  intro h
  cases r <;> simp only [writeSysReg, writePowerState] at h
  case powerState =>
    split at h
    · cases h
    · split at h <;> cases h
  all_goals cases h

theorem readSysReg_not_raise {W : Nat} {c : Config} {r : SysReg} {m : Arch W} {e : Exc} :
    readSysReg c r m ≠ .error (.raise e) := by
  intro h
  cases r <;> simp [readSysReg] at h

/-- A system register read that completes writes one general register. -/
theorem readToRegister_ok {W : Nat} {c : Config} {r : Reg} {n : BitVec 8} {k k' : Run W}
    (h : readToRegister c r n k = .ok k') : ∃ v, readSysReg c (sysReg n) k.arch = .ok v ∧ k' = k.setReg r v := by
  unfold readToRegister at h
  split at h
  · cases h
  · rename_i v hv
    cases h
    exact ⟨v, hv, rfl⟩

/-! ### Miscellaneous -/

/-- A register index that is one, is the number the register holds. -/
theorem indexedReg_ok {W : Nat} {v : BitVec W} {i : Reg} (h : indexedReg v = .ok i) : i.val = v.toNat := by
  unfold indexedReg at h
  split at h
  · rename_i hv
    cases h
    simp [Fin.ofNat, Nat.mod_eq_of_lt hv]
  · cases h

theorem loadRegister_ok {W : Nat} {a b : Reg} {k k' : Run W} (h : loadRegister a b k = .ok k') :
    ∃ i, indexedReg (k.reg b) = .ok i ∧ k' = k.setReg a (k.reg i) := by
  unfold loadRegister at h
  split at h
  · cases h
  · rename_i i hi
    cases h
    exact ⟨i, hi, rfl⟩

theorem storeRegister_ok {W : Nat} {a b : Reg} {k k' : Run W} (h : storeRegister a b k = .ok k') :
    ∃ i, indexedReg (k.reg b) = .ok i ∧ k' = k.setReg i (k.reg a) := by
  unfold storeRegister at h
  split at h
  · cases h
  · rename_i i hi
    cases h
    exact ⟨i, hi, rfl⟩

theorem loadOffset_ok {W : Nat} {c : Config} {a : Reg} {imm : BitVec 4} {k k' : Run W}
    (h : loadOffset c a imm k = .ok k') :
    ∃ v m, loadWord c (offsetAddr c (k.reg a) imm) k.arch = .ok (v, m) ∧ k' = { k with arch := m }.setReg a v := by
  unfold loadOffset at h
  split at h
  · cases h
  · rename_i v m hl
    cases h
    exact ⟨v, m, hl, rfl⟩

section Jump
variable {W : Nat} (taken : Bool) (off : BitVec W) (k : Run W)

@[simp] theorem jumpIf_sr2 : (jumpIf taken off k).arch.sr2 = k.arch.sr2 := by unfold jumpIf; split <;> rfl
@[simp] theorem jumpIf_sr4 : (jumpIf taken off k).arch.sr4 = k.arch.sr4 := by unfold jumpIf; split <;> rfl
@[simp] theorem jumpIf_sr5 : (jumpIf taken off k).arch.sr5 = k.arch.sr5 := by unfold jumpIf; split <;> rfl
@[simp] theorem jumpIf_sr8 : (jumpIf taken off k).arch.sr8 = k.arch.sr8 := by unfold jumpIf; split <;> rfl
@[simp] theorem jumpIf_sr9 : (jumpIf taken off k).arch.sr9 = k.arch.sr9 := by unfold jumpIf; split <;> rfl
@[simp] theorem jumpIf_halted : (jumpIf taken off k).arch.halted = k.arch.halted := by unfold jumpIf; split <;> rfl
@[simp] theorem jumpIf_pending : (jumpIf taken off k).arch.pending = k.arch.pending := by unfold jumpIf; split <;> rfl
@[simp] theorem jumpIf_debugOut : (jumpIf taken off k).arch.debugOut = k.arch.debugOut := by unfold jumpIf; split <;> rfl
@[simp] theorem jumpIf_mem : (jumpIf taken off k).arch.mem = k.arch.mem := by unfold jumpIf; split <;> rfl
@[simp] theorem jumpIf_bus : (jumpIf taken off k).arch.bus = k.arch.bus := by unfold jumpIf; split <;> rfl
@[simp] theorem jumpIf_draws : (jumpIf taken off k).arch.draws = k.arch.draws := by unfold jumpIf; split <;> rfl
@[simp] theorem jumpIf_sr4Written : (jumpIf taken off k).sr4Written = k.sr4Written := by unfold jumpIf; split <;> rfl

/-- A jump touches no register but the program counter. -/
theorem jumpIf_reg_ne {j : Reg} (h : j ≠ 0) : (jumpIf taken off k).reg j = k.reg j := by
  unfold jumpIf
  split
  · rw [Run.reg_setReg, if_neg (Ne.symm h)]
  · rfl

end Jump

/-! ### The step -/

/-- Everything a step can do when it gives a next state: an interrupt is taken, the fetched word's instruction gives it, or
a reserved word raises Illegal instruction. -/
theorem step_next {s t : State} (h : step s = .next t) :
    s.arch.halted = false ∧
      ((s.arch.exceptionsEnabled = true ∧ s.arch.pending ≠ [] ∧ t = { cfg := s.cfg, arch := takeInterrupt s.arch }) ∨
        (¬ (s.arch.exceptionsEnabled = true ∧ s.arch.pending ≠ []) ∧ ∃ w m, fetch s.cfg s.arch = .ok (w, m) ∧
          ((∃ i, decode w = .ok i ∧ exec i { cfg := s.cfg, arch := m } = .next t) ∨
            (∃ r, decode w = .error r ∧
              takeException { cfg := s.cfg, arch := m } 2 .illegalInstruction = .next t)))) := by
  unfold step at h
  split at h
  · cases h
  · rename_i hh
    refine ⟨by simpa using hh, ?_⟩
    split at h
    · rename_i hi
      cases h
      rw [Bool.and_eq_true] at hi
      exact .inl ⟨hi.1, by simpa using hi.2, rfl⟩
    · rename_i hi
      refine .inr ⟨by simpa using hi, ?_⟩
      split at h
      · cases h
      · rename_i w m hf
        refine ⟨w, m, hf, ?_⟩
        split at h
        · rename_i i hd
          exact .inl ⟨i, hd, h⟩
        · rename_i r hd
          exact .inr ⟨r, hd, h⟩

end Sys2Proof.Machine
end

