-- ==== Sys2Proof/Laws/PerInstr.lean ====
section
/-!
SUPPORT. The family EncodingMatchesTable: the encoder writes into every instruction's word the fixed bits that
spec/opcode_table.json gives its row, at the place it gives them. One lemma per constructor.
-/

namespace Sys2Proof.Laws

/-- The fixed bits of the instruction's row: the lowest bit's number and the bits' value. The highest is bit 15. -/
def EncodingMatchesTable.fixedBits : Instr → Nat × Nat
  | .deg => (0, 0)
  | .bitF _ _ => (8, 16)
  | .bitNor _ _ => (8, 17)
  | .bitNci _ _ => (8, 18)
  | .bitNd _ _ => (8, 19)
  | .bitNmi _ _ => (8, 20)
  | .bitNs _ _ => (8, 21)
  | .bitXor _ _ => (8, 22)
  | .bitNand _ _ => (8, 23)
  | .bitAnd _ _ => (8, 24)
  | .bitXnor _ _ => (8, 25)
  | .bitS _ _ => (8, 26)
  | .bitMi _ _ => (8, 27)
  | .bitD _ _ => (8, 28)
  | .bitCi _ _ => (8, 29)
  | .bitOr _ _ => (8, 30)
  | .bitT _ _ => (8, 31)
  | .add _ _ => (8, 32)
  | .sub _ _ => (8, 33)
  | .shl _ _ => (8, 34)
  | .shr _ _ => (8, 35)
  | .asr _ _ => (8, 36)
  | .mul _ _ => (8, 37)
  | .div _ _ => (8, 38)
  | .mod _ _ => (8, 39)
  | .addi _ _ => (8, 40)
  | .subi _ _ => (8, 41)
  | .shli _ _ => (8, 42)
  | .shri _ _ => (8, 43)
  | .asri _ _ => (8, 44)
  | .muli _ _ => (8, 45)
  | .divi _ _ => (8, 46)
  | .modi _ _ => (8, 47)
  | .cmpF _ _ => (8, 48)
  | .cmpEq _ _ => (8, 49)
  | .cmpAb _ _ => (8, 50)
  | .cmpAbe _ _ => (8, 51)
  | .cmpSf _ _ => (8, 52)
  | .cmpSeq _ _ => (8, 53)
  | .cmpGt _ _ => (8, 54)
  | .cmpGte _ _ => (8, 55)
  | .cmpT _ _ => (8, 56)
  | .cmpNeq _ _ => (8, 57)
  | .cmpBle _ _ => (8, 58)
  | .cmpBl _ _ => (8, 59)
  | .cmpSt _ _ => (8, 60)
  | .cmpSneq _ _ => (8, 61)
  | .cmpLte _ _ => (8, 62)
  | .cmpLt _ _ => (8, 63)
  | .xf _ _ => (14, 1)
  | .bnz _ _ => (12, 8)
  | .subw _ _ _ => (11, 18)
  | .subws _ _ _ => (11, 19)
  | .srr _ _ => (12, 10)
  | .srw _ _ => (12, 11)
  | .si _ _ => (12, 12)
  | .sel _ _ _ => (12, 13)
  | .swap _ _ => (8, 224)
  | .mmul _ _ => (8, 225)
  | .mdiv _ _ => (8, 226)
  | .mmod _ _ => (8, 227)
  | .ldreg _ _ => (8, 228)
  | .streg _ _ => (8, 229)
  | .ldoff _ _ => (8, 230)
  | .loop _ _ => (8, 231)
  | .jz _ _ => (8, 232)
  | .jzr _ _ => (8, 233)
  | .jnz _ _ => (8, 234)
  | .jnzr _ _ => (8, 235)
  | .jgz _ _ => (8, 236)
  | .jgzr _ _ => (8, 237)
  | .jlz _ _ => (8, 238)
  | .jlzr _ _ => (8, 239)
  | .long _ _ => (12, 15)

/-- A well-formed instruction's word carries its row's fixed bits. -/
def EncodingMatchesTable.Statement (i : Instr) : Prop :=
  i.WellFormed →
    slice (encode i) (EncodingMatchesTable.fixedBits i).1 (16 - (EncodingMatchesTable.fixedBits i).1) =
      (EncodingMatchesTable.fixedBits i).2

/-- The high byte of a word of nibbles. -/
theorem slice_nibbles {cls op mid low : Nat} (hc : cls < 16) (ho : op < 16) (hm : mid < 16) (hl : low < 16) :
    slice (nibbles cls op mid low) 8 8 = 16 * cls + op := by
  simp only [slice, nibbles, BitVec.toNat_ofNat]
  omega

theorem EncodingMatchesTable.deg : EncodingMatchesTable.Statement (.deg) := fun _ => by decide

theorem EncodingMatchesTable.bitF (d r : Reg) : EncodingMatchesTable.Statement (.bitF d r) :=
  fun _ => slice_nibbles (by decide) (by decide) r.isLt d.isLt

theorem EncodingMatchesTable.bitNor (d r : Reg) : EncodingMatchesTable.Statement (.bitNor d r) :=
  fun _ => slice_nibbles (by decide) (by decide) r.isLt d.isLt

theorem EncodingMatchesTable.bitNci (d r : Reg) : EncodingMatchesTable.Statement (.bitNci d r) :=
  fun _ => slice_nibbles (by decide) (by decide) r.isLt d.isLt

theorem EncodingMatchesTable.bitNd (d r : Reg) : EncodingMatchesTable.Statement (.bitNd d r) :=
  fun _ => slice_nibbles (by decide) (by decide) r.isLt d.isLt

theorem EncodingMatchesTable.bitNmi (d r : Reg) : EncodingMatchesTable.Statement (.bitNmi d r) :=
  fun _ => slice_nibbles (by decide) (by decide) r.isLt d.isLt

theorem EncodingMatchesTable.bitNs (d r : Reg) : EncodingMatchesTable.Statement (.bitNs d r) :=
  fun _ => slice_nibbles (by decide) (by decide) r.isLt d.isLt

theorem EncodingMatchesTable.bitXor (d r : Reg) : EncodingMatchesTable.Statement (.bitXor d r) :=
  fun _ => slice_nibbles (by decide) (by decide) r.isLt d.isLt

theorem EncodingMatchesTable.bitNand (d r : Reg) : EncodingMatchesTable.Statement (.bitNand d r) :=
  fun _ => slice_nibbles (by decide) (by decide) r.isLt d.isLt

theorem EncodingMatchesTable.bitAnd (d r : Reg) : EncodingMatchesTable.Statement (.bitAnd d r) :=
  fun _ => slice_nibbles (by decide) (by decide) r.isLt d.isLt

theorem EncodingMatchesTable.bitXnor (d r : Reg) : EncodingMatchesTable.Statement (.bitXnor d r) :=
  fun _ => slice_nibbles (by decide) (by decide) r.isLt d.isLt

theorem EncodingMatchesTable.bitS (d r : Reg) : EncodingMatchesTable.Statement (.bitS d r) :=
  fun _ => slice_nibbles (by decide) (by decide) r.isLt d.isLt

theorem EncodingMatchesTable.bitMi (d r : Reg) : EncodingMatchesTable.Statement (.bitMi d r) :=
  fun _ => slice_nibbles (by decide) (by decide) r.isLt d.isLt

theorem EncodingMatchesTable.bitD (d r : Reg) : EncodingMatchesTable.Statement (.bitD d r) :=
  fun _ => slice_nibbles (by decide) (by decide) r.isLt d.isLt

theorem EncodingMatchesTable.bitCi (d r : Reg) : EncodingMatchesTable.Statement (.bitCi d r) :=
  fun _ => slice_nibbles (by decide) (by decide) r.isLt d.isLt

theorem EncodingMatchesTable.bitOr (d r : Reg) : EncodingMatchesTable.Statement (.bitOr d r) :=
  fun _ => slice_nibbles (by decide) (by decide) r.isLt d.isLt

theorem EncodingMatchesTable.bitT (d r : Reg) : EncodingMatchesTable.Statement (.bitT d r) :=
  fun _ => slice_nibbles (by decide) (by decide) r.isLt d.isLt

theorem EncodingMatchesTable.add (d r : Reg) : EncodingMatchesTable.Statement (.add d r) :=
  fun _ => slice_nibbles (by decide) (by decide) r.isLt d.isLt

theorem EncodingMatchesTable.sub (d r : Reg) : EncodingMatchesTable.Statement (.sub d r) :=
  fun _ => slice_nibbles (by decide) (by decide) r.isLt d.isLt

theorem EncodingMatchesTable.shl (d r : Reg) : EncodingMatchesTable.Statement (.shl d r) :=
  fun _ => slice_nibbles (by decide) (by decide) r.isLt d.isLt

theorem EncodingMatchesTable.shr (d r : Reg) : EncodingMatchesTable.Statement (.shr d r) :=
  fun _ => slice_nibbles (by decide) (by decide) r.isLt d.isLt

theorem EncodingMatchesTable.asr (d r : Reg) : EncodingMatchesTable.Statement (.asr d r) :=
  fun _ => slice_nibbles (by decide) (by decide) r.isLt d.isLt

theorem EncodingMatchesTable.mul (d r : Reg) : EncodingMatchesTable.Statement (.mul d r) :=
  fun _ => slice_nibbles (by decide) (by decide) r.isLt d.isLt

theorem EncodingMatchesTable.div (d r : Reg) : EncodingMatchesTable.Statement (.div d r) :=
  fun _ => slice_nibbles (by decide) (by decide) r.isLt d.isLt

theorem EncodingMatchesTable.mod (d r : Reg) : EncodingMatchesTable.Statement (.mod d r) :=
  fun _ => slice_nibbles (by decide) (by decide) r.isLt d.isLt

theorem EncodingMatchesTable.addi (d : Reg) (n : BitVec 4) : EncodingMatchesTable.Statement (.addi d n) :=
  fun _ => slice_nibbles (by decide) (by decide) n.isLt d.isLt

theorem EncodingMatchesTable.subi (d : Reg) (n : BitVec 4) : EncodingMatchesTable.Statement (.subi d n) :=
  fun _ => slice_nibbles (by decide) (by decide) n.isLt d.isLt

theorem EncodingMatchesTable.shli (d : Reg) (n : BitVec 4) : EncodingMatchesTable.Statement (.shli d n) :=
  fun _ => slice_nibbles (by decide) (by decide) n.isLt d.isLt

theorem EncodingMatchesTable.shri (d : Reg) (n : BitVec 4) : EncodingMatchesTable.Statement (.shri d n) :=
  fun _ => slice_nibbles (by decide) (by decide) n.isLt d.isLt

theorem EncodingMatchesTable.asri (d : Reg) (n : BitVec 4) : EncodingMatchesTable.Statement (.asri d n) :=
  fun _ => slice_nibbles (by decide) (by decide) n.isLt d.isLt

theorem EncodingMatchesTable.muli (d : Reg) (n : BitVec 4) : EncodingMatchesTable.Statement (.muli d n) :=
  fun _ => slice_nibbles (by decide) (by decide) n.isLt d.isLt

theorem EncodingMatchesTable.divi (d : Reg) (n : BitVec 4) : EncodingMatchesTable.Statement (.divi d n) :=
  fun _ => slice_nibbles (by decide) (by decide) n.isLt d.isLt

theorem EncodingMatchesTable.modi (d : Reg) (n : BitVec 4) : EncodingMatchesTable.Statement (.modi d n) :=
  fun _ => slice_nibbles (by decide) (by decide) n.isLt d.isLt

theorem EncodingMatchesTable.cmpF (d r : Reg) : EncodingMatchesTable.Statement (.cmpF d r) :=
  fun _ => slice_nibbles (by decide) (by decide) r.isLt d.isLt

theorem EncodingMatchesTable.cmpEq (d r : Reg) : EncodingMatchesTable.Statement (.cmpEq d r) :=
  fun _ => slice_nibbles (by decide) (by decide) r.isLt d.isLt

theorem EncodingMatchesTable.cmpAb (d r : Reg) : EncodingMatchesTable.Statement (.cmpAb d r) :=
  fun _ => slice_nibbles (by decide) (by decide) r.isLt d.isLt

theorem EncodingMatchesTable.cmpAbe (d r : Reg) : EncodingMatchesTable.Statement (.cmpAbe d r) :=
  fun _ => slice_nibbles (by decide) (by decide) r.isLt d.isLt

theorem EncodingMatchesTable.cmpSf (d r : Reg) : EncodingMatchesTable.Statement (.cmpSf d r) :=
  fun _ => slice_nibbles (by decide) (by decide) r.isLt d.isLt

theorem EncodingMatchesTable.cmpSeq (d r : Reg) : EncodingMatchesTable.Statement (.cmpSeq d r) :=
  fun _ => slice_nibbles (by decide) (by decide) r.isLt d.isLt

theorem EncodingMatchesTable.cmpGt (d r : Reg) : EncodingMatchesTable.Statement (.cmpGt d r) :=
  fun _ => slice_nibbles (by decide) (by decide) r.isLt d.isLt

theorem EncodingMatchesTable.cmpGte (d r : Reg) : EncodingMatchesTable.Statement (.cmpGte d r) :=
  fun _ => slice_nibbles (by decide) (by decide) r.isLt d.isLt

theorem EncodingMatchesTable.cmpT (d r : Reg) : EncodingMatchesTable.Statement (.cmpT d r) :=
  fun _ => slice_nibbles (by decide) (by decide) r.isLt d.isLt

theorem EncodingMatchesTable.cmpNeq (d r : Reg) : EncodingMatchesTable.Statement (.cmpNeq d r) :=
  fun _ => slice_nibbles (by decide) (by decide) r.isLt d.isLt

theorem EncodingMatchesTable.cmpBle (d r : Reg) : EncodingMatchesTable.Statement (.cmpBle d r) :=
  fun _ => slice_nibbles (by decide) (by decide) r.isLt d.isLt

theorem EncodingMatchesTable.cmpBl (d r : Reg) : EncodingMatchesTable.Statement (.cmpBl d r) :=
  fun _ => slice_nibbles (by decide) (by decide) r.isLt d.isLt

theorem EncodingMatchesTable.cmpSt (d r : Reg) : EncodingMatchesTable.Statement (.cmpSt d r) :=
  fun _ => slice_nibbles (by decide) (by decide) r.isLt d.isLt

theorem EncodingMatchesTable.cmpSneq (d r : Reg) : EncodingMatchesTable.Statement (.cmpSneq d r) :=
  fun _ => slice_nibbles (by decide) (by decide) r.isLt d.isLt

theorem EncodingMatchesTable.cmpLte (d r : Reg) : EncodingMatchesTable.Statement (.cmpLte d r) :=
  fun _ => slice_nibbles (by decide) (by decide) r.isLt d.isLt

theorem EncodingMatchesTable.cmpLt (d r : Reg) : EncodingMatchesTable.Statement (.cmpLt d r) :=
  fun _ => slice_nibbles (by decide) (by decide) r.isLt d.isLt

theorem EncodingMatchesTable.xf (dst src : Operand) : EncodingMatchesTable.Statement (.xf dst src) := fun _ => by
  have h1 : src.indirect.toNat ≤ 1 := by cases src.indirect <;> decide
  have h2 : dst.indirect.toNat ≤ 1 := by cases dst.indirect <;> decide
  have h3 : encodeMode src.mode ≤ 3 := by cases src.mode <;> decide
  have h4 : encodeMode dst.mode ≤ 3 := by cases dst.mode <;> decide
  simp only [slice, encode, EncodingMatchesTable.fixedBits, BitVec.toNat_ofNat]; omega

theorem EncodingMatchesTable.bnz (c : Reg) (off : BitVec 8) : EncodingMatchesTable.Statement (.bnz c off) := fun _ => by
  have := off.isLt
  simp only [slice, encode, EncodingMatchesTable.fixedBits, BitVec.toNat_ofNat]; omega

theorem EncodingMatchesTable.subw (d i : Reg) (size : Nat) : EncodingMatchesTable.Statement (.subw d i size) := fun _ => by
  have := Nat.mod_lt size (show 0 < 8 by decide)
  simp only [slice, nibbles, encode, EncodingMatchesTable.fixedBits, BitVec.toNat_ofNat]; omega

theorem EncodingMatchesTable.subws (d i : Reg) (size : Nat) : EncodingMatchesTable.Statement (.subws d i size) := fun _ => by
  have := Nat.mod_lt size (show 0 < 8 by decide)
  simp only [slice, nibbles, encode, EncodingMatchesTable.fixedBits, BitVec.toNat_ofNat]; omega

theorem EncodingMatchesTable.srr (r : Reg) (n : BitVec 8) : EncodingMatchesTable.Statement (.srr r n) := fun _ => by
  have := n.isLt
  simp only [slice, encode, EncodingMatchesTable.fixedBits, BitVec.toNat_ofNat]; omega

theorem EncodingMatchesTable.srw (r : Reg) (n : BitVec 8) : EncodingMatchesTable.Statement (.srw r n) := fun _ => by
  have := n.isLt
  simp only [slice, encode, EncodingMatchesTable.fixedBits, BitVec.toNat_ofNat]; omega

theorem EncodingMatchesTable.si (d : Reg) (n : BitVec 8) : EncodingMatchesTable.Statement (.si d n) := fun _ => by
  have := n.isLt
  simp only [slice, encode, EncodingMatchesTable.fixedBits, BitVec.toNat_ofNat]; omega

theorem EncodingMatchesTable.sel (c n z : Reg) : EncodingMatchesTable.Statement (.sel c n z) := fun _ => by
  simp only [slice, nibbles, encode, EncodingMatchesTable.fixedBits, BitVec.toNat_ofNat]; omega

theorem EncodingMatchesTable.swap (a b : Reg) : EncodingMatchesTable.Statement (.swap a b) :=
  fun _ => slice_nibbles (by decide) (by decide) b.isLt a.isLt

theorem EncodingMatchesTable.mmul (a b : Reg) : EncodingMatchesTable.Statement (.mmul a b) :=
  fun _ => slice_nibbles (by decide) (by decide) b.isLt a.isLt

theorem EncodingMatchesTable.mdiv (a b : Reg) : EncodingMatchesTable.Statement (.mdiv a b) :=
  fun _ => slice_nibbles (by decide) (by decide) b.isLt a.isLt

theorem EncodingMatchesTable.mmod (a b : Reg) : EncodingMatchesTable.Statement (.mmod a b) :=
  fun _ => slice_nibbles (by decide) (by decide) b.isLt a.isLt

theorem EncodingMatchesTable.ldreg (a b : Reg) : EncodingMatchesTable.Statement (.ldreg a b) :=
  fun _ => slice_nibbles (by decide) (by decide) b.isLt a.isLt

theorem EncodingMatchesTable.streg (a b : Reg) : EncodingMatchesTable.Statement (.streg a b) :=
  fun _ => slice_nibbles (by decide) (by decide) b.isLt a.isLt

theorem EncodingMatchesTable.ldoff (a : Reg) (imm : BitVec 4) : EncodingMatchesTable.Statement (.ldoff a imm) :=
  fun _ => slice_nibbles (by decide) (by decide) imm.isLt a.isLt

theorem EncodingMatchesTable.loop (a : Reg) (b : BitVec 4) : EncodingMatchesTable.Statement (.loop a b) :=
  fun _ => slice_nibbles (by decide) (by decide) b.isLt a.isLt

theorem EncodingMatchesTable.jz (a : Reg) (imm : BitVec 4) : EncodingMatchesTable.Statement (.jz a imm) :=
  fun _ => slice_nibbles (by decide) (by decide) imm.isLt a.isLt

theorem EncodingMatchesTable.jzr (a b : Reg) : EncodingMatchesTable.Statement (.jzr a b) :=
  fun _ => slice_nibbles (by decide) (by decide) b.isLt a.isLt

theorem EncodingMatchesTable.jnz (a : Reg) (imm : BitVec 4) : EncodingMatchesTable.Statement (.jnz a imm) :=
  fun _ => slice_nibbles (by decide) (by decide) imm.isLt a.isLt

theorem EncodingMatchesTable.jnzr (a b : Reg) : EncodingMatchesTable.Statement (.jnzr a b) :=
  fun _ => slice_nibbles (by decide) (by decide) b.isLt a.isLt

theorem EncodingMatchesTable.jgz (a : Reg) (imm : BitVec 4) : EncodingMatchesTable.Statement (.jgz a imm) :=
  fun _ => slice_nibbles (by decide) (by decide) imm.isLt a.isLt

theorem EncodingMatchesTable.jgzr (a b : Reg) : EncodingMatchesTable.Statement (.jgzr a b) :=
  fun _ => slice_nibbles (by decide) (by decide) b.isLt a.isLt

theorem EncodingMatchesTable.jlz (a : Reg) (imm : BitVec 4) : EncodingMatchesTable.Statement (.jlz a imm) :=
  fun _ => slice_nibbles (by decide) (by decide) imm.isLt a.isLt

theorem EncodingMatchesTable.jlzr (a b : Reg) : EncodingMatchesTable.Statement (.jlzr a b) :=
  fun _ => slice_nibbles (by decide) (by decide) b.isLt a.isLt

theorem EncodingMatchesTable.long (l : BitVec 4) (ext : BitVec 8) : EncodingMatchesTable.Statement (.long l ext) := fun _ => by
  have := l.isLt
  have := ext.isLt
  simp only [slice, encode, EncodingMatchesTable.fixedBits, BitVec.toNat_ofNat]; omega

end Sys2Proof.Laws
end

