-- ==== Sys2Proof/Tests/Slice0.lean ====
section
/-!
SUPPORT. The model's own tests: well-formedness, decoding from words written out by the spec's encodings, the rules' worked
examples, and for every statement with hypotheses a witness that meets them (witness_<statement>).
-/

namespace Sys2Proof.Tests

open Sys2Proof.Machine

/-- The word decodes to the instruction, and is its encoding. -/
abbrev decodesTo (w : IWord) (i : Instr) : Prop :=
  (match decode w with
    | .ok j => decide (j = i)
    | .error _ => false) = true ∧ encode i = w

/-- The decoder rejects the word for this reason. -/
abbrev rejects (w : IWord) (r : Reject) : Prop :=
  (match decode w with
    | .ok _ => false
    | .error e => decide (e = r)) = true

/-- Too few bytes to hold an instruction, in either byte order. -/
abbrev truncatedAt (bs : List Byte) : Prop :=
  ∀ o ∈ [ByteOrder.little, ByteOrder.big],
    (match decodeBytes o bs with
      | .ok _ => false
      | .error e => decide (e = .truncated)) = true

/-- A machine with these first registers, SR 2 and memory, otherwise as after reset. -/
def machine (c : Config) (regs : List Nat) (sr2 : Nat) (mem : List Host.Cell) : State where
  cfg := c
  arch := { Arch.reset c.wordBits c.resetPc mem with
    x := Vector.ofFn fun i => BitVec.ofNat _ (regs.getD i.val 0)
    sr2 := BitVec.ofNat _ sr2 }

/-- The reference machine with these first registers. -/
def ref (regs : List Nat) : State := machine Config.reference regs 0 []

/-- Without the multiplier. -/
def noMul : Config := { Config.reference with hasMul := false }

/-- 32-bit words, big-endian. -/
def big32 : Config := { Config.reference with wordBytes := 4, byteOrder := .big }

/-- A device at 0x0100 to 0x010F and a hole at 0x0200 to 0x020F. -/
def mapped : Config :=
  { Config.reference with regions := [⟨0x100, 0x10, .device⟩, ⟨0x200, 0x10, .nothing⟩] }

/-- A register of a next state. -/
def regOf (o : Result) (r : Reg) : Option Nat :=
  match o with
  | .next t => some (t.arch.reg r).toNat
  | _ => none

/-- A register after an instruction. -/
def regAfter (i : Instr) (s : State) (r : Reg) : Option Nat := regOf (exec i s) r

/-- SR 2, SR 8, SR 9, SR 4 and the program counter of a next state. -/
def exceptionState (o : Result) : Option (Nat × Nat × Nat × Nat × Nat) :=
  match o with
  | .next t => some (t.arch.sr2.toNat, t.arch.sr8.toNat, t.arch.sr9.toNat, t.arch.sr4.toNat, (t.arch.reg 0).toNat)
  | _ => none

/-- The listed memory of a next state. -/
def memOf (o : Result) : Option (List Host.Cell) :=
  match o with
  | .next t => some t.arch.mem
  | _ => none

/-- The fault a result stops with. -/
def faultOf (o : Result) : Option Fault :=
  match o with
  | .fault f => some f
  | _ => none

/-! ### Well-formedness: each check refuses an ill-formed term -/

theorem test_wellFormed_subword : ¬ (Instr.subw 1 2 0).WellFormed ∧ ¬ (Instr.subw 1 2 9).WellFormed ∧
    ¬ (Instr.subws 1 2 0).WellFormed ∧ ¬ (Instr.subws 1 2 9).WellFormed ∧
    (Instr.subw 1 2 1).WellFormed ∧ (Instr.subws 1 2 8).WellFormed := by decide

/-- The checks of a configuration refuse this one. -/
def refuses (c : Config) : Bool := !decide c.WellFormed

theorem test_wellFormed_config : Config.reference.WellFormed ∧ mapped.WellFormed ∧
    refuses { Config.reference with wordBytes := 1 } ∧
    refuses { Config.reference with resetPc := 1 } ∧
    refuses { Config.reference with resetPc := 0x10000 } ∧
    refuses { Config.reference with regions := [⟨0x101, 2, .device⟩] } ∧
    refuses { Config.reference with regions := [⟨0x100, 0, .device⟩] } ∧
    refuses { Config.reference with regions := [⟨0xFFFF, 2, .nothing⟩] } := by decide

/-! ### Decoding: words written out from the encodings of 30_encoding.md -/

/-- 30_encoding.md format BW with S = 2, D = 1: the words of R131 to R146. -/
theorem test_decode_bitwise :
    decodesTo 0x1021 (.bitF 1 2) ∧
    decodesTo 0x1121 (.bitNor 1 2) ∧
    decodesTo 0x1221 (.bitNci 1 2) ∧
    decodesTo 0x1321 (.bitNd 1 2) ∧
    decodesTo 0x1421 (.bitNmi 1 2) ∧
    decodesTo 0x1521 (.bitNs 1 2) ∧
    decodesTo 0x1621 (.bitXor 1 2) ∧
    decodesTo 0x1721 (.bitNand 1 2) ∧
    decodesTo 0x1821 (.bitAnd 1 2) ∧
    decodesTo 0x1921 (.bitXnor 1 2) ∧
    decodesTo 0x1A21 (.bitS 1 2) ∧
    decodesTo 0x1B21 (.bitMi 1 2) ∧
    decodesTo 0x1C21 (.bitD 1 2) ∧
    decodesTo 0x1D21 (.bitCi 1 2) ∧
    decodesTo 0x1E21 (.bitOr 1 2) ∧
    decodesTo 0x1F21 (.bitT 1 2) := by decide

/-- Format AR, register form (S = 2, D = 1) and immediate form (n = 5, D = 1). -/
theorem test_decode_arithmetic :
    decodesTo 0x2021 (.add 1 2) ∧
    decodesTo 0x2121 (.sub 1 2) ∧
    decodesTo 0x2221 (.shl 1 2) ∧
    decodesTo 0x2321 (.shr 1 2) ∧
    decodesTo 0x2421 (.asr 1 2) ∧
    decodesTo 0x2521 (.mul 1 2) ∧
    decodesTo 0x2621 (.div 1 2) ∧
    decodesTo 0x2721 (.mod 1 2) ∧
    decodesTo 0x2851 (.addi 1 5) ∧
    decodesTo 0x2951 (.subi 1 5) ∧
    decodesTo 0x2A51 (.shli 1 5) ∧
    decodesTo 0x2B51 (.shri 1 5) ∧
    decodesTo 0x2C51 (.asri 1 5) ∧
    decodesTo 0x2D51 (.muli 1 5) ∧
    decodesTo 0x2E51 (.divi 1 5) ∧
    decodesTo 0x2F51 (.modi 1 5) := by decide

/-- Format CM with S = 2, D = 1: the words of R172 to R187. -/
theorem test_decode_compare :
    decodesTo 0x3021 (.cmpF 1 2) ∧
    decodesTo 0x3121 (.cmpEq 1 2) ∧
    decodesTo 0x3221 (.cmpAb 1 2) ∧
    decodesTo 0x3321 (.cmpAbe 1 2) ∧
    decodesTo 0x3421 (.cmpSf 1 2) ∧
    decodesTo 0x3521 (.cmpSeq 1 2) ∧
    decodesTo 0x3621 (.cmpGt 1 2) ∧
    decodesTo 0x3721 (.cmpGte 1 2) ∧
    decodesTo 0x3821 (.cmpT 1 2) ∧
    decodesTo 0x3921 (.cmpNeq 1 2) ∧
    decodesTo 0x3A21 (.cmpBle 1 2) ∧
    decodesTo 0x3B21 (.cmpBl 1 2) ∧
    decodesTo 0x3C21 (.cmpSt 1 2) ∧
    decodesTo 0x3D21 (.cmpSneq 1 2) ∧
    decodesTo 0x3E21 (.cmpLte 1 2) ∧
    decodesTo 0x3F21 (.cmpLt 1 2) := by decide

/-- Format XF: words of R190, R193 to R195, R197 and R198, and every field at its highest. -/
theorem test_decode_transfer :
    decodesTo 0x4021 (.xf ⟨1, false, .none⟩ ⟨2, false, .none⟩) ∧
    decodesTo 0x6021 (.xf ⟨1, false, .none⟩ ⟨2, true, .none⟩) ∧
    decodesTo 0x4421 (.xf ⟨1, true, .none⟩ ⟨2, false, .none⟩) ∧
    decodesTo 0x68F3 (.xf ⟨3, false, .none⟩ ⟨15, true, .autoInc⟩) ∧
    decodesTo 0x463F (.xf ⟨15, true, .autoDec⟩ ⟨3, false, .none⟩) ∧
    decodesTo 0x7821 (.xf ⟨1, false, .none⟩ ⟨2, true, .autoPostDec⟩) ∧
    decodesTo 0x5021 (.xf ⟨1, false, .none⟩ ⟨2, false, .autoDec⟩) ∧
    decodesTo 0x4121 (.xf ⟨1, false, .autoInc⟩ ⟨2, false, .none⟩) ∧
    decodesTo 0x7FFF (.xf ⟨15, true, .autoPostDec⟩ ⟨15, true, .autoPostDec⟩) := by decide

/-- Format MS with B = 2 or an immediate of -1 (0xF), A = 1: the words of R271 to R288. -/
theorem test_decode_misc :
    decodesTo 0xE021 (.swap 1 2) ∧
    decodesTo 0xE121 (.mmul 1 2) ∧
    decodesTo 0xE221 (.mdiv 1 2) ∧
    decodesTo 0xE321 (.mmod 1 2) ∧
    decodesTo 0xE421 (.ldreg 1 2) ∧
    decodesTo 0xE521 (.streg 1 2) ∧
    decodesTo 0xE6F1 (.ldoff 1 0xF) ∧
    decodesTo 0xE7F1 (.loop 1 0xF) ∧
    decodesTo 0xE8F1 (.jz 1 0xF) ∧
    decodesTo 0xE921 (.jzr 1 2) ∧
    decodesTo 0xEAF1 (.jnz 1 0xF) ∧
    decodesTo 0xEB21 (.jnzr 1 2) ∧
    decodesTo 0xECF1 (.jgz 1 0xF) ∧
    decodesTo 0xED21 (.jgzr 1 2) ∧
    decodesTo 0xEEF1 (.jlz 1 0xF) ∧
    decodesTo 0xEF21 (.jlzr 1 2) := by decide

/-- The remaining classes: words of R120, R210, R217, R225, R226, R260, R262 and R290. -/
theorem test_decode_others :
    decodesTo 0x0000 .deg ∧
    decodesTo 0x82FE (.bnz 2 0xFE) ∧
    decodesTo 0x9121 (.subw 1 2 1) ∧
    decodesTo 0x9021 (.subw 1 2 8) ∧
    decodesTo 0x9A21 (.subws 1 2 2) ∧
    decodesTo 0xA008 (.srr 0 8) ∧
    decodesTo 0xA207 (.srr 2 7) ∧
    decodesTo 0xB40A (.srw 4 10) ∧
    decodesTo 0xCFF2 (.si 2 255) ∧
    decodesTo 0xC051 (.si 1 5) ∧
    decodesTo 0xD123 (.sel 1 2 3) ∧
    decodesTo 0xF2AB (.long 2 0xAB) := by decide

/-- R102: the reserved words, at both ends, and the words beside them. -/
theorem test_decode_reserved :
    rejects 0x0001 (.reserved 0x0001) ∧
    rejects 0x0FFF (.reserved 0x0FFF) ∧
    decodesTo 0x1000 (.bitF 0 0) := by decide

/-- The table's numbering of bits, and too few bytes for a word. -/
theorem test_decode_table_word :
    decodeTableWord 16 0x2851 = some (.addi 1 5) ∧
    decodeTableWord 16 0x0001 = none ∧
    truncatedAt [0x51] ∧
    truncatedAt [] := by decide

/-! ### Execution: the worked examples of the rules, in the reference configuration unless the name says otherwise -/

theorem test_bitF : regAfter (.bitF 1 2) (ref [0, 0x00FF, 0x0F0F]) 1 = some 0x0000 := by decide

theorem test_bitNor : regAfter (.bitNor 1 2) (ref [0, 0x00FF, 0x0F0F]) 1 = some 0xF000 := by decide

theorem test_bitNci : regAfter (.bitNci 1 2) (ref [0, 0x00FF, 0x0F0F]) 1 = some 0x0F00 := by decide

theorem test_bitNd : regAfter (.bitNd 1 2) (ref [0, 0x00FF, 0x0F0F]) 1 = some 0xFF00 := by decide

theorem test_bitNmi : regAfter (.bitNmi 1 2) (ref [0, 0x00FF, 0x0F0F]) 1 = some 0x00F0 := by decide

theorem test_bitNs : regAfter (.bitNs 1 2) (ref [0, 0x00FF, 0x0F0F]) 1 = some 0xF0F0 := by decide

theorem test_bitXor : regAfter (.bitXor 1 2) (ref [0, 0x00FF, 0x0F0F]) 1 = some 0x0FF0 := by decide

theorem test_bitNand : regAfter (.bitNand 1 2) (ref [0, 0x00FF, 0x0F0F]) 1 = some 0xFFF0 := by decide

theorem test_bitAnd : regAfter (.bitAnd 1 2) (ref [0, 0x00FF, 0x0F0F]) 1 = some 0x000F := by decide

theorem test_bitXnor : regAfter (.bitXnor 1 2) (ref [0, 0x00FF, 0x0F0F]) 1 = some 0xF00F := by decide

theorem test_bitS : regAfter (.bitS 1 2) (ref [0, 0x00FF, 0x0F0F]) 1 = some 0x0F0F := by decide

theorem test_bitMi : regAfter (.bitMi 1 2) (ref [0, 0x00FF, 0x0F0F]) 1 = some 0xFF0F := by decide

theorem test_bitD : regAfter (.bitD 1 2) (ref [0, 0x00FF, 0x0F0F]) 1 = some 0x00FF := by decide

theorem test_bitCi : regAfter (.bitCi 1 2) (ref [0, 0x00FF, 0x0F0F]) 1 = some 0xF0FF := by decide

theorem test_bitOr : regAfter (.bitOr 1 2) (ref [0, 0x00FF, 0x0F0F]) 1 = some 0x0FFF := by decide

theorem test_bitT : regAfter (.bitT 1 2) (ref [0, 0x00FF, 0x0F0F]) 1 = some 0xFFFF := by decide

theorem test_cmpF : regAfter (.cmpF 1 2) (ref [0, 0xFFFF, 1]) 1 = some 0 ∧
    regAfter (.cmpF 1 2) (ref [0, 5, 5]) 1 = some 0 := by decide

theorem test_cmpEq : regAfter (.cmpEq 1 2) (ref [0, 0xFFFF, 1]) 1 = some 0 ∧
    regAfter (.cmpEq 1 2) (ref [0, 5, 5]) 1 = some 1 := by decide

theorem test_cmpAb : regAfter (.cmpAb 1 2) (ref [0, 0xFFFF, 1]) 1 = some 1 ∧
    regAfter (.cmpAb 1 2) (ref [0, 5, 5]) 1 = some 0 := by decide

theorem test_cmpAbe : regAfter (.cmpAbe 1 2) (ref [0, 0xFFFF, 1]) 1 = some 1 ∧
    regAfter (.cmpAbe 1 2) (ref [0, 5, 5]) 1 = some 1 := by decide

theorem test_cmpSf : regAfter (.cmpSf 1 2) (ref [0, 0xFFFF, 1]) 1 = some 0 ∧
    regAfter (.cmpSf 1 2) (ref [0, 5, 5]) 1 = some 0 := by decide

theorem test_cmpSeq : regAfter (.cmpSeq 1 2) (ref [0, 0xFFFF, 1]) 1 = some 0 ∧
    regAfter (.cmpSeq 1 2) (ref [0, 5, 5]) 1 = some 1 := by decide

theorem test_cmpGt : regAfter (.cmpGt 1 2) (ref [0, 0xFFFF, 1]) 1 = some 0 ∧
    regAfter (.cmpGt 1 2) (ref [0, 5, 5]) 1 = some 0 := by decide

theorem test_cmpGte : regAfter (.cmpGte 1 2) (ref [0, 0xFFFF, 1]) 1 = some 0 ∧
    regAfter (.cmpGte 1 2) (ref [0, 5, 5]) 1 = some 1 := by decide

theorem test_cmpT : regAfter (.cmpT 1 2) (ref [0, 0xFFFF, 1]) 1 = some 1 ∧
    regAfter (.cmpT 1 2) (ref [0, 5, 5]) 1 = some 1 := by decide

theorem test_cmpNeq : regAfter (.cmpNeq 1 2) (ref [0, 0xFFFF, 1]) 1 = some 1 ∧
    regAfter (.cmpNeq 1 2) (ref [0, 5, 5]) 1 = some 0 := by decide

theorem test_cmpBle : regAfter (.cmpBle 1 2) (ref [0, 0xFFFF, 1]) 1 = some 0 ∧
    regAfter (.cmpBle 1 2) (ref [0, 5, 5]) 1 = some 1 := by decide

theorem test_cmpBl : regAfter (.cmpBl 1 2) (ref [0, 0xFFFF, 1]) 1 = some 0 ∧
    regAfter (.cmpBl 1 2) (ref [0, 5, 5]) 1 = some 0 := by decide

theorem test_cmpSt : regAfter (.cmpSt 1 2) (ref [0, 0xFFFF, 1]) 1 = some 1 ∧
    regAfter (.cmpSt 1 2) (ref [0, 5, 5]) 1 = some 1 := by decide

theorem test_cmpSneq : regAfter (.cmpSneq 1 2) (ref [0, 0xFFFF, 1]) 1 = some 1 ∧
    regAfter (.cmpSneq 1 2) (ref [0, 5, 5]) 1 = some 0 := by decide

theorem test_cmpLte : regAfter (.cmpLte 1 2) (ref [0, 0xFFFF, 1]) 1 = some 1 ∧
    regAfter (.cmpLte 1 2) (ref [0, 5, 5]) 1 = some 1 := by decide

theorem test_cmpLt : regAfter (.cmpLt 1 2) (ref [0, 0xFFFF, 1]) 1 = some 1 ∧
    regAfter (.cmpLt 1 2) (ref [0, 5, 5]) 1 = some 0 := by decide

theorem test_add : regAfter (.add 1 2) (ref [0, 0xFFFF, 0x2]) 1 = some 0x0001 := by decide

theorem test_sub : regAfter (.sub 1 2) (ref [0, 0x3, 0x5]) 1 = some 0xFFFE := by decide

theorem test_shl : regAfter (.shl 1 2) (ref [0, 0x8001, 0x1]) 1 = some 0x0002 := by decide

theorem test_shl_by_width : regAfter (.shl 1 2) (ref [0, 0x8001, 0x10]) 1 = some 0x0000 := by decide

theorem test_shr : regAfter (.shr 1 2) (ref [0, 0x8000, 0xF]) 1 = some 0x0001 := by decide

theorem test_shr_by_more : regAfter (.shr 1 2) (ref [0, 0x8000, 0xFFFF]) 1 = some 0x0000 := by decide

theorem test_asr : regAfter (.asr 1 2) (ref [0, 0x8000, 0xF]) 1 = some 0xFFFF := by decide

theorem test_asr_by_more : regAfter (.asr 1 2) (ref [0, 0x8000, 0x4000]) 1 = some 0xFFFF := by decide

theorem test_mul : regAfter (.mul 1 2) (ref [0, 0xFFFF, 0xFFFF]) 1 = some 0x0001 := by decide

theorem test_div : regAfter (.div 1 2) (ref [0, 0xFFFF, 0x2]) 1 = some 0x7FFF := by decide

theorem test_mod : regAfter (.mod 1 2) (ref [0, 0x64, 0x7]) 1 = some 0x0002 := by decide

theorem test_addi : regAfter (.addi 1 5) (ref [0, 0xA]) 1 = some 0x000F := by decide

theorem test_subi : regAfter (.subi 1 1) (ref [0, 0x0]) 1 = some 0xFFFF := by decide

theorem test_shli : regAfter (.shli 1 4) (ref [0, 0x123]) 1 = some 0x1230 := by decide

theorem test_shri : regAfter (.shri 1 4) (ref [0, 0xF000]) 1 = some 0x0F00 := by decide

theorem test_asri : regAfter (.asri 1 4) (ref [0, 0xF000]) 1 = some 0xFF00 := by decide

theorem test_muli : regAfter (.muli 1 10) (ref [0, 0x7]) 1 = some 0x0046 := by decide

theorem test_divi : regAfter (.divi 1 2) (ref [0, 0x7]) 1 = some 0x0003 := by decide

theorem test_modi : regAfter (.modi 1 7) (ref [0, 0x64]) 1 = some 0x0002 := by decide

theorem test_subw : regAfter (.subw 1 2 1) (ref [0, 0xABCD, 0x1]) 1 = some 0x00AB := by decide

theorem test_subw_past_top : regAfter (.subws 1 2 2) (ref [0, 0xABCD, 0x1]) 1 = some 0x00AB := by decide

theorem test_subws : regAfter (.subws 1 2 1) (ref [0, 0xABCD, 0x0]) 1 = some 0xFFCD := by decide

theorem test_subw_index_beyond : regAfter (.subw 1 2 1) (ref [0, 0xABCD, 0x2000]) 1 = some 0x0000 := by decide

theorem test_si : regAfter (.si 2 255) (ref [0, 0x0, 0x0]) 2 = some 0x00FF := by decide

theorem test_sel_nonzero : regAfter (.sel 1 2 3) (ref [0, 0x8000, 0xAA, 0xBB]) 1 = some 0x00AA := by decide

theorem test_sel_zero : regAfter (.sel 1 2 3) (ref [0, 0x0, 0xAA, 0xBB]) 1 = some 0x00BB := by decide

theorem test_swap : regAfter (.swap 1 2) (ref [0, 0x1111, 0x2222]) 1 = some 0x2222 := by decide

theorem test_swap_other : regAfter (.swap 1 2) (ref [0, 0x1111, 0x2222]) 2 = some 0x1111 := by decide

theorem test_mmul : regAfter (.mmul 1 2) (ref [0, 0x7, 0x6]) 1 = some 0x002A := by decide

theorem test_mdiv : regAfter (.mdiv 1 2) (ref [0, 0x64, 0x7]) 1 = some 0x000E := by decide

theorem test_mmod : regAfter (.mmod 1 2) (ref [0, 0x64, 0x7]) 1 = some 0x0002 := by decide

theorem test_ldreg : regAfter (.ldreg 1 2) (ref [0, 0x0, 0x3, 0xBEEF]) 1 = some 0xBEEF := by decide

theorem test_streg : regAfter (.streg 1 2) (ref [0, 0x1234, 0x3, 0x0]) 3 = some 0x1234 := by decide

theorem test_srr_word_size : regAfter (.srr 1 1) (ref [0, 0x0]) 1 = some 0x0010 := by decide

theorem test_srr_extensions : regAfter (.srr 2 7) (ref [0, 0x0, 0x0]) 2 = some 0x0001 := by decide

theorem test_bnz_taken : regAfter (.bnz 2 0xFE) (ref [0x10, 0x0, 0x1]) 0 = some 0x000C := by decide

theorem test_bnz_not_taken : regAfter (.bnz 2 0xFE) (ref [0x10, 0x0, 0x0]) 0 = some 0x0012 := by decide

theorem test_loop_taken : regAfter (.loop 1 15) (ref [0x10, 0x5]) 0 = some 0x000E := by decide

theorem test_loop_done : regAfter (.loop 1 15) (ref [0x10, 0x1]) 0 = some 0x0012 := by decide

theorem test_jz : regAfter (.jz 1 3) (ref [0x10, 0x0]) 0 = some 0x0016 := by decide

theorem test_jzr_wraps : regAfter (.jzr 1 2) (ref [0x10, 0x0, 0xFFF0]) 0 = some 0x0000 := by decide

theorem test_jnz : regAfter (.jnz 1 14) (ref [0x10, 0x1]) 0 = some 0x000C := by decide

theorem test_jnzr : regAfter (.jnzr 1 2) (ref [0x10, 0x5, 0x20]) 0 = some 0x0030 := by decide

theorem test_jgz : regAfter (.jgz 1 2) (ref [0x10, 0x7FFF]) 0 = some 0x0014 := by decide

theorem test_jgz_negative : regAfter (.jgz 1 2) (ref [0x10, 0x8000]) 0 = some 0x0012 := by decide

theorem test_jgzr : regAfter (.jgzr 1 2) (ref [0x10, 0x1, 0x8]) 0 = some 0x0018 := by decide

theorem test_jlz : regAfter (.jlz 1 2) (ref [0x10, 0x8000]) 0 = some 0x0014 := by decide

theorem test_jlzr : regAfter (.jlzr 1 2) (ref [0x10, 0xFFFF, 0xFFFC]) 0 = some 0x000C := by decide

theorem test_xf_register :
    regAfter (.xf ⟨1, false, .none⟩ ⟨2, false, .none⟩) (ref [0, 0, 0xBEEF]) 1 = some 0xBEEF := by decide

/-! ### Memory, system registers, exceptions -/

/-- R191: a load and a store, little-endian. -/
theorem test_xf_memory :
    regAfter (.xf ⟨1, false, .none⟩ ⟨2, true, .none⟩)
      (machine Config.reference [0, 0, 0x200] 0 [(0x200, 0x34), (0x201, 0x12)]) 1 = some 0x1234 ∧
    memOf (exec (.xf ⟨1, true, .none⟩ ⟨2, false, .none⟩) (ref [0, 0x200, 0xBEEF])) =
      some [(0x200, 0xEF), (0x201, 0xBE)] := by decide

/-- R198: the increment modes when one register is both operands. -/
theorem test_xf_same_register :
    memOf (exec (.xf ⟨1, true, .autoDec⟩ ⟨1, false, .none⟩) (ref [0, 0x200])) = some [(0x1FE, 0x00), (0x1FF, 0x02)] ∧
    regAfter (.xf ⟨1, true, .autoInc⟩ ⟨1, true, .autoInc⟩) (ref [0, 0x200]) 1 = some 0x204 := by decide

/-- R277: LDOFF with a negative offset. -/
theorem test_ldoff :
    regAfter (.ldoff 1 0xF) (machine Config.reference [0, 0x202] 0 [(0x200, 0x34), (0x201, 0x12)]) 1 = some 0x1234 := by
  decide

/-- R120 and R290: the worked examples. -/
theorem test_deg :
    exceptionState (exec .deg (machine Config.reference [0x100] 0x201 [])) = some (0x200, 0x102, 1, 1, 0x200) := by
  decide

theorem test_long :
    exceptionState (exec (.long 2 0xAB) (machine Config.reference [0x40] 0x201 [])) =
      some (0x200, 0x40, 3, 0, 0x200) := by decide

/-- R307: with FAULT_CONTINUATION = next, SR 8 holds the address after the long instruction. -/
theorem test_long_next :
    exceptionState (exec (.long 2 0xAB)
      (machine { Config.reference with faultContinuation := .next } [0x40] 0x201 [])) =
      some (0x200, 0x46, 3, 0, 0x200) := by decide

/-- R159, R308: a zero divisor, with exceptions enabled and disabled. -/
theorem test_div_by_zero :
    exceptionState (exec (.divi 1 0) (machine Config.reference [0x40, 7] 0x201 [])) =
      some (0x200, 0x40, 1, 0, 0x200) ∧
    faultOf (exec (.divi 1 0) (ref [0x40, 7])) = some .exceptionWhileDisabled := by decide

/-- R226: a write of SR 2, and a write of SR 4 that is not itself counted. -/
theorem test_srw :
    exceptionState (exec (.srw 1 2) (ref [0x40, 0x201])) = some (0x201, 0, 0, 1, 0x42) ∧
    exceptionState (exec (.srw 1 4) (ref [0x40, 0x64])) = some (0, 0, 0, 0x64, 0x42) := by decide

/-- R225: SRR R0, 8 returns to the continuation in SR 8. -/
theorem test_srr_return :
    regAfter (.srr 0 8) { cfg := Config.reference, arch := { (ref [0x200]).arch with sr8 := 0x102 } } 0 = some 0x102 := by
  decide

/-- R217: the worked examples with 32-bit words. -/
theorem test_subws_32 :
    regAfter (.subws 1 2 2) (machine big32 [0, 0x89ABCDEF, 2] 0 []) 1 = some 0xFFFF89AB ∧
    regAfter (.subw 1 2 3) (machine big32 [0, 0x89ABCDEF, 1] 0 []) 1 = some 0x0089ABCD := by decide

/-- R35, R330: a halted core takes no step; R311: an enabled request is served before the instruction. -/
theorem test_halted :
    (match exec (.srw 1 3) (ref [0x40, 1]) with
      | .next t => faultOf (step t)
      | _ => none) = some .halted := by decide

theorem test_interrupt :
    exceptionState (step { cfg := mapped, arch := { (machine mapped [0x40] 0x301 []).arch with pending := [0x100] } }) =
      some (0x300, 0x40, 0x100, 0, 0x300) := by decide

/-- R102, R302: the step on a reserved word, placed where it fetches. -/
theorem test_step_reserved :
    exceptionState (step ((machine Config.reference [0x40] 0x201 []).withFetchWord 16 0x0123)) =
      some (0x200, 0x40, 3, 0, 0x200) := by decide

/-- R50, R342: reset, and the first step with an image that has a word of zeros at RESET_PC, which is DEG. -/
theorem test_reset :
    exceptionState (.next State.reset) = some (0, 0, 0, 0, 0) ∧
    exceptionState (step (State.resetOf Config.reference [(0, 0), (1, 0)])) = some (0, 2, 1, 1, 0) := by decide

/-- R342: an image of three instructions, and the two of them that the first two steps run. -/
theorem test_image :
    (State.reset.withBytes 0 [0x51, 0x28, 0x51, 0x28, 0, 0]).arch.mem =
      [(0, 0x51), (1, 0x28), (2, 0x51), (3, 0x28), (4, 0), (5, 0)] ∧
    regOf (Host.Core.run Sys2Proof.core 2 (State.reset.withBytes 0 [0x51, 0x28, 0x51, 0x28, 0, 0])) 1 = some 10 := by
  decide

/-! ### Witnesses: the hypotheses of each statement can be met, each clause's at its boundary -/

theorem witness_decodeInvertsEncode : (Instr.subws 15 15 8).WellFormed ∧ (Instr.subw 0 0 1).WellFormed := by decide

theorem witness_encodeInvertsDecode : ∃ i, decode 0xFFFF = .ok i := ⟨_, rfl⟩

theorem witness_reservedWordsOnly :
    decode 0x0001 = .error (.reserved 0x0001) ∧ decode 0x0FFF = .error (.reserved 0x0FFF) := ⟨rfl, rfl⟩

theorem witness_bytesDecodeInEitherOrder :
    (Instr.subw 0 0 8).WellFormed ∧ ([0x51] : List Byte).length < 2 := by decide

theorem witness_bitwiseTruthTable : ∃ (s : State) (k : Nat), 15 < 16 ∧ k < s.W ∧ ¬ k + 1 < s.W :=
  ⟨State.reset, 15, by decide⟩

theorem witness_ordinaryInstructionAdvances : 15 < 16 ∧ 1 < 2 := by decide

theorem witness_multiplyKeepsLowWord :
    (ref []).cfg.hasMul = true ∧ { noMul with miscMulDivNeedsMul := false }.miscMulDivNeedsMul = false := by decide

theorem witness_divideAndRemainder : ∃ (s : State) (r : Reg) (n : BitVec 4),
    s.cfg.hasMul = true ∧ s.arch.reg r ≠ 0 ∧ zext s.W n ≠ 0 :=
  ⟨ref [0, 7, 1], 2, 15, by decide⟩

theorem witness_divideByZeroTraps : ∃ (s : State) (r : Reg) (n : BitVec 4),
    s.cfg.hasMul = true ∧ s.arch.reg r = 0 ∧ zext s.W n = 0 ∧ s.arch.exceptionsEnabled = true :=
  ⟨machine Config.reference [0x40, 7, 0] 0x201 [], 2, 0, by decide⟩

theorem witness_divideByZeroTraps_disabled : ∃ (s : State) (r : Reg) (n : BitVec 4),
    (s.cfg.hasMul = true ∨ s.cfg.miscMulDivNeedsMul = false) ∧ s.arch.reg r = 0 ∧ zext s.W n = 0 ∧
      s.arch.exceptionsEnabled = false :=
  ⟨machine { noMul with miscMulDivNeedsMul := false } [0x40, 7, 0] 0x200 [], 2, 0, by decide⟩

theorem witness_missingMultiplierIsIllegal : ∃ s : State,
    s.cfg.hasMul = false ∧ s.cfg.miscMulDivNeedsMul = true ∧ s.arch.exceptionsEnabled = true :=
  ⟨machine noMul [0x40, 7, 0] 0x201 [], by decide⟩

theorem witness_unsignedComparisons : ∃ (s : State) (a b yes no : BitVec s.W),
    a = s.arch.reg 1 ∧ b = s.arch.reg 2 ∧ yes = BitVec.ofNat s.W 1 ∧ no = BitVec.ofNat s.W 0 :=
  ⟨ref [0, 0xFFFF, 1], _, _, _, _, rfl, rfl, rfl, rfl⟩

theorem witness_signedComparisons : ∃ (s : State) (a b yes no : BitVec s.W),
    a = s.arch.reg 1 ∧ b = s.arch.reg 2 ∧ yes = BitVec.ofNat s.W 1 ∧ no = BitVec.ofNat s.W 0 :=
  ⟨ref [0, 0x8000, 0x7FFF], _, _, _, _, rfl, rfl, rfl, rfl⟩

theorem witness_invertedComparisons : 7 < 8 := by decide

theorem witness_sourceOperandForms_direct : ∃ (s : State) (src : Operand) (a : BitVec s.W),
    a = s.operandValue src ∧ src.indirect = false :=
  ⟨ref [0, 0], ⟨1, false, .autoDec⟩, _, rfl, rfl⟩

/-- The last word of the address space. -/
theorem witness_sourceOperandForms_plain : ∃ (s : State) (src : Operand) (a : BitVec s.W),
    a = s.operandValue src ∧ src.indirect = true ∧ s.PlainAccess a s.cfg.wordBytes :=
  ⟨ref [0, 0], ⟨1, true, .autoDec⟩, _, rfl, rfl, by decide⟩

theorem witness_sourceOperandForms_device : ∃ (s : State) (src : Operand) (a : BitVec s.W),
    a = s.operandValue src ∧ src.indirect = true ∧ a.toNat % s.cfg.wordBytes = 0 ∧
      accessKind s.cfg (accessAddrs s.W a.toNat s.cfg.wordBytes) = .device :=
  ⟨machine mapped [0, 0x110] 0 [], ⟨1, true, .autoDec⟩, _, rfl, rfl, by decide⟩

theorem witness_sourceOperandForms_misaligned : ∃ (s : State) (src : Operand) (a : BitVec s.W),
    a = s.operandValue src ∧ src.indirect = true ∧ a.toNat % s.cfg.wordBytes ≠ 0 :=
  ⟨ref [0, 1], ⟨1, true, .none⟩, _, rfl, rfl, by decide⟩

theorem witness_sourceOperandForms_unmapped : ∃ (s : State) (src : Operand) (a : BitVec s.W),
    a = s.operandValue src ∧ src.indirect = true ∧ a.toNat % s.cfg.wordBytes = 0 ∧
      accessKind s.cfg (accessAddrs s.W a.toNat s.cfg.wordBytes) = .nothing :=
  ⟨machine mapped [0, 0x200] 0 [], ⟨1, true, .none⟩, _, rfl, rfl, by decide⟩

/-- Destination R0; then another destination with a source that spares the program counter, and one that does not. -/
theorem witness_transferToRegister : ∃ (s : State) (dst src : Operand) (v : BitVec s.W) (k : Run s.W),
    dst.indirect = false ∧ dst.reg = 0 ∧ readOperand s.cfg src (Run.start s.arch) = .ok (v, k) :=
  ⟨ref [0, 0x200], ⟨0, false, .none⟩, ⟨1, true, .autoInc⟩, _, _, rfl, rfl, rfl⟩

theorem witness_transferToRegister_spared : ∃ (s : State) (dst src : Operand) (v : BitVec s.W) (k : Run s.W),
    dst.indirect = false ∧ dst.reg ≠ 0 ∧ sparesPc src ∧ readOperand s.cfg src (Run.start s.arch) = .ok (v, k) :=
  ⟨ref [0x10, 0x200], ⟨1, false, .autoInc⟩, ⟨0, false, .none⟩, _, _, rfl, by decide, by decide, rfl⟩

theorem witness_transferToRegister_unspared : ∃ (s : State) (dst src : Operand) (v : BitVec s.W) (k : Run s.W),
    dst.indirect = false ∧ dst.reg ≠ 0 ∧ ¬ sparesPc src ∧ readOperand s.cfg src (Run.start s.arch) = .ok (v, k) :=
  ⟨ref [0x10, 0x200], ⟨1, false, .none⟩, ⟨0, true, .autoInc⟩, _, _, rfl, by decide, by decide, rfl⟩

/-- A push at the bottom of the address space wraps to its last word. -/
theorem witness_transferToMemory : ∃ (s : State) (dst src : Operand) (v : BitVec s.W) (k : Run s.W),
    s.Inv ∧ dst.indirect = true ∧ readOperand s.cfg src (Run.start s.arch) = .ok (v, k) ∧
      s.PlainAccess (destAddr s.cfg dst k) s.cfg.wordBytes ∧ sparesPc src ∧ sparesPc dst :=
  ⟨ref [0x10, 0, 0xBEEF], ⟨1, true, .autoDec⟩, ⟨2, false, .none⟩, _, _, by decide, rfl, rfl, by decide,
    by decide, by decide⟩

theorem witness_transferToMemory_unspared : ∃ (s : State) (dst src : Operand) (v : BitVec s.W) (k : Run s.W),
    s.Inv ∧ dst.indirect = true ∧ readOperand s.cfg src (Run.start s.arch) = .ok (v, k) ∧
      s.PlainAccess (destAddr s.cfg dst k) s.cfg.wordBytes ∧ ¬ (sparesPc src ∧ sparesPc dst) :=
  ⟨ref [0x10, 0, 0xBEEF], ⟨0, true, .autoInc⟩, ⟨2, false, .none⟩, _, _, by decide, rfl, rfl, by decide,
    by decide⟩

theorem witness_transferToFaultOrDevice_misaligned : ∃ (s : State) (dst src : Operand) (v a : BitVec s.W) (k : Run s.W),
    dst.indirect = true ∧ readOperand s.cfg src (Run.start s.arch) = .ok (v, k) ∧ a = destAddr s.cfg dst k ∧
      a.toNat % s.cfg.wordBytes ≠ 0 :=
  ⟨ref [0x10, 1], ⟨1, true, .autoDec⟩, ⟨2, false, .none⟩, _, _, _, rfl, rfl, rfl, by decide⟩

theorem witness_transferToFaultOrDevice_unmapped : ∃ (s : State) (dst src : Operand) (v a : BitVec s.W) (k : Run s.W),
    dst.indirect = true ∧ readOperand s.cfg src (Run.start s.arch) = .ok (v, k) ∧ a = destAddr s.cfg dst k ∧
      a.toNat % s.cfg.wordBytes = 0 ∧ accessKind s.cfg (accessAddrs s.W a.toNat s.cfg.wordBytes) = .nothing :=
  ⟨machine mapped [0x10, 0x20E] 0 [], ⟨1, true, .none⟩, ⟨2, false, .none⟩, _, _, _, rfl, rfl, rfl, by decide⟩

theorem witness_transferToFaultOrDevice_device : ∃ (s : State) (dst src : Operand) (v a : BitVec s.W) (k : Run s.W),
    dst.indirect = true ∧ readOperand s.cfg src (Run.start s.arch) = .ok (v, k) ∧ a = destAddr s.cfg dst k ∧
      a.toNat % s.cfg.wordBytes = 0 ∧ accessKind s.cfg (accessAddrs s.W a.toNat s.cfg.wordBytes) = .device ∧
      sparesPc src ∧ sparesPc dst :=
  ⟨machine mapped [0x10, 0x100] 0 [], ⟨1, true, .none⟩, ⟨2, false, .none⟩, _, _, _, rfl, rfl, rfl, by decide⟩

theorem witness_transferToFaultOrDevice_unspared : ∃ (s : State) (dst src : Operand) (v a : BitVec s.W) (k : Run s.W),
    dst.indirect = true ∧ readOperand s.cfg src (Run.start s.arch) = .ok (v, k) ∧ a = destAddr s.cfg dst k ∧
      a.toNat % s.cfg.wordBytes = 0 ∧ accessKind s.cfg (accessAddrs s.W a.toNat s.cfg.wordBytes) = .device ∧
      ¬ (sparesPc src ∧ sparesPc dst) :=
  ⟨machine mapped [0x10, 0x10E] 0 [], ⟨1, true, .none⟩, ⟨0, false, .autoInc⟩, _, _, _, rfl, rfl, rfl, by decide⟩

theorem witness_immediateJumps : ∃ (s : State) (off : BitVec 8) (imm : BitVec 4) (next target far : BitVec s.W),
    next = s.arch.reg 0 + BitVec.ofNat s.W 2 ∧ target = s.arch.reg 0 + BitVec.ofInt s.W (2 * imm.toInt) ∧
      far = s.arch.reg 0 + BitVec.ofInt s.W (2 * off.toInt) :=
  ⟨ref [0x10, 1], 0x80, 8, _, _, _, rfl, rfl, rfl⟩

theorem witness_indirectJumps : ∃ (s : State) (b : Reg) (next target : BitVec s.W),
    next = s.arch.reg 0 + BitVec.ofNat s.W 2 ∧ target = s.arch.reg 0 + s.arch.reg b :=
  ⟨ref [0x10, 1, 0xFFF0], 2, _, _, rfl, rfl⟩

theorem witness_loopDecrementsAndJumps : ∃ (s : State) (a : Reg) (b : BitVec 4) (v off : BitVec s.W)
    (x : Reg → BitVec s.W), v = s.arch.reg a - BitVec.ofNat s.W 1 ∧ x = Function.update s.arch.reg a v ∧
      off = (if s.cfg.misc0111 = .loop then BitVec.ofInt s.W (2 * b.toInt) else x ⟨b.toNat, b.isLt⟩) ∧ v ≠ 0 :=
  ⟨ref [0x10, 0], 1, 8, _, _, _, rfl, rfl, rfl, by decide⟩

/-- LOOP INDIRECT by the counter itself, and the last turn. -/
theorem witness_loopDecrementsAndJumps_indirect : ∃ (s : State) (a : Reg) (b : BitVec 4) (v off : BitVec s.W)
    (x : Reg → BitVec s.W), v = s.arch.reg a - BitVec.ofNat s.W 1 ∧ x = Function.update s.arch.reg a v ∧
      off = (if s.cfg.misc0111 = .loop then BitVec.ofInt s.W (2 * b.toInt) else x ⟨b.toNat, b.isLt⟩) ∧
      s.cfg.misc0111 = .loopIndirect ∧ v = 0 :=
  ⟨machine { Config.reference with misc0111 := .loopIndirect } [1] 0 [], 0, 0, _, _, _, rfl, rfl, rfl, rfl, by decide⟩

theorem witness_subwordBits : ∃ (s : State) (k : Nat), 1 ≤ 1 ∧ 8 ≤ 8 ∧ k < s.W ∧ 8 * 1 ≤ k :=
  ⟨State.reset, 8, by decide⟩

theorem witness_undefinedSystemRegisterStops :
    11 ≤ (11 : BitVec 8).toNat ∧ 11 ≤ (191 : BitVec 8).toNat ∧ 11 ≤ (192 : BitVec 8).toNat ∧
      11 ≤ (255 : BitVec 8).toNat := by decide

theorem witness_powerStateWrites : ∃ s : State, s.arch.reg 1 = BitVec.ofNat s.W 1 ∧ 1 ≤ s.W ∧
    s.arch.reg 2 = BitVec.ofNat s.W 0 ∧ 2 ≤ (s.arch.reg 3).toNat ∧ 2 ≤ (s.arch.reg 4).toNat :=
  ⟨ref [0, 1, 0, 2, 0xFFFF], by decide⟩

theorem witness_haltedIsFinal : ∃ (s t : State) (m : Arch s.W), t.arch.halted = true ∧
    s.Completes (.srw 1 3) m ∧ s.arch.halted = false ∧ m.halted = true :=
  ⟨ref [0, 1], { cfg := Config.reference, arch := { State.reset.arch with halted := true } }, _, rfl, rfl, rfl, rfl⟩

theorem witness_indexedRegisters : ∃ s : State, (s.arch.reg 1).toNat = (0 : Reg).val ∧
    (s.arch.reg 2).toNat = (15 : Reg).val ∧ 16 ≤ (s.arch.reg 3).toNat :=
  ⟨ref [0, 0, 15, 16], by decide⟩

theorem witness_loadOffset_plain : ∃ (s : State) (a : Reg) (imm : BitVec 4) (addr : BitVec s.W),
    addr = s.arch.reg a + BitVec.ofInt s.W (imm.toInt * s.cfg.wordBytes) ∧ s.PlainAccess addr s.cfg.wordBytes :=
  ⟨ref [0, 0], 1, 8, _, rfl, by decide⟩

theorem witness_loadOffset_misaligned : ∃ (s : State) (a : Reg) (imm : BitVec 4) (addr : BitVec s.W),
    addr = s.arch.reg a + BitVec.ofInt s.W (imm.toInt * s.cfg.wordBytes) ∧ addr.toNat % s.cfg.wordBytes ≠ 0 :=
  ⟨ref [0, 1], 1, 7, _, rfl, by decide⟩

theorem witness_loadOffset_unmapped : ∃ (s : State) (a : Reg) (imm : BitVec 4) (addr : BitVec s.W),
    addr = s.arch.reg a + BitVec.ofInt s.W (imm.toInt * s.cfg.wordBytes) ∧ addr.toNat % s.cfg.wordBytes = 0 ∧
      accessKind s.cfg (accessAddrs s.W addr.toNat s.cfg.wordBytes) = .nothing :=
  ⟨machine mapped [0, 0x200] 0 [], 1, 7, _, rfl, by decide⟩

theorem witness_loadOffset_device : ∃ (s : State) (a : Reg) (imm : BitVec 4) (addr : BitVec s.W),
    addr = s.arch.reg a + BitVec.ofInt s.W (imm.toInt * s.cfg.wordBytes) ∧ addr.toNat % s.cfg.wordBytes = 0 ∧
      accessKind s.cfg (accessAddrs s.W addr.toNat s.cfg.wordBytes) = .device :=
  ⟨machine mapped [0, 0x110] 0 [], 1, 8, _, rfl, by decide⟩

theorem witness_longInstructionIsIllegal : ∃ s t : State,
    s.arch.exceptionsEnabled = true ∧ t.arch.exceptionsEnabled = false :=
  ⟨machine Config.reference [] 1 [], State.reset, by decide⟩

theorem witness_trapEntrySequence : ∃ s : State, s.arch.exceptionsEnabled = true :=
  ⟨machine Config.reference [] 1 [], by decide⟩

theorem witness_interruptAtBoundary : ∃ s : State, s.arch.halted = false ∧ s.InterruptTaken :=
  ⟨{ cfg := mapped, arch := { (machine mapped [0x40] 0x301 []).arch with pending := [0x100] } }, by decide⟩

/-- An instruction that is counted, one that writes SR 4 and one that traps. -/
theorem witness_retiredOrPreciselyTrapped : ∃ (s : State) (m m' m'' : Arch s.W),
    s.Completes (.add 1 2) m ∧ s.Completes (.srw 1 4) m' ∧ s.Completes (.divi 1 0) m'' :=
  ⟨machine Config.reference [0x40, 7] 0x201 [], _, _, _, rfl, rfl, rfl⟩

theorem witness_exceptionRegisterWriters : ∃ (s : State) (m m' m'' : Arch s.W),
    s.Completes (.srw 1 8) m ∧ s.Completes .deg m' ∧ s.Completes (.divi 1 0) m'' :=
  ⟨machine Config.reference [0x40, 7] 0x201 [], _, _, _, rfl, rfl, rfl⟩

/-- At the last instruction address of the address space. -/
theorem witness_stepRunsDecoded : ∃ (s : State) (i : Instr), s.Fetching ∧ s.PlainAccess (s.arch.reg 0) 2 ∧
    decodeBytes s.cfg.byteOrder ((accessAddrs s.W (s.arch.reg 0).toNat 2).map (Memory.read s.arch.mem)) =
      .ok (i, []) :=
  ⟨machine Config.reference [0xFFFE] 0 [(0xFFFE, 0x51), (0xFFFF, 0x28)], .addi 1 5, by decide, by decide, rfl⟩

theorem witness_stepRunsDecoded_fetch : ∃ (s : State) (i : Instr) (w : IWord) (m : Arch s.W), s.Fetching ∧
    fetch s.cfg s.arch = .ok (w, m) ∧ decode w = .ok i :=
  ⟨State.resetOf Config.reference [(0, 0), (1, 0)], .deg, _, _, by decide, rfl, rfl⟩

theorem witness_placedInstructionRuns : ∃ (s : State) (i : Instr), s.Inv ∧ s.Fetching ∧ i.WellFormed ∧
    s.PlainAccess (s.arch.reg 0) 2 :=
  ⟨State.reset, .subw 1 2 8, by decide, by decide, by decide, by decide⟩

theorem witness_stepOnReservedWord : ∃ (s : State) (w : IWord), s.Fetching ∧ s.PlainAccess (s.arch.reg 0) 2 ∧
    1 ≤ w.toNat ∧ w.toNat ≤ 0x0FFF ∧
    (accessAddrs s.W (s.arch.reg 0).toNat 2).map (Memory.read s.arch.mem) = wordBytesOf s.cfg.byteOrder w ∧
    s.arch.exceptionsEnabled = true :=
  ⟨machine Config.reference [0x40] 0x201 [(0x40, 1), (0x41, 0)], 1, by decide, by decide, by decide, by decide,
    by decide, by decide⟩

theorem witness_stepOnReservedWord_disabled : ∃ (s : State) (w : IWord), s.Fetching ∧
    s.PlainAccess (s.arch.reg 0) 2 ∧ 1 ≤ w.toNat ∧ w.toNat ≤ 0x0FFF ∧
    (accessAddrs s.W (s.arch.reg 0).toNat 2).map (Memory.read s.arch.mem) = wordBytesOf s.cfg.byteOrder w ∧
    s.arch.exceptionsEnabled = false :=
  ⟨machine big32 [0x40] 0x200 [(0x40, 0x0F), (0x41, 0xFF)], 0x0FFF, by decide, by decide, by decide,
    by decide, by decide, by decide⟩

theorem witness_fetchFaults : ∃ s t : State, s.Fetching ∧ (s.arch.reg 0).toNat % 2 = 1 ∧ t.Fetching ∧
    (t.arch.reg 0).toNat % 2 = 0 ∧ accessKind t.cfg (accessAddrs t.W (t.arch.reg 0).toNat 2) = .nothing :=
  ⟨ref [0xFFFF], machine mapped [0x200] 0 [], by decide⟩

/-- The last instruction of a device region. -/
theorem witness_deviceFetch : ∃ s : State, (s.arch.reg 0).toNat % 2 = 0 ∧
    accessKind s.cfg (accessAddrs s.W (s.arch.reg 0).toNat 2) = .device ∧ s.Fetching :=
  ⟨machine mapped [0x10E] 0 [], by decide⟩

theorem witness_loadedWordBytes : ∃ (s : State) (a : BitVec s.W),
    s.PlainAccess a s.cfg.wordBytes ∧ 3 < s.cfg.wordBytes ∧ s.cfg.byteOrder = .big :=
  ⟨machine big32 [] 0 [], 0xFFFFFFFC, by decide⟩

theorem witness_loadedWordBytes_little : ∃ (s : State) (a : BitVec s.W),
    s.PlainAccess a s.cfg.wordBytes ∧ 1 < s.cfg.wordBytes ∧ s.cfg.byteOrder = .little :=
  ⟨State.reset, 0xFFFE, by decide⟩

theorem witness_storedWordBytes : ∃ (s : State) (a : BitVec s.W), s.Inv ∧ s.PlainAccess a s.cfg.wordBytes ∧
    3 < s.cfg.wordBytes ∧ s.cfg.byteOrder = .big ∧ 0 ∉ accessAddrs s.W a.toNat s.cfg.wordBytes :=
  ⟨machine big32 [] 0 [], 0xFFFFFFFC, by decide⟩

theorem witness_storedWordBytes_little : ∃ (s : State) (a : BitVec s.W), s.Inv ∧
    s.PlainAccess a s.cfg.wordBytes ∧ 1 < s.cfg.wordBytes ∧ s.cfg.byteOrder = .little :=
  ⟨State.reset, 0xFFFE, by decide⟩

/-- The second instruction of a big-endian word of two. -/
theorem witness_storeThenFetch : ∃ (s : State) (a v : BitVec s.W) (m : Arch s.W) (k : Nat), s.Inv ∧
    s.PlainAccess a s.cfg.wordBytes ∧ storeWord s.cfg a v s.arch = .ok m ∧ 2 * k + 2 ≤ s.cfg.wordBytes ∧
    (a + BitVec.ofNat s.W (2 * k)).toNat % 2 = 0 ∧ s.cfg.byteOrder = .big :=
  ⟨machine big32 [] 0 [], 0xFFFFFFFC, 0x28511021, _, 1, by decide, by decide, rfl, by decide, by decide,
    rfl⟩

theorem witness_storeThenFetch_little : ∃ (s : State) (a v : BitVec s.W) (m : Arch s.W) (k : Nat), s.Inv ∧
    s.PlainAccess a s.cfg.wordBytes ∧ storeWord s.cfg a v s.arch = .ok m ∧ 2 * k + 2 ≤ s.cfg.wordBytes ∧
    (a + BitVec.ofNat s.W (2 * k)).toNat % 2 = 0 ∧ s.cfg.byteOrder = .little :=
  ⟨State.reset, 0, 0x2851, _, 0, by decide, by decide, rfl, by decide, by decide, rfl⟩

theorem witness_onlyTransfersStore : ∃ (s : State) (m m' : Arch s.W),
    s.Completes (.xf ⟨1, true, .none⟩ ⟨2, false, .none⟩) m ∧ s.Completes (.ldoff 1 0) m' :=
  ⟨ref [0, 0x200, 7], _, _, rfl, rfl⟩

theorem witness_stepKeepsInvariant : ∃ s t : State, s.Inv ∧ step s = .next t :=
  ⟨State.resetOf Config.reference [(0, 0), (1, 0)], _, by decide, rfl⟩

/-- An image with a zero byte and the last byte of the address space. -/
theorem witness_resetMeetsInvariant : mapped.WellFormed ∧ Memory.wf [(0, 0), (0xFFFF, 7)] ∧
    ∀ x ∈ [((0, 0) : Host.Cell), (0xFFFF, 7)], x.1 < 2 ^ mapped.wordBits := by decide

/-- An address the image covers, one it does not, and an image that wraps at the top of the address space. -/
theorem witness_platformImage : ∃ (s : State) (bs : List Byte), 0 ∈ ([(0, 0)] : List Host.Cell).map Prod.fst ∧
    1 ∉ ([(0, 0)] : List Host.Cell).map Prod.fst ∧ s.Inv ∧ bs.length ≤ 2 ^ s.W ∧
    accessAddrs s.W 0xFFFF bs.length = [0xFFFF, 0] ∧ 1 ∉ accessAddrs s.W 0xFFFF bs.length :=
  ⟨State.reset, [1, 2], by decide⟩

theorem witness_runsKeepInvariant : ∃ s t : State, s.Inv ∧ Host.Core.run Sys2Proof.core 2 s = .next t :=
  ⟨State.resetOf Config.reference [(0, 0), (1, 0)], _, by decide, rfl⟩

theorem witness_stepKeepsPlatform : ∃ s t : State, step s = .next t :=
  ⟨State.resetOf Config.reference [(0, 0), (1, 0)], _, rfl⟩

theorem witness_debugStreamAppendOnly : ∃ (s : State) (m m' : Arch s.W),
    s.Completes (.srw 1 10) m ∧ s.Completes (.add 1 2) m' :=
  ⟨ref [0, 0x141], _, _, rfl, rfl⟩

/-- A step that gives a next state and one that stops, both with exceptions disabled. -/
theorem witness_maskedRequestsAndDebugUnseen : ∃ (s t : State) (m : Arch s.W),
    s.arch.exceptionsEnabled = false ∧ step s = .next { cfg := s.cfg, arch := m } ∧
      t.arch.exceptionsEnabled = false ∧ step t = .fault .misalignedFetch :=
  ⟨State.resetOf Config.reference [(0, 0), (1, 0)], ref [1], _, by decide, rfl, by decide, rfl⟩

/-- The same with exceptions enabled, where the requests are the machine's own: an interrupt taken, and a stop. -/
theorem witness_maskedRequestsAndDebugUnseen_enabled : ∃ (s t : State) (m : Arch s.W),
    s.arch.exceptionsEnabled = true ∧ s.arch.pending ≠ [] ∧ step s = .next { cfg := s.cfg, arch := m } ∧
      t.arch.exceptionsEnabled = true ∧ step t = .fault .misalignedFetch :=
  ⟨{ cfg := mapped, arch := { (machine mapped [0x40] 0x301 []).arch with pending := [0x100] } },
    machine Config.reference [1] 1 [], _, by decide, by decide, rfl, by decide, rfl⟩

end Sys2Proof.Tests
end

section
/-!
The distinguished exception generator (40_exception_generator.md): what its pseudocode leaves, and that it enters the
handler in every state.
-/

namespace Sys2Proof.Machine

section HandlerBits
variable {W : Nat} (cause cont : BitVec W) (m : Arch W)

/-- Entering the handler disables exceptions. -/
theorem trapEntry_sr2_getLsbD_zero : (trapEntry cause cont m).sr2.getLsbD 0 = false := by
  simp only [trapEntry_sr2, BitVec.getLsbD_and, BitVec.getLsbD_not, BitVec.getLsbD_one]
  cases W <;> simp

/-- Entering the handler keeps the address part of SR 2; bits at or above the word size are zero on both sides. -/
theorem trapEntry_sr2_getLsbD_of_pos {i : Nat} (hi : 1 ≤ i) :
    (trapEntry cause cont m).sr2.getLsbD i = m.sr2.getLsbD i := by
  have hne : i ≠ 0 := by omega
  simp only [trapEntry_sr2, BitVec.getLsbD_and, BitVec.getLsbD_not, BitVec.getLsbD_one, hne]
  by_cases hW : i < W
  · simp [hW]
  · simp [BitVec.getLsbD_of_ge _ _ (Nat.le_of_not_lt hW)]

/-- The program counter after the entry is the new SR 2. -/
theorem trapEntry_reg_zero : (trapEntry cause cont m).reg 0 = (trapEntry cause cont m).sr2 := by
  rw [trapEntry_reg, if_pos rfl, trapEntry_sr2]

theorem trapEntry_reg_ne {j : Reg} (hj : j ≠ 0) : (trapEntry cause cont m).reg j = m.reg j := by
  rw [trapEntry_reg, if_neg hj]

end HandlerBits

section Generator
variable {W : Nat} (k : Run W)

@[simp] theorem generateException_arch : (generateException k).arch =
    trapEntry (BitVec.ofNat W 1) (k.reg 0 + BitVec.ofNat W 2) k.arch := rfl
@[simp] theorem generateException_pcWritten : (generateException k).pcWritten = true := rfl
@[simp] theorem generateException_sr4Written : (generateException k).sr4Written = k.sr4Written := rfl

/-- The generator is a control transfer: no register advances after it. -/
theorem retire_generateException_reg (j : Reg) :
    (retire (generateException k)).reg j = (generateException k).arch.reg j := by
  simp [retire_reg]

end Generator

/-- DEG completes in every state, whatever bit 0 of SR 2 is (rule R120). -/
theorem completes_deg (s : State) : s.Completes .deg (retire (generateException (Run.start s.arch))) :=
  executeOk_eq s generateException

/-- Settles O38: the state DEG leaves is the retired trap entry, whose parts are read off the rules for `trapEntry` and
`retire`. -/
theorem generatorEntersHandler : Obligations.GeneratorEntersHandler := by
  refine ⟨rfl, fun s => ⟨retire (generateException (Run.start s.arch)), completes_deg s, ⟨?bit0, ?bits⟩, ?sr8, ?pc,
    ?sr9, ?sr4, ?regs, ?mem, ?halted, ?pending, ?debugOut, ?bus⟩⟩
  case bit0 =>
    rw [retire_sr2, generateException_arch, trapEntry_sr2_getLsbD_zero]
  case bits =>
    intro i hi
    rw [retire_sr2, generateException_arch, trapEntry_sr2_getLsbD_of_pos _ _ _ hi, Run.start_arch]
  case pc =>
    rw [retire_generateException_reg, retire_sr2, generateException_arch, trapEntry_reg_zero]
  case regs =>
    intro j hj
    rw [retire_generateException_reg, generateException_arch, trapEntry_reg_ne _ _ _ hj, Run.start_arch]
  case sr8 | sr9 | sr4 | mem | halted | pending | debugOut | bus => simp

end Sys2Proof.Machine
end

section
/-!
The fields of a word of four nibbles (30_encoding.md rule R91), as the decoder reads them.
-/

namespace Sys2Proof.Machine

section NibbleFields
variable (d r : Reg) {cls op mid low : Nat}

theorem slice_nibbles_class (hc : cls < 16) (ho : op < 16) (hm : mid < 16) (hl : low < 16) :
    slice (nibbles cls op mid low) 12 4 = cls := by
  simp only [slice, nibbles, BitVec.toNat_ofNat]
  omega

theorem slice_nibbles_op (ho : op < 16) (hm : mid < 16) (hl : low < 16) :
    slice (nibbles cls op mid low) 8 4 = op := by
  simp only [slice, nibbles, BitVec.toNat_ofNat]
  omega

theorem slice_nibbles_mid (hm : mid < 16) (hl : low < 16) : slice (nibbles cls op mid low) 4 4 = mid := by
  simp only [slice, nibbles, BitVec.toNat_ofNat]
  omega

theorem slice_nibbles_low (hl : low < 16) : slice (nibbles cls op mid low) 0 4 = low := by
  simp only [slice, nibbles, BitVec.toNat_ofNat]
  omega

theorem regField_nibbles_mid (hl : low < 16) : regField (nibbles cls op r low) 4 = r := by
  rw [regField, slice_nibbles_mid r.isLt hl, Fin.ofNat_val_eq_self]

theorem regField_nibbles_low : regField (nibbles cls op mid d) 0 = d := by
  rw [regField, slice_nibbles_low d.isLt, Fin.ofNat_val_eq_self]

end NibbleFields

/-- Format BW: class 1, the table's number, S, D. -/
theorem decode_nibbles_bitwise {m : Nat} (hm : m < 16) (d r : Reg) :
    decode (nibbles 1 m r d) = .ok (decodeBitwise m d r) := by
  simp only [decode, slice_nibbles_class (by decide : 1 < 16) hm r.isLt d.isLt, slice_nibbles_op hm r.isLt d.isLt,
    regField_nibbles_mid r d.isLt, regField_nibbles_low d]

/-- The same, of the word as the rules of 41_bitwise.md write it. -/
theorem decode_bitwise_word {m : Nat} (hm : m < 16) (d r : Reg) :
    decode (BitVec.ofNat 16 (0x1000 + 0x100 * m + 16 * r + d)) = .ok (decodeBitwise m d r) := by
  rw [← decode_nibbles_bitwise hm, nibbles, Nat.one_mul, Nat.mul_comm m, Nat.mul_comm r.val]

end Sys2Proof.Machine
end

section
/-!
Instructions whose pseudocode writes one register: what they change and what they keep.
-/

namespace Sys2Proof.Machine

section RetiredWrite
variable {W : Nat} (m : Arch W) (d : Reg) (v : BitVec W)

/-- The written register, the program counter included, keeps the written value when the instruction retires. -/
theorem retire_setReg_reg_self : (retire ((Run.start m).setReg d v)).reg d = v := by
  rw [retire_reg]
  by_cases hd : d = 0 <;> simp [hd]

theorem retire_setReg_reg_ne {j : Reg} (hd : j ≠ d) (h0 : j ≠ 0) :
    (retire ((Run.start m).setReg d v)).reg j = m.reg j := by
  rw [retire_reg_ne _ h0, Run.setReg_arch, Arch.reg_setReg_ne _ _ _ hd.symm, Run.start_arch]

theorem retire_setReg_pc (hd : d ≠ 0) :
    (retire ((Run.start m).setReg d v)).reg 0 = m.reg 0 + BitVec.ofNat W 2 := by
  simp [retire_reg, hd, Arch.reg_setReg_ne]

theorem kept_retire_setReg : m.Kept (retire ((Run.start m).setReg d v)) := by
  constructor
  case toKeptControl => constructor <;> simp
  case mem => simp

theorem counted_retire_setReg : m.Counted (retire ((Run.start m).setReg d v)) := by
  constructor <;> simp

end RetiredWrite

/-- An instruction that completes in every state and whose pseudocode is one register write sets that register. -/
theorem setsAndAdvances_of_setReg {s : State} {i : Instr} {p : Run s.W → Run s.W} {d : Reg} {v : BitVec s.W}
    (hi : exec i s = executeOk s p) (hp : p (Run.start s.arch) = (Run.start s.arch).setReg d v) :
    s.SetsAndAdvances i d v := by
  refine ⟨retire ((Run.start s.arch).setReg d v), ?completes, retire_setReg_reg_self _ _ _,
    fun _ => retire_setReg_reg_ne _ _ _, retire_setReg_pc _ _ _, kept_retire_setReg _ _ _, counted_retire_setReg _ _ _⟩
  case completes => rw [State.Completes, hi, executeOk_eq, hp]

theorem State.SetsAndAdvances.sets {s : State} {i : Instr} {d : Reg} {v : BitVec s.W} (h : s.SetsAndAdvances i d v) :
    s.Sets i d v := by
  obtain ⟨m, hm, hd, hregs, -, hkept, -⟩ := h
  exact ⟨m, hm, hd, hregs, hkept⟩

/-- An instruction `x[D] <- f(x[D], x[S])` sets D to that value, both registers read before the write. -/
theorem setsAndAdvances_of_registerOp {s : State} {i : Instr} {f : BitVec s.W → BitVec s.W → BitVec s.W} {d r : Reg}
    (hi : exec i s = executeOk s (registerOp f d r)) : s.SetsAndAdvances i d (f (s.arch.reg d) (s.arch.reg r)) :=
  setsAndAdvances_of_setReg hi rfl

end Sys2Proof.Machine
end

section
/-!
The bitwise instructions (41_bitwise.md): the word operation of each truth table, and that each instruction is that
operation on D and S.
-/

namespace Sys2Proof.Machine

/-- The word operation of truth table `m`, as the pseudocode of rules R131 to R146 writes it (`exec_decodeBitwise` ties it
to the instructions). -/
def bitwiseOp {W : Nat} (m : Nat) (a b : BitVec W) : BitVec W :=
  match m with
  | 0 => BitVec.ofNat W 0
  | 1 => ~~~(a ||| b)
  | 2 => ~~~a &&& b
  | 3 => ~~~a
  | 4 => a &&& ~~~b
  | 5 => ~~~b
  | 6 => a ^^^ b
  | 7 => ~~~(a &&& b)
  | 8 => a &&& b
  | 9 => ~~~(a ^^^ b)
  | 10 => b
  | 11 => ~~~a ||| b
  | 12 => a
  | 13 => a ||| ~~~b
  | 14 => a ||| b
  | _ => BitVec.allOnes W

/-- The instruction of each table number runs that table's operation. -/
theorem exec_decodeBitwise (d r : Reg) (s : State) :
    ∀ m : Nat, exec (decodeBitwise m d r) s = executeOk s (registerOp (bitwiseOp m) d r)
  | 0 | 1 | 2 | 3 | 4 | 5 | 6 | 7 | 8 | 9 | 10 | 11 | 12 | 13 | 14 | _ + 15 => rfl

theorem setsAndAdvances_decodeBitwise (s : State) (m : Nat) (d r : Reg) :
    s.SetsAndAdvances (decodeBitwise m d r) d (bitwiseOp m (s.arch.reg d) (s.arch.reg r)) :=
  setsAndAdvances_of_registerOp (exec_decodeBitwise d r s m)

/-- The word of each table number and what its instruction leaves in D. -/
theorem decode_and_sets_bitwise (s : State) (d r : Reg) {m : Nat} (hm : m < 16) :
    decode (BitVec.ofNat 16 (0x1000 + 0x100 * m + 16 * r + d)) = .ok (decodeBitwise m d r) ∧
      s.Sets (decodeBitwise m d r) d (bitwiseOp m (s.arch.reg d) (s.arch.reg r)) :=
  ⟨decode_bitwise_word hm d r, (setsAndAdvances_decodeBitwise s m d r).sets⟩

/-- The all-ones word of `BIT.T` is `2^W - 1` (rule R146). -/
theorem bitwiseOp_true {W : Nat} (a b : BitVec W) : bitwiseOp 15 a b = BitVec.ofNat W (2 ^ W - 1) :=
  BitVec.eq_of_toNat_eq (by simp [bitwiseOp])

/-- Settles O6: each clause is the word and the operation of its table number, 0 to 7. -/
theorem bitwiseTables0To7 : Obligations.BitwiseTables0To7 := by
  intro s d r
  have table {m : Nat} (hm : m < 16) := decode_and_sets_bitwise s d r hm
  exact ⟨table (m := 0) (by decide), table (m := 1) (by decide), table (m := 2) (by decide),
    table (m := 3) (by decide), table (m := 4) (by decide), table (m := 5) (by decide),
    table (m := 6) (by decide), table (m := 7) (by decide)⟩

/-- Settles O7: each clause is the word and the operation of its table number, 8 to 15; the last one's word is all ones. -/
theorem bitwiseTables8To15 : Obligations.BitwiseTables8To15 := by
  intro s d r
  have table {m : Nat} (hm : m < 16) := decode_and_sets_bitwise s d r hm
  have allOnes := table (m := 15) (by decide)
  rw [bitwiseOp_true] at allOnes
  exact ⟨table (m := 8) (by decide), table (m := 9) (by decide), table (m := 10) (by decide),
    table (m := 11) (by decide), table (m := 12) (by decide), table (m := 13) (by decide),
    table (m := 14) (by decide), allOnes⟩

end Sys2Proof.Machine
end

section
/-!
The arithmetic words (30_encoding.md, format AR), with the source field a register or an immediate.
-/

namespace Sys2Proof.Machine

/-- Format AR: class 2, the operation with its source bit, the source field, D. -/
theorem decode_nibbles_arith {op mid : Nat} (ho : op < 16) (hm : mid < 16) (d : Reg) :
    decode (nibbles 2 op mid d) = .ok (decodeArith op d (Fin.ofNat 16 mid) (BitVec.ofNat 4 mid)) := by
  simp only [decode, slice_nibbles_class (by decide : 2 < 16) ho hm d.isLt, slice_nibbles_op ho hm d.isLt,
    regField, immField, slice_nibbles_mid hm d.isLt, slice_nibbles_low d.isLt, Fin.ofNat_val_eq_self]

/-- The same, of the word as the rules of 42_arithmetic.md write it. -/
theorem decode_arith_word {op mid : Nat} (ho : op < 16) (hm : mid < 16) (d : Reg) :
    decode (BitVec.ofNat 16 (0x2000 + 0x100 * op + 16 * mid + d)) =
      .ok (decodeArith op d (Fin.ofNat 16 mid) (BitVec.ofNat 4 mid)) := by
  rw [← decode_nibbles_arith ho hm, nibbles, Nat.mul_comm op, Nat.mul_comm mid]

/-- The source field as a register; the register forms do not read it as an immediate. -/
theorem decode_arith_word_register {op : Nat} (ho : op < 16) (d r : Reg) :
    decode (BitVec.ofNat 16 (0x2000 + 0x100 * op + 16 * r + d)) = .ok (decodeArith op d r (BitVec.ofNat 4 r)) := by
  rw [decode_arith_word ho r.isLt, Fin.ofNat_val_eq_self]

/-- The source field as an immediate; the immediate forms do not read it as a register. -/
theorem decode_arith_word_immediate {op : Nat} (ho : op < 16) (d : Reg) (n : BitVec 4) :
    decode (BitVec.ofNat 16 (0x2000 + 0x100 * op + 16 * n.toNat + d)) =
      .ok (decodeArith op d (Fin.ofNat 16 n.toNat) n) := by
  rw [decode_arith_word ho n.isLt, BitVec.ofNat_toNat, BitVec.setWidth_eq]

end Sys2Proof.Machine
end

section
/-!
Addition and subtraction (42_arithmetic.md rules R153 and R154): the word sum and difference are those of the integers
modulo 2^W, and each instruction leaves them in D.
-/

namespace Sys2Proof.Machine

section ModularResults
variable {W : Nat} (a : BitVec W) (n : Nat)

theorem ofNat_toNat_add : BitVec.ofNat W (a.toNat + n) = a + BitVec.ofNat W n := by
  rw [BitVec.ofNat_add, BitVec.ofNat_toNat, BitVec.setWidth_eq]

/-- The difference is taken over the integers, so a borrow wraps to the word. -/
theorem ofInt_toNat_sub : BitVec.ofInt W (a.toNat - n) = a - BitVec.ofNat W n := by
  rw [Int.sub_eq_add_neg, BitVec.ofInt_add, BitVec.ofInt_neg, BitVec.ofInt_natCast, BitVec.ofInt_natCast,
    BitVec.ofNat_toNat, BitVec.setWidth_eq, BitVec.sub_eq_add_neg]

end ModularResults

/-- An instruction `x[D] <- f(x[D], n)` sets D to that value, the immediate zero-extended (rule R150). -/
theorem setsAndAdvances_of_immediateOp {s : State} {i : Instr} {f : BitVec s.W → BitVec s.W → BitVec s.W} {d : Reg}
    {n : BitVec 4} (hi : exec i s = executeOk s (immediateOp f d n)) :
    s.SetsAndAdvances i d (f (s.arch.reg d) (zext s.W n)) :=
  setsAndAdvances_of_setReg hi rfl

section Instructions
variable (s : State) (d r : Reg) (n : BitVec 4)

theorem setsAndAdvances_add :
    s.SetsAndAdvances (.add d r) d (BitVec.ofNat s.W ((s.arch.reg d).toNat + (s.arch.reg r).toNat)) := by
  rw [ofNat_toNat_add, BitVec.ofNat_toNat, BitVec.setWidth_eq]
  exact setsAndAdvances_of_registerOp (f := fun a b => a + b) rfl

theorem setsAndAdvances_addi :
    s.SetsAndAdvances (.addi d n) d (BitVec.ofNat s.W ((s.arch.reg d).toNat + n.toNat)) := by
  rw [ofNat_toNat_add]
  exact setsAndAdvances_of_immediateOp (f := fun a b => a + b) rfl

theorem setsAndAdvances_sub :
    s.SetsAndAdvances (.sub d r) d (BitVec.ofInt s.W ((s.arch.reg d).toNat - (s.arch.reg r).toNat)) := by
  rw [ofInt_toNat_sub, BitVec.ofNat_toNat, BitVec.setWidth_eq]
  exact setsAndAdvances_of_registerOp (f := fun a b => a - b) rfl

theorem setsAndAdvances_subi :
    s.SetsAndAdvances (.subi d n) d (BitVec.ofInt s.W ((s.arch.reg d).toNat - n.toNat)) := by
  rw [ofInt_toNat_sub]
  exact setsAndAdvances_of_immediateOp (f := fun a b => a - b) rfl

end Instructions

/-- Settles O9: the register words are operations 0 and 1 of format AR, the immediate words operations 8 and 9, and each
instruction sets D to the sum or difference modulo 2^W. -/
theorem addAndSubtract : Obligations.AddAndSubtract := by
  intro s d r n
  have regWord {op : Nat} (ho : op < 16) := decode_arith_word_register ho d r
  have immWord {op : Nat} (ho : op < 16) := decode_arith_word_immediate ho d n
  refine ⟨⟨regWord (op := 0) (by decide), immWord (op := 8) (by decide), ?add, ?addi⟩,
    regWord (op := 1) (by decide), immWord (op := 9) (by decide), ?sub, ?subi⟩
  case add => exact (setsAndAdvances_add s d r).sets
  case addi => exact (setsAndAdvances_addi s d n).sets
  case sub => exact (setsAndAdvances_sub s d r).sets
  case subi => exact (setsAndAdvances_subi s d n).sets

end Sys2Proof.Machine
end

section
/-!
The fields of a word, read and written: every word is four nibbles, and a format with an eight-bit field is a class, a
nibble and a byte (30_encoding.md rule R91).
-/

namespace Sys2Proof.Machine

theorem slice_lt (w : IWord) (lo len : Nat) : slice w lo len < 2 ^ len := Nat.mod_lt _ (Nat.two_pow_pos len)

theorem regField_val (w : IWord) (lo : Nat) : (regField w lo).val = slice w lo 4 :=
  Nat.mod_eq_of_lt (slice_lt w lo 4)

theorem immField_toNat (w : IWord) : (immField w).toNat = slice w 4 4 :=
  Nat.mod_eq_of_lt (slice_lt w 4 4)

theorem lowByte_toNat (w : IWord) : (lowByte w).toNat = slice w 0 8 :=
  Nat.mod_eq_of_lt (slice_lt w 0 8)

/-- A word is its four nibbles. -/
theorem nibbles_slices {w : IWord} {cls : Nat} (hc : slice w 12 4 = cls) :
    nibbles cls (slice w 8 4) (slice w 4 4) (slice w 0 4) = w := by
  have hw := w.isLt
  refine BitVec.eq_of_toNat_eq ?_
  simp only [nibbles, slice, BitVec.toNat_ofNat] at hc ⊢
  omega

/-- A word is its class, the nibble after it and its low byte. -/
theorem ofNat_class_slices {w : IWord} {cls : Nat} (hc : slice w 12 4 = cls) :
    BitVec.ofNat 16 (cls * 0x1000 + 0x100 * slice w 8 4 + slice w 0 8) = w := by
  have hw := w.isLt
  refine BitVec.eq_of_toNat_eq ?_
  simp only [slice, BitVec.toNat_ofNat] at hc ⊢
  omega

section ByteWord
variable {cls hi lo : Nat}

theorem slice_byteWord_class (hc : cls < 16) (hh : hi < 16) (hl : lo < 256) :
    slice (BitVec.ofNat 16 (cls * 0x1000 + 0x100 * hi + lo)) 12 4 = cls := by
  simp only [slice, BitVec.toNat_ofNat]
  omega

theorem slice_byteWord_high (hh : hi < 16) (hl : lo < 256) :
    slice (BitVec.ofNat 16 (cls * 0x1000 + 0x100 * hi + lo)) 8 4 = hi := by
  simp only [slice, BitVec.toNat_ofNat]
  omega

theorem slice_byteWord_low (hl : lo < 256) :
    slice (BitVec.ofNat 16 (cls * 0x1000 + 0x100 * hi + lo)) 0 8 = lo := by
  simp only [slice, BitVec.toNat_ofNat]
  omega

end ByteWord

/-- The fields of a word made of a class, a register or a nibble, and a byte. -/
theorem regField_byteWord (cls : Nat) (c : Reg) (n : BitVec 8) :
    regField (BitVec.ofNat 16 (cls * 0x1000 + 0x100 * c.val + n.toNat)) 8 = c :=
  Fin.ext (by rw [regField_val, slice_byteWord_high c.isLt n.isLt])

theorem lowByte_byteWord (cls hi : Nat) (n : BitVec 8) :
    lowByte (BitVec.ofNat 16 (cls * 0x1000 + 0x100 * hi + n.toNat)) = n :=
  BitVec.eq_of_toNat_eq (by rw [lowByte_toNat, slice_byteWord_low n.isLt])

end Sys2Proof.Machine
end

section
/-!
Decoding inverts encoding, class by class (30_encoding.md rules R91 and R93).
-/

namespace Sys2Proof.Machine

/-- Format AR with a register source; the register forms do not read it as an immediate. -/
theorem decode_nibbles_arith_register {op : Nat} (ho : op < 16) (d r : Reg) :
    decode (nibbles 2 op r d) = .ok (decodeArith op d r (BitVec.ofNat 4 r)) := by
  rw [decode_nibbles_arith ho r.isLt, Fin.ofNat_val_eq_self]

/-- Format AR with an immediate source; the immediate forms do not read it as a register. -/
theorem decode_nibbles_arith_immediate {op : Nat} (ho : op < 16) (d : Reg) (n : BitVec 4) :
    decode (nibbles 2 op n.toNat d) = .ok (decodeArith op d (Fin.ofNat 16 n.toNat) n) := by
  rw [decode_nibbles_arith ho n.isLt, BitVec.ofNat_toNat, BitVec.setWidth_eq]

/-- Format CM: class 3, the condition, S, D. -/
theorem decode_nibbles_compare {c : Nat} (hc : c < 16) (d r : Reg) :
    decode (nibbles 3 c r d) = .ok (decodeCompare c d r) := by
  simp only [decode, slice_nibbles_class (by decide : 3 < 16) hc r.isLt d.isLt, slice_nibbles_op hc r.isLt d.isLt,
    regField_nibbles_mid r d.isLt, regField_nibbles_low d]

/-- Format MS: class 14, the operation, the field B, A. -/
theorem decode_nibbles_misc {op mid : Nat} (ho : op < 16) (hm : mid < 16) (a : Reg) :
    decode (nibbles 14 op mid a) = .ok (decodeMisc op a (Fin.ofNat 16 mid) (BitVec.ofNat 4 mid)) := by
  simp only [decode, slice_nibbles_class (by decide : 14 < 16) ho hm a.isLt, slice_nibbles_op ho hm a.isLt,
    regField, immField, slice_nibbles_mid hm a.isLt, slice_nibbles_low a.isLt, Fin.ofNat_val_eq_self]

/-- The field B as a register; the register forms do not read it as an immediate. -/
theorem decode_nibbles_misc_register {op : Nat} (ho : op < 16) (a b : Reg) :
    decode (nibbles 14 op b a) = .ok (decodeMisc op a b (BitVec.ofNat 4 b)) := by
  rw [decode_nibbles_misc ho b.isLt, Fin.ofNat_val_eq_self]

/-- The field B as an immediate; the immediate forms do not read it as a register. -/
theorem decode_nibbles_misc_immediate {op : Nat} (ho : op < 16) (a : Reg) (n : BitVec 4) :
    decode (nibbles 14 op n.toNat a) = .ok (decodeMisc op a (Fin.ofNat 16 n.toNat) n) := by
  rw [decode_nibbles_misc ho n.isLt, BitVec.ofNat_toNat, BitVec.setWidth_eq]

/-- Format SL: class 13, the condition register, the non-zero one, the zero one. -/
theorem decode_encode_sel (c n z : Reg) : decode (encode (.sel c n z)) = .ok (.sel c n z) := by
  have hc : regField (nibbles 13 c n z) 8 = c := Fin.ext (by rw [regField_val, slice_nibbles_op c.isLt n.isLt z.isLt])
  simp only [encode, decode, slice_nibbles_class (by decide : 13 < 16) c.isLt n.isLt z.isLt, hc,
    regField_nibbles_mid n z.isLt, regField_nibbles_low z]

/-- Format SW: class 9, the extension bit over the size modulo 8, the index register, D (rule R98). -/
theorem decode_nibbles_subword (sex : Bool) {size : Nat} (h1 : 1 ≤ size) (h8 : size ≤ 8) (d i : Reg) :
    decode (nibbles 9 (8 * sex.toNat + size % 8) i d) = .ok (if sex then .subws d i size else .subw d i size) := by
  have hs : sex.toNat ≤ 1 := Bool.toNat_le sex
  have hop : 8 * sex.toNat + size % 8 < 16 := by omega
  have hsize : slice (nibbles 9 (8 * sex.toNat + size % 8) i d) 8 3 = size % 8 := by
    simp only [slice, nibbles, BitVec.toNat_ofNat]
    omega
  have hsex : slice (nibbles 9 (8 * sex.toNat + size % 8) i d) 11 1 = sex.toNat := by
    simp only [slice, nibbles, BitVec.toNat_ofNat]
    omega
  have hfield : (if size % 8 = 0 then 8 else size % 8) = size := by split <;> omega
  simp only [decode, slice_nibbles_class (by decide : 9 < 16) hop i.isLt d.isLt, decodeSubword, hsize, hsex, hfield,
    regField_nibbles_mid i d.isLt, regField_nibbles_low d]
  cases sex <;> rfl

/-- Formats BN, SR and LI: a class, a nibble and a byte. -/
theorem decode_encode_bnz (c : Reg) (off : BitVec 8) : decode (encode (.bnz c off)) = .ok (.bnz c off) := by
  have hw : encode (.bnz c off) = BitVec.ofNat 16 (8 * 0x1000 + 0x100 * c.val + off.toNat) := rfl
  simp only [hw, decode, slice_byteWord_class (by decide : 8 < 16) c.isLt off.isLt, regField_byteWord, lowByte_byteWord]

theorem decode_encode_srr (r : Reg) (n : BitVec 8) : decode (encode (.srr r n)) = .ok (.srr r n) := by
  have hw : encode (.srr r n) = BitVec.ofNat 16 (10 * 0x1000 + 0x100 * r.val + n.toNat) := rfl
  simp only [hw, decode, slice_byteWord_class (by decide : 10 < 16) r.isLt n.isLt, regField_byteWord, lowByte_byteWord]

theorem decode_encode_srw (r : Reg) (n : BitVec 8) : decode (encode (.srw r n)) = .ok (.srw r n) := by
  have hw : encode (.srw r n) = BitVec.ofNat 16 (11 * 0x1000 + 0x100 * r.val + n.toNat) := rfl
  simp only [hw, decode, slice_byteWord_class (by decide : 11 < 16) r.isLt n.isLt, regField_byteWord, lowByte_byteWord]

theorem decode_encode_long (l : BitVec 4) (ext : BitVec 8) : decode (encode (.long l ext)) = .ok (.long l ext) := by
  have hw : encode (.long l ext) = BitVec.ofNat 16 (15 * 0x1000 + 0x100 * l.toNat + ext.toNat) := rfl
  simp only [hw, decode, slice_byteWord_class (by decide : 15 < 16) l.isLt ext.isLt,
    slice_byteWord_high l.isLt ext.isLt, lowByte_byteWord, BitVec.ofNat_toNat, BitVec.setWidth_eq]

/-- Format SI: class 12, the byte in the middle, D. -/
theorem decode_encode_si (d : Reg) (n : BitVec 8) : decode (encode (.si d n)) = .ok (.si d n) := by
  have hn := n.isLt
  have hclass : slice (encode (.si d n)) 12 4 = 12 := by
    simp only [slice, encode, BitVec.toNat_ofNat]
    omega
  have hd : regField (encode (.si d n)) 0 = d := Fin.ext (by
    simp only [regField_val, slice, encode, BitVec.toNat_ofNat]
    omega)
  have hbyte : slice (encode (.si d n)) 4 8 = n.toNat := by
    simp only [slice, encode, BitVec.toNat_ofNat]
    omega
  simp only [decode, hclass, hd, hbyte, BitVec.ofNat_toNat, BitVec.setWidth_eq]

theorem encodeMode_lt (m : IncMode) : encodeMode m < 4 := by cases m <;> decide

theorem decodeMode_encodeMode (m : IncMode) : decodeMode (encodeMode m) = m := by cases m <;> rfl

theorem encodeMode_decodeMode : ∀ {n : Nat}, n < 4 → encodeMode (decodeMode n) = n := by decide

/-- A bit read back as a flag. -/
theorem decide_toNat_eq_one (b : Bool) : decide (b.toNat = 1) = b := by cases b <;> rfl

/-- Format XF: the classes 4 to 7, which hold the two high operand bits of the source. -/
theorem decode_of_transfer_class {w : IWord} (h4 : 4 ≤ slice w 12 4) (h7 : slice w 12 4 ≤ 7) :
    decode w = .ok (decodeTransfer w) := by
  unfold decode
  split
  case h_13 => rfl
  all_goals omega

/-- Format XF: each operand field stands at its place. -/
theorem decode_encode_xf (dst src : Operand) : decode (encode (.xf dst src)) = .ok (.xf dst src) := by
  have hsi := Bool.toNat_le src.indirect
  have hdi := Bool.toNat_le dst.indirect
  have hsm := encodeMode_lt src.mode
  have hdm := encodeMode_lt dst.mode
  have field {lo len v : Nat} (h : (0x4000 + 0x2000 * src.indirect.toNat + 0x0800 * encodeMode src.mode +
      0x0400 * dst.indirect.toNat + 0x0100 * encodeMode dst.mode + 0x10 * src.reg.val + dst.reg.val) % 2 ^ 16
      / 2 ^ lo % 2 ^ len = v) : slice (encode (.xf dst src)) lo len = v := h
  have hclass : 4 ≤ slice (encode (.xf dst src)) 12 4 ∧ slice (encode (.xf dst src)) 12 4 ≤ 7 := by
    rw [field rfl]; omega
  have hdr : regField (encode (.xf dst src)) 0 = dst.reg := Fin.ext (by rw [regField_val, field]; omega)
  have hsr : regField (encode (.xf dst src)) 4 = src.reg := Fin.ext (by rw [regField_val, field]; omega)
  have hdsti : slice (encode (.xf dst src)) 10 1 = dst.indirect.toNat := field (by omega)
  have hsrci : slice (encode (.xf dst src)) 13 1 = src.indirect.toNat := field (by omega)
  have hdstm : slice (encode (.xf dst src)) 8 2 = encodeMode dst.mode := field (by omega)
  have hsrcm : slice (encode (.xf dst src)) 11 2 = encodeMode src.mode := field (by omega)
  rw [decode_of_transfer_class hclass.1 hclass.2, decodeTransfer, hdr, hsr, hdsti, hsrci, hdstm, hsrcm,
    decodeMode_encodeMode, decodeMode_encodeMode, decide_toNat_eq_one, decide_toNat_eq_one]

/-- Settles O1, by the formats of the instruction classes. -/
theorem decodeInvertsEncode : Obligations.DecodeInvertsEncode := by
  intro i hi
  cases i with
  | deg => rfl
  | bitF d r | bitNor d r | bitNci d r | bitNd d r | bitNmi d r | bitNs d r | bitXor d r | bitNand d r | bitAnd d r
  | bitXnor d r | bitS d r | bitMi d r | bitD d r | bitCi d r | bitOr d r | bitT d r =>
    exact decode_nibbles_bitwise (by decide) d r
  | add d r | sub d r | shl d r | shr d r | asr d r | mul d r | div d r | mod d r =>
    exact decode_nibbles_arith_register (by decide) d r
  | addi d n | subi d n | shli d n | shri d n | asri d n | muli d n | divi d n | modi d n =>
    exact decode_nibbles_arith_immediate (by decide) d n
  | cmpF d r | cmpEq d r | cmpAb d r | cmpAbe d r | cmpSf d r | cmpSeq d r | cmpGt d r | cmpGte d r | cmpT d r
  | cmpNeq d r | cmpBle d r | cmpBl d r | cmpSt d r | cmpSneq d r | cmpLte d r | cmpLt d r =>
    exact decode_nibbles_compare (by decide) d r
  | xf dst src => exact decode_encode_xf dst src
  | bnz c off => exact decode_encode_bnz c off
  | subw d j size =>
    have h := decode_nibbles_subword false hi.1 hi.2 d j
    rwa [Bool.toNat_false, Nat.mul_zero, Nat.zero_add] at h
  | subws d j size => exact decode_nibbles_subword true hi.1 hi.2 d j
  | srr r n => exact decode_encode_srr r n
  | srw r n => exact decode_encode_srw r n
  | si d n => exact decode_encode_si d n
  | sel c n z => exact decode_encode_sel c n z
  | swap a b | mmul a b | mdiv a b | mmod a b | ldreg a b | streg a b | jzr a b | jnzr a b | jgzr a b | jlzr a b =>
    exact decode_nibbles_misc_register (by decide) a b
  | ldoff a n | loop a n | jz a n | jnz a n | jgz a n | jlz a n =>
    exact decode_nibbles_misc_immediate (by decide) a n
  | long l ext => exact decode_encode_long l ext

end Sys2Proof.Machine
end

section
/-!
Encoding inverts decoding (30_encoding.md, the opcode map), the words that are no instruction, and instructions as
bytes.
-/

namespace Sys2Proof.Machine

/-- The word and the well-formedness of each decoding family, by its number. -/
theorem encode_decodeBitwise (d r : Reg) :
    ∀ {m : Nat}, m < 16 → (decodeBitwise m d r).WellFormed ∧ encode (decodeBitwise m d r) = nibbles 1 m r d
  | 0, _ | 1, _ | 2, _ | 3, _ | 4, _ | 5, _ | 6, _ | 7, _ | 8, _ | 9, _ | 10, _ | 11, _ | 12, _ | 13, _ | 14, _
  | 15, _ => ⟨trivial, rfl⟩
  | _ + 16, h => absurd h (by omega)

theorem encode_decodeArith (d r : Reg) {n : BitVec 4} (hn : n.toNat = r) :
    ∀ {op : Nat}, op < 16 → (decodeArith op d r n).WellFormed ∧ encode (decodeArith op d r n) = nibbles 2 op r d
  | 0, _ | 1, _ | 2, _ | 3, _ | 4, _ | 5, _ | 6, _ | 7, _ => ⟨trivial, rfl⟩
  | 8, _ | 9, _ | 10, _ | 11, _ | 12, _ | 13, _ | 14, _ | 15, _ => ⟨trivial, by rw [← hn]; rfl⟩
  | _ + 16, h => absurd h (by omega)

theorem encode_decodeCompare (d r : Reg) :
    ∀ {c : Nat}, c < 16 → (decodeCompare c d r).WellFormed ∧ encode (decodeCompare c d r) = nibbles 3 c r d
  | 0, _ | 1, _ | 2, _ | 3, _ | 4, _ | 5, _ | 6, _ | 7, _ | 8, _ | 9, _ | 10, _ | 11, _ | 12, _ | 13, _ | 14, _
  | 15, _ => ⟨trivial, rfl⟩
  | _ + 16, h => absurd h (by omega)

theorem encode_decodeMisc (a b : Reg) {n : BitVec 4} (hn : n.toNat = b) :
    ∀ {op : Nat}, op < 16 → (decodeMisc op a b n).WellFormed ∧ encode (decodeMisc op a b n) = nibbles 14 op b a
  | 0, _ | 1, _ | 2, _ | 3, _ | 4, _ | 5, _ | 9, _ | 11, _ | 13, _ | 15, _ => ⟨trivial, rfl⟩
  | 6, _ | 7, _ | 8, _ | 10, _ | 12, _ | 14, _ => ⟨trivial, by rw [← hn]; rfl⟩
  | _ + 16, h => absurd h (by omega)

/-- The immediate and the register of the field `I[7:4]` hold one number. -/
theorem immField_toNat_eq_regField (w : IWord) : (immField w).toNat = (regField w 4).val := by
  rw [immField_toNat, regField_val]

/-- Format SW back: the size field is the size modulo 8, so 0 stands for 8 bytes (rule R98). -/
theorem encode_decodeSubword {w : IWord} (hc : slice w 12 4 = 9) :
    (decodeSubword w).WellFormed ∧ encode (decodeSubword w) = w := by
  have hlt : slice w 8 3 < 8 := slice_lt w 8 3
  have hsex : slice w 11 1 < 2 := slice_lt w 11 1
  have hop : slice w 8 4 = 8 * slice w 11 1 + slice w 8 3 := by simp only [slice]; omega
  have hw := nibbles_slices hc
  obtain ⟨size, hdef⟩ : ∃ size, size = if slice w 8 3 = 0 then 8 else slice w 8 3 := ⟨_, rfl⟩
  have hsize : 1 ≤ size ∧ size ≤ 8 := by rw [hdef]; split <;> omega
  have hmod : size % 8 = slice w 8 3 := by rw [hdef]; split <;> omega
  simp only [decodeSubword, ← hdef]
  split
  · have hfield : 8 + size % 8 = slice w 8 4 := by omega
    exact ⟨hsize, by rw [encode, hfield, regField_val, regField_val, hw]⟩
  · have hfield : size % 8 = slice w 8 4 := by omega
    exact ⟨hsize, by rw [encode, hfield, regField_val, regField_val, hw]⟩

/-- A one-bit field read as a flag and back. -/
theorem toNat_decide_slice (w : IWord) (lo : Nat) : (decide (slice w lo 1 = 1)).toNat = slice w lo 1 := by
  have h : slice w lo 1 < 2 := slice_lt w lo 1
  by_cases h1 : slice w lo 1 = 1
  · simp [h1]
  · simp only [h1, decide_false, Bool.toNat_false]; omega

/-- Format XF back. -/
theorem encode_decodeTransfer {w : IWord} (h4 : 4 ≤ slice w 12 4) (h7 : slice w 12 4 ≤ 7) :
    encode (decodeTransfer w) = w := by
  have hw := w.isLt
  rw [decodeTransfer, encode, toNat_decide_slice, toNat_decide_slice, encodeMode_decodeMode (slice_lt w 8 2),
    encodeMode_decodeMode (slice_lt w 11 2), regField_val, regField_val]
  refine BitVec.eq_of_toNat_eq ?_
  simp only [slice, BitVec.toNat_ofNat] at h4 h7 ⊢
  omega

/-- Settles O2, by the class nibble: each class's encoder puts back the fields its decoder read. -/
theorem encodeInvertsDecode : Obligations.EncodeInvertsDecode := by
  intro w i h
  have hop : slice w 8 4 < 16 := slice_lt w 8 4
  have hclass : slice w 12 4 < 16 := slice_lt w 12 4
  have nibble {cls : Nat} (hc : slice w 12 4 = cls) : nibbles cls (slice w 8 4) (regField w 4) (regField w 0) = w := by
    rw [regField_val, regField_val, nibbles_slices hc]
  have byte {cls : Nat} (hc : slice w 12 4 = cls) :
      BitVec.ofNat 16 (cls * 0x1000 + 0x100 * (regField w 8).val + (lowByte w).toNat) = w := by
    rw [regField_val, lowByte_toNat, ofNat_class_slices hc]
  unfold decode at h
  split at h
  case h_1 hc =>
    split at h <;> cases h
    rename_i h0
    exact ⟨trivial, h0.symm⟩
  case h_2 hc =>
    cases h
    obtain ⟨hwf, he⟩ := encode_decodeBitwise (regField w 0) (regField w 4) hop
    exact ⟨hwf, he.trans (nibble hc)⟩
  case h_3 hc =>
    cases h
    obtain ⟨hwf, he⟩ := encode_decodeArith (regField w 0) (regField w 4) (immField_toNat_eq_regField w) hop
    exact ⟨hwf, he.trans (nibble hc)⟩
  case h_4 hc =>
    cases h
    obtain ⟨hwf, he⟩ := encode_decodeCompare (regField w 0) (regField w 4) hop
    exact ⟨hwf, he.trans (nibble hc)⟩
  case h_5 hc => cases h; exact ⟨trivial, byte hc⟩
  case h_6 hc => cases h; exact encode_decodeSubword hc
  case h_7 hc => cases h; exact ⟨trivial, byte hc⟩
  case h_8 hc => cases h; exact ⟨trivial, byte hc⟩
  case h_9 hc =>
    cases h
    have hw := w.isLt
    refine ⟨trivial, BitVec.eq_of_toNat_eq ?_⟩
    rw [encode, regField_val]
    simp only [slice, BitVec.toNat_ofNat] at hc ⊢
    omega
  case h_10 hc =>
    cases h
    refine ⟨trivial, ?_⟩
    rw [encode, regField_val w 8, nibble hc]
  case h_11 hc =>
    cases h
    obtain ⟨hwf, he⟩ := encode_decodeMisc (regField w 0) (regField w 4) (immField_toNat_eq_regField w) hop
    exact ⟨hwf, he.trans (nibble hc)⟩
  case h_12 hc =>
    cases h
    have hl : (BitVec.ofNat 4 (slice w 8 4)).toNat = (regField w 8).val := by
      rw [regField_val, BitVec.toNat_ofNat, Nat.mod_eq_of_lt hop]
    refine ⟨trivial, ?_⟩
    rw [encode, hl, byte hc]
  case h_13 =>
    cases h
    simp only [imp_false] at *
    have h4 : 4 ≤ slice w 12 4 := by omega
    have h7 : slice w 12 4 ≤ 7 := by omega
    exact ⟨trivial, encode_decodeTransfer h4 h7⟩

/-- The only words the decoder rejects are those of class 0 other than the word of DEG. -/
theorem decode_error {w : IWord} {e : Reject} (h : decode w = .error e) :
    slice w 12 4 = 0 ∧ w ≠ 0 ∧ e = .reserved w := by
  unfold decode at h
  split at h
  case h_1 hc =>
    split at h <;> cases h
    rename_i h0
    exact ⟨hc, h0, rfl⟩
  all_goals cases h

theorem decode_reserved {w : IWord} (hc : slice w 12 4 = 0) (h0 : w ≠ 0) : decode w = .error (.reserved w) := by
  simp only [decode, hc, h0, if_false]

/-- Class 0 without the word of DEG is 0x0001 to 0x0FFF. -/
theorem class_zero_iff (w : IWord) : slice w 12 4 = 0 ∧ w ≠ 0 ↔ 1 ≤ w.toNat ∧ w.toNat ≤ 0x0FFF := by
  have hw := w.isLt
  have h0 : w = 0 ↔ w.toNat = 0 := ⟨fun h => by rw [h]; rfl, fun h => BitVec.eq_of_toNat_eq h⟩
  simp only [slice, ne_eq, h0]
  omega

/-- Settles O3: only class 0 rejects, and only a word other than 0. -/
theorem reservedWordsOnly : Obligations.ReservedWordsOnly := by
  intro w
  rw [← class_zero_iff]
  constructor
  · constructor
    · intro h
      obtain ⟨hc, h0, -⟩ := decode_error h
      exact ⟨hc, h0⟩
    · rintro ⟨hc, h0⟩
      exact decode_reserved hc h0
  · intro r h
    obtain ⟨-, -, hr⟩ := decode_error h
    exact hr

/-- Settles O4, by running the decoder on each word. -/
theorem sampleWordsDecode : Obligations.SampleWordsDecode :=
  ⟨rfl, rfl, rfl, rfl, rfl, rfl, rfl, rfl, rfl, rfl, rfl, rfl, rfl, rfl, rfl⟩

/-- The two bytes of a word, arranged and arranged back, are the word. -/
theorem ofNat_natOfBytes_wordBytesOf (o : ByteOrder) (w : IWord) :
    BitVec.ofNat 16 (natOfBytes (o.arrange (wordBytesOf o w))) = w := by
  rw [wordBytesOf, arrange_arrange, natOfBytes_bytesOfNat]
  exact BitVec.eq_of_toNat_eq (by simpa using w.isLt)

/-- The bytes of a word, at the head of any bytes, decode as the word does. -/
theorem decodeBytes_wordBytesOf (o : ByteOrder) {w : IWord} {i : Instr} (h : decode w = .ok i) (rest : List Byte) :
    decodeBytes o (wordBytesOf o w ++ rest) = .ok (i, rest) := by
  have hlen : (wordBytesOf o w).length = 2 := by rw [wordBytesOf, arrange_length, bytesOfNat_length]
  obtain ⟨b0, b1, hb⟩ := List.length_eq_two.mp hlen
  have hword := ofNat_natOfBytes_wordBytesOf o w
  rw [hb] at hword ⊢
  simp only [List.cons_append, List.nil_append, decodeBytes, hword, h]

theorem decodeBytes_short (o : ByteOrder) :
    ∀ {bs : List Byte}, bs.length < 2 → decodeBytes o bs = .error .truncated
  | [], _ | [_], _ => rfl
  | _ :: _ :: _, h => by simp at h

/-- Settles O5, from `decodeInvertsEncode` and the two bytes of a word. -/
theorem bytesDecodeInEitherOrder : Obligations.BytesDecodeInEitherOrder :=
  ⟨fun o i rest hi => decodeBytes_wordBytesOf o (decodeInvertsEncode i hi) rest, fun o _ h => decodeBytes_short o h⟩

end Sys2Proof.Machine
end

section
/-!
What no instruction sees: other requests, and an earlier part of the debug output stream (10_state.md rules R48 and
R49).
The overlay of these two commutes with every state operation and every memory access.
-/

namespace Sys2Proof.Machine

/-- The architectural state of `State.overlay` (`State.overlay_eq` ties the two). -/
def Arch.overlay {W : Nat} (requests : List (BitVec W)) (earlier : List Byte) (m : Arch W) : Arch W :=
  { m with pending := requests, debugOut := earlier ++ m.debugOut }

theorem State.overlay_eq (s : State) (requests : List (BitVec s.W)) (earlier : List Byte) :
    s.overlay requests earlier = { cfg := s.cfg, arch := s.arch.overlay requests earlier } := rfl

/-- The same inside a pseudocode. -/
def Run.overlay {W : Nat} (requests : List (BitVec W)) (earlier : List Byte) (k : Run W) : Run W :=
  { k with arch := k.arch.overlay requests earlier }

section OverlayRules
variable {W : Nat} (requests : List (BitVec W)) (earlier : List Byte) (m : Arch W) (k : Run W) (r : Reg) (v : BitVec W)

@[simp] theorem Arch.overlay_reg : (m.overlay requests earlier).reg r = m.reg r := rfl
@[simp] theorem Arch.overlay_setReg :
    (m.overlay requests earlier).setReg r v = (m.setReg r v).overlay requests earlier := rfl

@[simp] theorem Run.overlay_arch : (k.overlay requests earlier).arch = k.arch.overlay requests earlier := rfl
@[simp] theorem Run.overlay_reg : (k.overlay requests earlier).reg r = k.reg r := rfl
@[simp] theorem Run.overlay_setReg :
    (k.overlay requests earlier).setReg r v = (k.setReg r v).overlay requests earlier := rfl
@[simp] theorem Run.overlay_with_arch :
    { k.overlay requests earlier with arch := m.overlay requests earlier } =
      Run.overlay requests earlier { k with arch := m } := rfl

theorem Run.start_overlay : Run.start (m.overlay requests earlier) = (Run.start m).overlay requests earlier := rfl

theorem retire_overlay : retire (k.overlay requests earlier) = (retire k).overlay requests earlier := by
  obtain ⟨m, pcWritten, sr4Written⟩ := k
  cases pcWritten <;> rfl

end OverlayRules

section OverlayAccess
variable {W : Nat} (c : Config) (requests : List (BitVec W)) (earlier : List Byte) (m : Arch W) (a v : BitVec W)

theorem memRead_overlay (n : Nat) (f : Fault) :
    memRead c n f a (m.overlay requests earlier) =
      (memRead c n f a m).map fun p => (p.1, p.2.overlay requests earlier) := by
  unfold memRead
  split
  · rfl
  · cases accessKind c (accessAddrs W a.toNat n) <;> rfl

theorem loadWord_overlay :
    loadWord c a (m.overlay requests earlier) =
      (loadWord c a m).map fun p => (p.1, p.2.overlay requests earlier) := by
  unfold loadWord
  rw [memRead_overlay]
  cases memRead c c.wordBytes .misalignedAccess a m <;> rfl

theorem fetch_overlay :
    fetch c (m.overlay requests earlier) = (fetch c m).map fun p => (p.1, p.2.overlay requests earlier) := by
  unfold fetch
  rw [Arch.overlay_reg, memRead_overlay]
  cases memRead c 2 .misalignedFetch (m.reg 0) m <;> rfl

theorem storeWord_overlay :
    storeWord c a v (m.overlay requests earlier) = (storeWord c a v m).map (Arch.overlay requests earlier) := by
  unfold storeWord
  split
  · rfl
  · cases accessKind c (accessAddrs W a.toNat c.wordBytes) <;> rfl

end OverlayAccess

end Sys2Proof.Machine
end

section
/-!
Pseudocodes that do not see the overlay, and those that change general registers only.
-/

namespace Sys2Proof.Machine

/-- The pseudocode does the same under an overlay. -/
def Unseen {W : Nat} (p : Run W → Except Abort (Run W)) : Prop :=
  ∀ (requests : List (BitVec W)) (earlier : List Byte) (k : Run W),
    p (k.overlay requests earlier) = (p k).map (Run.overlay requests earlier)

/-- The run differs in the general registers and the flag of the program counter only. -/
def Run.SameButRegisters {W : Nat} (k k' : Run W) : Prop :=
  ∃ x b, k' = { k with arch := { k.arch with x := x }, pcWritten := b }

theorem Run.sameButRegisters_setReg {W : Nat} (k : Run W) (r : Reg) (v : BitVec W) :
    k.SameButRegisters (k.setReg r v) := ⟨_, _, rfl⟩

theorem Run.SameButRegisters.refl {W : Nat} (k : Run W) : k.SameButRegisters k := ⟨_, _, rfl⟩

theorem Run.SameButRegisters.trans {W : Nat} {k k1 k2 : Run W} (h1 : k.SameButRegisters k1)
    (h2 : k1.SameButRegisters k2) : k.SameButRegisters k2 := by
  obtain ⟨_, _, rfl⟩ := h1
  obtain ⟨_, _, rfl⟩ := h2
  exact ⟨_, _, rfl⟩

/-- A pseudocode that changes general registers only and does not see the overlay. -/
structure RegisterProgram {W : Nat} (p : Run W → Except Abort (Run W)) : Prop where
  same : ∀ {k k' : Run W}, p k = .ok k' → k.SameButRegisters k'
  unseen : Unseen p

section RegisterPrograms
variable {W : Nat}

theorem RegisterProgram.of_total {p : Run W → Run W} (hs : ∀ k : Run W, k.SameButRegisters (p k))
    (hu : ∀ requests earlier k, p (Run.overlay requests earlier k) = (p k).overlay requests earlier) :
    RegisterProgram fun k => .ok (p k) where
  same := by
    rintro k _ ⟨⟩
    exact hs k
  unseen requests earlier k := congrArg Except.ok (hu requests earlier k)

/-- One write of a register whose value does not see the overlay. -/
theorem RegisterProgram.of_setReg (d : Reg) {f : Run W → BitVec W}
    (hf : ∀ requests earlier k, f (Run.overlay requests earlier k) = f k) :
    RegisterProgram fun k => .ok (k.setReg d (f k)) :=
  .of_total (fun k => k.sameButRegisters_setReg _ _) fun requests earlier k => by rw [hf, Run.overlay_setReg]

theorem registerProgram_registerOp (f : BitVec W → BitVec W → BitVec W) (d r : Reg) :
    RegisterProgram fun k => .ok (registerOp f d r k) := .of_setReg d fun _ _ _ => rfl

theorem registerProgram_immediateOp (f : BitVec W → BitVec W → BitVec W) (d : Reg) (n : BitVec 4) :
    RegisterProgram fun k => .ok (immediateOp f d n k) := .of_setReg d fun _ _ _ => rfl

theorem registerProgram_subwordOp (sex : Bool) (n : Nat) (d i : Reg) :
    RegisterProgram fun k : Run W => .ok (subwordOp sex n d i k) := .of_setReg d fun _ _ _ => rfl

theorem registerProgram_exchange (a b : Reg) : RegisterProgram fun k : Run W => .ok (exchange a b k) :=
  .of_total (fun k => (k.sameButRegisters_setReg _ _).trans (Run.sameButRegisters_setReg _ _ _)) fun _ _ _ => rfl

theorem sameButRegisters_jumpIf (taken : Bool) (off : BitVec W) (k : Run W) :
    k.SameButRegisters (jumpIf taken off k) := by
  cases taken
  · exact .refl k
  · exact k.sameButRegisters_setReg _ _

theorem jumpIf_overlay (requests : List (BitVec W)) (earlier : List Byte) (taken : Bool) (off : BitVec W) (k : Run W) :
    jumpIf taken off (k.overlay requests earlier) = (jumpIf taken off k).overlay requests earlier := by
  cases taken <;> rfl

/-- A jump on a test of one register, by an offset that does not see the overlay. -/
theorem registerProgram_jumpIf (test : BitVec W → Bool) (a : Reg) {off : Run W → BitVec W}
    (ho : ∀ requests earlier k, off (Run.overlay requests earlier k) = off k) :
    RegisterProgram fun k => .ok (jumpIf (test (k.reg a)) (off k) k) :=
  .of_total (fun k => sameButRegisters_jumpIf _ _ k) fun requests earlier k => by
    rw [Run.overlay_reg, ho, jumpIf_overlay]

theorem loopOffset_overlay (c : Config) (b : BitVec 4) (requests : List (BitVec W)) (earlier : List Byte) (k : Run W) :
    loopOffset c b (k.overlay requests earlier) = loopOffset c b k := by
  unfold loopOffset
  cases c.misc0111 <;> rfl

theorem registerProgram_decrementAndJump (c : Config) (a : Reg) (b : BitVec 4) :
    RegisterProgram fun k : Run W => .ok (decrementAndJump c a b k) := by
  refine .of_total (fun k => ?same) fun requests earlier k => ?unseen
  case same => exact (k.sameButRegisters_setReg _ _).trans (sameButRegisters_jumpIf _ _ _)
  case unseen =>
    simp only [decrementAndJump, Run.overlay_reg, Run.overlay_setReg, loopOffset_overlay, jumpIf_overlay]

theorem registerProgram_divideOp (f : BitVec W → BitVec W → BitVec W) (d : Reg) {rhs : Run W → BitVec W}
    (hr : ∀ requests earlier k, rhs (Run.overlay requests earlier k) = rhs k) :
    RegisterProgram fun k => divideOp f d (rhs k) k where
  same {k k'} h := by
    by_cases h0 : rhs k = 0
    · rw [h0, divideOp_zero] at h; cases h
    · rw [divideOp_nonzero f d k h0] at h; cases h
      exact k.sameButRegisters_setReg _ _
  unseen requests earlier k := by
    simp only [hr]
    by_cases h0 : rhs k = 0
    · rw [h0, divideOp_zero, divideOp_zero]; rfl
    · rw [divideOp_nonzero f d _ h0, divideOp_nonzero f d _ h0]; rfl

theorem RegisterProgram.guarded {p : Run W → Except Abort (Run W)} (hp : RegisterProgram p) (available : Bool) :
    RegisterProgram (requireAvailable available p) := by
  cases available
  · exact ⟨fun h => (nomatch h), fun _ _ _ => rfl⟩
  · exact hp

theorem registerProgram_loadRegister (a b : Reg) : RegisterProgram (loadRegister (W := W) a b) where
  same h := by
    obtain ⟨i, -, rfl⟩ := loadRegister_ok h
    exact Run.sameButRegisters_setReg _ _ _
  unseen requests earlier k := by
    unfold loadRegister
    rw [Run.overlay_reg]
    cases indexedReg (k.reg b) <;> rfl

theorem registerProgram_storeRegister (a b : Reg) : RegisterProgram (storeRegister (W := W) a b) where
  same h := by
    obtain ⟨i, -, rfl⟩ := storeRegister_ok h
    exact Run.sameButRegisters_setReg _ _ _
  unseen requests earlier k := by
    unfold storeRegister
    rw [Run.overlay_reg]
    cases indexedReg (k.reg b) <;> rfl

theorem readSysReg_overlay (c : Config) (n : SysReg) (requests : List (BitVec W)) (earlier : List Byte) (m : Arch W) :
    readSysReg c n (m.overlay requests earlier) = readSysReg c n m := by cases n <;> rfl

theorem registerProgram_readToRegister (c : Config) (r : Reg) (n : BitVec 8) :
    RegisterProgram (readToRegister (W := W) c r n) where
  same h := by
    obtain ⟨v, -, rfl⟩ := readToRegister_ok h
    exact Run.sameButRegisters_setReg _ _ _
  unseen requests earlier k := by
    unfold readToRegister
    rw [Run.overlay_arch, readSysReg_overlay]
    cases readSysReg c (sysReg n) k.arch <;> rfl

end RegisterPrograms

section OtherPrograms
variable {W : Nat} (c : Config)

theorem unseen_generateException : Unseen fun k : Run W => .ok (generateException k) := fun _ _ _ => rfl

theorem stepBefore_overlay (o : Operand) (requests : List (BitVec W)) (earlier : List Byte) (k : Run W) :
    stepBefore c o (k.overlay requests earlier) = (stepBefore c o k).overlay requests earlier := by
  unfold stepBefore
  cases o.mode <;> rfl

theorem stepAfter_overlay (o : Operand) (requests : List (BitVec W)) (earlier : List Byte) (k : Run W) :
    stepAfter c o (k.overlay requests earlier) = (stepAfter c o k).overlay requests earlier := by
  unfold stepAfter
  cases o.mode <;> rfl

theorem readOperand_overlay (o : Operand) (requests : List (BitVec W)) (earlier : List Byte) (k : Run W) :
    readOperand c o (k.overlay requests earlier) =
      (readOperand c o k).map fun p => (p.1, p.2.overlay requests earlier) := by
  simp only [readOperand, stepBefore_overlay, Run.overlay_reg, Run.overlay_arch, loadWord_overlay]
  cases o.indirect with
  | false => simp only [Bool.false_eq_true, if_false, stepAfter_overlay]; rfl
  | true =>
    cases loadWord c ((stepBefore c o k).reg o.reg) (stepBefore c o k).arch with
    | error f => rfl
    | ok p => simp only [Except.map, if_true, Run.overlay_with_arch, stepAfter_overlay]

theorem writeOperand_overlay (o : Operand) (v : BitVec W) : Unseen (writeOperand c o v) := by
  intro requests earlier k
  simp only [writeOperand, destAddr, stepBefore_overlay, Run.overlay_reg, Run.overlay_arch, storeWord_overlay]
  cases o.indirect with
  | false => simp only [Bool.false_eq_true, if_false, Run.overlay_setReg, stepAfter_overlay]; rfl
  | true =>
    cases storeWord c ((stepBefore c o k).reg o.reg) v (stepBefore c o k).arch with
    | error f => rfl
    | ok m => simp only [Except.map, if_true, Run.overlay_with_arch, stepAfter_overlay]

theorem unseen_transfer (dst src : Operand) : Unseen (transfer (W := W) c dst src) := by
  intro requests earlier k
  unfold transfer
  rw [readOperand_overlay]
  cases readOperand c src k with
  | error a => rfl
  | ok p => exact writeOperand_overlay c dst p.1 requests earlier p.2

theorem unseen_loadOffset (a : Reg) (imm : BitVec 4) : Unseen (loadOffset (W := W) c a imm) := by
  intro requests earlier k
  unfold loadOffset
  rw [Run.overlay_reg, Run.overlay_arch, loadWord_overlay]
  cases loadWord c (offsetAddr c (k.reg a) imm) k.arch <;> rfl

theorem unseen_writePowerState (v : BitVec W) : Unseen (writePowerState v) := by
  intro requests earlier k
  unfold writePowerState
  split
  · rfl
  · split <;> rfl

theorem unseen_writeSysReg (n : SysReg) (v : BitVec W) : Unseen (writeSysReg n v) := by
  intro requests earlier k
  cases n with
  | powerState => exact unseen_writePowerState v requests earlier k
  | debugOutput =>
    simp only [writeSysReg, Run.overlay, Arch.overlay, Except.map, List.append_assoc]
  | modelStepping | wordSize | handlingRoutine | retired | cycles | frequency | extensions | continuation | cause
  | undefined => rfl

end OtherPrograms

end Sys2Proof.Machine
end

section
/-!
No step sees masked requests or what the debug output stream holds: the two results of a step agree up to the overlay.
-/

namespace Sys2Proof.Machine

/-- The second result is the first one under the overlay. -/
def Overlaid (c : Config) (requests : List (BitVec c.wordBits)) (earlier : List Byte) (o o' : Result) : Prop :=
  (∀ m : Arch c.wordBits, o = .next { cfg := c, arch := m } →
    o' = .next { cfg := c, arch := m.overlay requests earlier }) ∧
  (∀ f, o = .fault f → o' = .fault f)

section OverlaidResults
variable {c : Config} (requests : List (BitVec c.wordBits)) (earlier : List Byte) (m : Arch c.wordBits)

theorem Overlaid.next : Overlaid c requests earlier (.next { cfg := c, arch := m })
    (.next { cfg := c, arch := m.overlay requests earlier }) :=
  ⟨fun m' h => by cases h; rfl, fun _ h => nomatch h⟩

theorem Overlaid.fault (f : Fault) : Overlaid c requests earlier (.fault f) (.fault f) :=
  ⟨fun _ h => (nomatch h), fun _ h => h⟩

theorem takeException_overlaid (len : Nat) (e : Exc) :
    Overlaid c requests earlier (takeException { cfg := c, arch := m } len e)
      (takeException { cfg := c, arch := m.overlay requests earlier } len e) := by
  cases h : m.exceptionsEnabled with
  | true =>
    rw [takeException_enabled len e h, takeException_enabled len e (s := ⟨c, m.overlay requests earlier⟩) h]
    exact .next requests earlier _
  | false =>
    rw [takeException_disabled len e h, takeException_disabled len e (s := ⟨c, m.overlay requests earlier⟩) h]
    exact .fault requests earlier _

/-- An instruction whose pseudocode does not see the overlay ends alike. -/
theorem Unseen.overlaid {p : Run c.wordBits → Except Abort (Run c.wordBits)} (hp : Unseen p) :
    Overlaid c requests earlier (execute { cfg := c, arch := m } p)
      (execute { cfg := c, arch := m.overlay requests earlier } p) := by
  have hrun := hp requests earlier (Run.start m)
  rw [← Run.start_overlay] at hrun
  cases h : p (Run.start m) with
  | ok k =>
    rw [h] at hrun
    rw [execute_of_ok (s := ⟨c, m⟩) h, execute_of_ok (s := ⟨c, m.overlay requests earlier⟩) hrun, retire_overlay]
    exact .next requests earlier _
  | error a =>
    rw [h] at hrun
    cases a with
    | raise e =>
      rw [execute_of_raise (s := ⟨c, m⟩) h, execute_of_raise (s := ⟨c, m.overlay requests earlier⟩) hrun]
      exact takeException_overlaid requests earlier m 2 e
    | modelFault f =>
      rw [execute_of_fault (s := ⟨c, m⟩) h, execute_of_fault (s := ⟨c, m.overlay requests earlier⟩) hrun]
      exact .fault requests earlier f

theorem RegisterProgram.overlaid {p : Run c.wordBits → Except Abort (Run c.wordBits)} (hp : RegisterProgram p) :
    Overlaid c requests earlier (execute { cfg := c, arch := m } p)
      (execute { cfg := c, arch := m.overlay requests earlier } p) := hp.unseen.overlaid requests earlier m

/-- No instruction sees the overlay. -/
theorem exec_overlaid (i : Instr) :
    Overlaid c requests earlier (exec i { cfg := c, arch := m })
      (exec i { cfg := c, arch := m.overlay requests earlier }) := by
  cases i with
  | deg => exact unseen_generateException.overlaid requests earlier m
  | bitF d r | bitNor d r | bitNci d r | bitNd d r | bitNmi d r | bitNs d r | bitXor d r | bitNand d r | bitAnd d r
  | bitXnor d r | bitS d r | bitMi d r | bitD d r | bitCi d r | bitOr d r | bitT d r
  | add d r | sub d r | shl d r | shr d r | asr d r
  | cmpF d r | cmpEq d r | cmpAb d r | cmpAbe d r | cmpSf d r | cmpSeq d r | cmpGt d r | cmpGte d r | cmpT d r
  | cmpNeq d r | cmpBle d r | cmpBl d r | cmpSt d r | cmpSneq d r | cmpLte d r | cmpLt d r =>
    exact (registerProgram_registerOp _ d r).overlaid requests earlier m
  | addi d n | subi d n | shli d n | shri d n | asri d n =>
    exact (registerProgram_immediateOp _ d n).overlaid requests earlier m
  | mul d r | mmul d r =>
    exact ((registerProgram_registerOp _ d r).guarded _).overlaid requests earlier m
  | muli d n => exact ((registerProgram_immediateOp _ d n).guarded _).overlaid requests earlier m
  | div d r | mod d r | mdiv d r | mmod d r =>
    exact ((registerProgram_divideOp _ d (rhs := fun k => k.reg r) fun _ _ _ => rfl).guarded _).overlaid
      requests earlier m
  | divi d n | modi d n =>
    exact ((registerProgram_divideOp _ d (rhs := fun _ => zext _ n) fun _ _ _ => rfl).guarded _).overlaid
      requests earlier m
  | xf dst src => exact (unseen_transfer c dst src).overlaid requests earlier m
  | subw d j size | subws d j size => exact (registerProgram_subwordOp _ size d j).overlaid requests earlier m
  | srr r n => exact (registerProgram_readToRegister c r n).overlaid requests earlier m
  | srw r n =>
    exact Unseen.overlaid (p := fun k => writeSysReg (sysReg n) (k.reg r) k) requests earlier m
      fun requests' earlier' k => unseen_writeSysReg (sysReg n) (k.reg r) requests' earlier' k
  | si d n => exact (RegisterProgram.of_setReg d (f := fun _ => zext _ n) fun _ _ _ => rfl).overlaid requests earlier m
  | sel d n z =>
    exact (RegisterProgram.of_setReg d (f := fun k => if isNonzero (k.reg d) then k.reg n else k.reg z)
      fun _ _ _ => rfl).overlaid requests earlier m
  | swap a b => exact (registerProgram_exchange a b).overlaid requests earlier m
  | ldreg a b => exact (registerProgram_loadRegister a b).overlaid requests earlier m
  | streg a b => exact (registerProgram_storeRegister a b).overlaid requests earlier m
  | ldoff a imm => exact (unseen_loadOffset c a imm).overlaid requests earlier m
  | loop a b => exact (registerProgram_decrementAndJump c a b).overlaid requests earlier m
  | bnz a n | jz a n | jnz a n | jgz a n | jlz a n =>
    exact (registerProgram_jumpIf _ a (off := fun _ => jumpBytes _ n) fun _ _ _ => rfl).overlaid
      requests earlier m
  | jzr a b | jnzr a b | jgzr a b | jlzr a b =>
    exact (registerProgram_jumpIf _ a (off := fun k => k.reg b) fun _ _ _ => rfl).overlaid
      requests earlier m
  | long l ext => exact takeException_overlaid requests earlier m _ _

end OverlaidResults

theorem step_of_halted {s : State} (h : s.arch.halted = true) : step s = .fault .halted := by simp [step, h]

theorem step_of_interrupt {s : State} (hh : s.arch.halted = false) (hi : s.InterruptTaken) :
    step s = .next { cfg := s.cfg, arch := takeInterrupt s.arch } := by
  simp [step, hh, hi.1, hi.2]

section Fetching
variable {s : State} (hs : s.Fetching)
include hs

theorem step_tests_of_fetching :
    s.arch.halted = false ∧ (s.arch.exceptionsEnabled && !s.arch.pending.isEmpty) = false :=
  ⟨hs.1, by simpa [State.InterruptTaken] using hs.2⟩

theorem step_of_fetch_error {f : Fault} (h : fetch s.cfg s.arch = .error f) : step s = .fault f := by
  simp [step, step_tests_of_fetching hs, h]

/-- The step runs the instruction it fetched, in the state the fetch left. -/
theorem step_of_fetch_ok {w : IWord} {m : Arch s.W} {i : Instr} (h : fetch s.cfg s.arch = .ok (w, m))
    (hd : decode w = .ok i) : step s = exec i { cfg := s.cfg, arch := m } := by
  simp [step, step_tests_of_fetching hs, h, hd]

theorem step_of_fetch_rejected {w : IWord} {m : Arch s.W} {r : Reject} (h : fetch s.cfg s.arch = .ok (w, m))
    (hd : decode w = .error r) : step s = takeException { cfg := s.cfg, arch := m } 2 .illegalInstruction := by
  simp [step, step_tests_of_fetching hs, h, hd]

end Fetching

/-- Two cores that differ by the overlay and are both about to fetch step alike. -/
theorem overlaid_step_of_fetching {s : State} {requests : List (BitVec s.W)} {earlier : List Byte} (hs : s.Fetching)
    (hs' : (s.overlay requests earlier).Fetching) :
    Overlaid s.cfg requests earlier (step s) (step (s.overlay requests earlier)) := by
  have hfetch := fetch_overlay s.cfg requests earlier s.arch
  cases h : fetch s.cfg s.arch with
  | error f =>
    rw [h] at hfetch
    rw [step_of_fetch_error hs h, step_of_fetch_error hs' hfetch]
    exact .fault requests earlier f
  | ok p =>
    obtain ⟨w, m⟩ := p
    rw [h] at hfetch
    cases hd : decode w with
    | ok i =>
      rw [step_of_fetch_ok hs h hd, step_of_fetch_ok hs' hfetch hd]
      exact exec_overlaid requests earlier m i
    | error r =>
      rw [step_of_fetch_rejected hs h hd, step_of_fetch_rejected hs' hfetch hd]
      exact takeException_overlaid requests earlier m 2 .illegalInstruction

/-- Settles O60, by the three ways a step begins: halted, interrupted, fetching. -/
theorem maskedRequestsAndDebugUnseen : Obligations.MaskedRequestsAndDebugUnseen := by
  intro s requests earlier hmasked
  change Overlaid s.cfg requests earlier (step s) (step (s.overlay requests earlier))
  by_cases hh : s.arch.halted = true
  · rw [step_of_halted hh, step_of_halted (s := s.overlay requests earlier) hh]
    exact .fault requests earlier _
  have hrun : s.arch.halted = false := by simpa using hh
  by_cases hi : s.InterruptTaken
  · obtain rfl : requests = s.arch.pending := by
      rcases hmasked with hdis | heq
      · exact absurd hi.1 (by simp [hdis])
      · exact heq
    rw [step_of_interrupt hrun hi, step_of_interrupt (s := s.overlay s.arch.pending earlier) hrun hi]
    exact .next s.arch.pending earlier (takeInterrupt s.arch)
  · refine overlaid_step_of_fetching ⟨hrun, hi⟩ ⟨hrun, fun hi' => ?_⟩
    rcases hmasked with hdis | rfl
    · have hen : s.arch.exceptionsEnabled = true := hi'.1
      exact absurd hen (by simp [hdis])
    · exact hi hi'

end Sys2Proof.Machine
end

section
/-!
Everything an instruction can do when it gives a next state, said once: what its pseudocode may touch, or the precise
trap.
-/

namespace Sys2Proof.Machine

/-- The system registers, the halted state, the requests and the debug output stream are as they were. -/
structure Run.KeepsSystem {W : Nat} (k k' : Run W) : Prop where
  sr2 : k'.arch.sr2 = k.arch.sr2
  sr4 : k'.arch.sr4 = k.arch.sr4
  sr5 : k'.arch.sr5 = k.arch.sr5
  sr8 : k'.arch.sr8 = k.arch.sr8
  sr9 : k'.arch.sr9 = k.arch.sr9
  halted : k'.arch.halted = k.arch.halted
  pending : k'.arch.pending = k.arch.pending
  debugOut : k'.arch.debugOut = k.arch.debugOut
  sr4Written : k'.sr4Written = k.sr4Written

section KeepsSystem
variable {W : Nat} {c : Config} {k k1 k' : Run W}

theorem Run.SameButRegisters.keepsSystem (h : k.SameButRegisters k') : k.KeepsSystem k' := by
  obtain ⟨x, b, rfl⟩ := h
  exact ⟨rfl, rfl, rfl, rfl, rfl, rfl, rfl, rfl, rfl⟩

theorem Run.KeepsSystem.trans (h1 : k.KeepsSystem k1) (h2 : k1.KeepsSystem k') : k.KeepsSystem k' where
  sr2 := h2.sr2.trans h1.sr2
  sr4 := h2.sr4.trans h1.sr4
  sr5 := h2.sr5.trans h1.sr5
  sr8 := h2.sr8.trans h1.sr8
  sr9 := h2.sr9.trans h1.sr9
  halted := h2.halted.trans h1.halted
  pending := h2.pending.trans h1.pending
  debugOut := h2.debugOut.trans h1.debugOut
  sr4Written := h2.sr4Written.trans h1.sr4Written

theorem sameButRegisters_stepBefore (c : Config) (o : Operand) (k : Run W) : k.SameButRegisters (stepBefore c o k) := by
  unfold stepBefore
  split
  · exact k.sameButRegisters_setReg _ _
  · exact .refl k

theorem sameButRegisters_stepAfter (c : Config) (o : Operand) (k : Run W) : k.SameButRegisters (stepAfter c o k) := by
  unfold stepAfter
  split
  · exact k.sameButRegisters_setReg _ _
  · exact k.sameButRegisters_setReg _ _
  · exact .refl k

theorem loadWord_keepsSystem {a v : BitVec W} {m : Arch W} (h : loadWord c a k.arch = .ok (v, m)) :
    k.KeepsSystem { k with arch := m } := by
  obtain ⟨-, ⟨-, rfl, -⟩ | ⟨-, rfl, -⟩⟩ := loadWord_ok h <;> exact ⟨rfl, rfl, rfl, rfl, rfl, rfl, rfl, rfl, rfl⟩

theorem storeWord_keepsSystem {a v : BitVec W} {m : Arch W} (h : storeWord c a v k.arch = .ok m) :
    k.KeepsSystem { k with arch := m } := by
  obtain ⟨-, ⟨-, rfl⟩ | ⟨-, rfl⟩⟩ := storeWord_ok h <;> exact ⟨rfl, rfl, rfl, rfl, rfl, rfl, rfl, rfl, rfl⟩

theorem readOperand_keepsSystem {o : Operand} {v : BitVec W} (h : readOperand c o k = .ok (v, k')) :
    k.KeepsSystem k' := by
  have hbefore := (sameButRegisters_stepBefore c o k).keepsSystem
  obtain ⟨-, -, rfl⟩ | ⟨-, m, hl, rfl⟩ := readOperand_ok h
  · exact hbefore.trans (sameButRegisters_stepAfter c o _).keepsSystem
  · exact (hbefore.trans (loadWord_keepsSystem hl)).trans (sameButRegisters_stepAfter c o _).keepsSystem

theorem writeOperand_keepsSystem {o : Operand} {v : BitVec W} (h : writeOperand c o v k = .ok k') :
    k.KeepsSystem k' := by
  have hbefore := (sameButRegisters_stepBefore c o k).keepsSystem
  obtain ⟨-, rfl⟩ | ⟨-, m, hs, rfl⟩ := writeOperand_ok h
  · exact (hbefore.trans (Run.sameButRegisters_setReg _ _ _).keepsSystem).trans
      (sameButRegisters_stepAfter c o _).keepsSystem
  · exact (hbefore.trans (storeWord_keepsSystem hs)).trans (sameButRegisters_stepAfter c o _).keepsSystem

theorem transfer_keepsSystem {dst src : Operand} (h : transfer c dst src k = .ok k') : k.KeepsSystem k' := by
  obtain ⟨v, k1, hr, hw⟩ := transfer_ok h
  exact (readOperand_keepsSystem hr).trans (writeOperand_keepsSystem hw)

theorem loadOffset_keepsSystem {a : Reg} {imm : BitVec 4} (h : loadOffset c a imm k = .ok k') : k.KeepsSystem k' := by
  obtain ⟨v, m, hl, rfl⟩ := loadOffset_ok h
  exact (loadWord_keepsSystem hl).trans (Run.sameButRegisters_setReg _ _ _).keepsSystem

end KeepsSystem

/-- What an instruction that changes no system state does to memory and to devices. -/
inductive MemoryEffect {W : Nat} (i : Instr) (m m' : Arch W) : Prop
  /-- No access. -/
  | none (hmem : m'.mem = m.mem) (hbus : m'.bus = m.bus)
  /-- A load. -/
  | load (hi : (∃ dst src, i = .xf dst src ∧ src.indirect = true) ∨ ∃ a imm, i = .ldoff a imm)
      (hmem : m'.mem = m.mem)
  /-- A store, of one word to plain memory or to a device. -/
  | store (hi : ∃ dst src, i = .xf dst src ∧ dst.indirect = true)
      (hmem : m'.mem = m.mem ∨ ∃ a n bs, m'.mem = Memory.writeAll m.mem (accessAddrs W a n) bs)

section MemoryEffects
variable {W : Nat} {c : Config} {k k' : Run W} {i : Instr}

theorem Run.SameButRegisters.memoryEffect (h : k.SameButRegisters k') : MemoryEffect i k.arch k'.arch := by
  obtain ⟨x, b, rfl⟩ := h
  exact .none rfl rfl

theorem readOperand_mem {o : Operand} {v : BitVec W} (h : readOperand c o k = .ok (v, k')) :
    k'.arch.mem = k.arch.mem ∧ (o.indirect = false → k'.arch.bus = k.arch.bus) := by
  obtain ⟨-, -, rfl⟩ | ⟨hi, m, hl, rfl⟩ := readOperand_ok h
  · simp
  · have hmem := loadWord_mem hl
    simpa [hi] using hmem

theorem writeOperand_mem {o : Operand} {v : BitVec W} (h : writeOperand c o v k = .ok k') :
    (o.indirect = false ∧ k'.arch.mem = k.arch.mem ∧ k'.arch.bus = k.arch.bus) ∨
      (o.indirect = true ∧ (k'.arch.mem = k.arch.mem ∨
        ∃ a n bs, k'.arch.mem = Memory.writeAll k.arch.mem (accessAddrs W a n) bs)) := by
  obtain ⟨hi, rfl⟩ | ⟨hi, m, hs, rfl⟩ := writeOperand_ok h
  · exact .inl ⟨hi, by simp, by simp⟩
  · obtain ⟨-, ⟨-, rfl⟩ | ⟨-, rfl⟩⟩ := storeWord_ok hs
    · exact .inr ⟨hi, .inr ⟨_, _, _, by rw [stepAfter_mem, stepBefore_mem]⟩⟩
    · exact .inr ⟨hi, .inl (by simp)⟩

theorem transfer_memoryEffect {dst src : Operand} (h : transfer c dst src k = .ok k') :
    MemoryEffect (.xf dst src) k.arch k'.arch := by
  obtain ⟨v, k1, hr, hw⟩ := transfer_ok h
  obtain ⟨hmem, hbus⟩ := readOperand_mem hr
  obtain ⟨-, hmem', hbus'⟩ | ⟨hdst, hmem'⟩ := writeOperand_mem hw
  · cases hsrc : src.indirect with
    | false => exact .none (hmem'.trans hmem) (hbus'.trans (hbus hsrc))
    | true => exact .load (.inl ⟨dst, src, rfl, hsrc⟩) (hmem'.trans hmem)
  · rw [hmem] at hmem'
    exact .store ⟨dst, src, rfl, hdst⟩ hmem'

theorem loadOffset_memoryEffect {a : Reg} {imm : BitVec 4} (h : loadOffset c a imm k = .ok k') :
    MemoryEffect (.ldoff a imm) k.arch k'.arch := by
  obtain ⟨v, m, hl, rfl⟩ := loadOffset_ok h
  have hmem : m.mem = k.arch.mem := loadWord_mem hl
  exact .load (.inr ⟨a, imm, rfl⟩) hmem

end MemoryEffects

/-- The instructions that can raise an exception (60_exceptions.md rules R301 and R302). -/
def Instr.MayRaise (i : Instr) : Prop :=
  (∃ d r, i = .mul d r ∨ i = .div d r ∨ i = .mod d r ∨ i = .mmul d r ∨ i = .mdiv d r ∨ i = .mmod d r) ∨
    (∃ d n, i = .muli d n ∨ i = .divi d n ∨ i = .modi d n) ∨ (∃ l x, i = .long l x)

theorem Instr.MayRaise.ne_srw {i : Instr} (h : Instr.MayRaise i) (r : Reg) (n : BitVec 8) : i ≠ .srw r n := by
  rintro rfl
  simp [Instr.MayRaise] at h

/-- What an instruction can leave (`exec_effect`). -/
inductive Effect (s : State) (i : Instr) : Arch s.W → Prop
  /-- It completed, and moved words between registers, memory and devices. -/
  | data (k : Run s.W) (hsys : (Run.start s.arch).KeepsSystem k) (hmem : MemoryEffect i s.arch k.arch) :
    Effect s i (retire k)
  /-- It completed, and wrote a system register. -/
  | system (r : Reg) (n : BitVec 8) (k : Run s.W) (hi : i = .srw r n)
      (hw : writeSysReg (sysReg n) (s.arch.reg r) (Run.start s.arch) = .ok k) : Effect s i (retire k)
  /-- It is the exception generator. -/
  | generator (hi : i = .deg) : Effect s i (retire (generateException (Run.start s.arch)))
  /-- It raised Divide by Zero or Illegal instruction. -/
  | trap (e : Exc) (cont : BitVec s.W) (he : e ≠ .supervisorRequest) (hen : s.arch.exceptionsEnabled = true)
      (hi : Instr.MayRaise i) : Effect s i (trapEntry (e.causeWord s.W) cont s.arch)

section ExecEffect
variable {s t : State} {i : Instr} {p : Run s.W → Except Abort (Run s.W)}

/-- A pseudocode that never raises and moves words only. -/
theorem effect_of_data (hsys : ∀ k, p (Run.start s.arch) = .ok k → (Run.start s.arch).KeepsSystem k)
    (hmem : ∀ k, p (Run.start s.arch) = .ok k → MemoryEffect i s.arch k.arch)
    (hraise : ∀ e, p (Run.start s.arch) ≠ .error (.raise e)) (h : execute s p = .next t) :
    ∃ m, t = { cfg := s.cfg, arch := m } ∧ Effect s i m := by
  obtain ⟨k, hk, rfl⟩ | ⟨e, he, -⟩ := execute_next h
  · exact ⟨_, rfl, .data k (hsys k hk) (hmem k hk)⟩
  · exact absurd he (hraise e)

theorem RegisterProgram.effect (hp : RegisterProgram p) (hraise : ∀ e, p (Run.start s.arch) ≠ .error (.raise e))
    (h : execute s p = .next t) : ∃ m, t = { cfg := s.cfg, arch := m } ∧ Effect s i m :=
  effect_of_data (fun _ hk => (hp.same hk).keepsSystem) (fun _ hk => (hp.same hk).memoryEffect) hraise h

theorem RegisterProgram.effect_of_total {p : Run s.W → Run s.W} (hp : RegisterProgram fun k => .ok (p k))
    (h : executeOk s p = .next t) : ∃ m, t = { cfg := s.cfg, arch := m } ∧ Effect s i m :=
  hp.effect (fun _ h => nomatch h) h

/-- An instruction that may lack what it needs, and may divide by zero. -/
theorem RegisterProgram.effect_of_guarded {available : Bool} (hp : RegisterProgram p) (hi : Instr.MayRaise i)
    (hraise : ∀ e, p (Run.start s.arch) = .error (.raise e) → e = .divideByZero)
    (h : execute s (requireAvailable available p) = .next t) : ∃ m, t = { cfg := s.cfg, arch := m } ∧ Effect s i m := by
  obtain ⟨k, hk, rfl⟩ | ⟨e, he, hen, rfl⟩ := execute_next h
  · have hsame := (hp.guarded available).same hk
    exact ⟨_, rfl, .data k hsame.keepsSystem hsame.memoryEffect⟩
  · refine ⟨_, rfl, .trap e _ ?_ hen hi⟩
    cases available with
    | false => cases he; nofun
    | true => rw [hraise e he]; nofun

theorem divideOp_raise {W : Nat} {f : BitVec W → BitVec W → BitVec W} {d : Reg} {v : BitVec W} {k : Run W} {e : Exc}
    (h : divideOp f d v k = .error (.raise e)) : e = .divideByZero := by
  unfold divideOp at h
  split at h <;> cases h
  rfl

theorem indexedReg_not_raise {W : Nat} {v : BitVec W} {e : Exc} : indexedReg v ≠ .error (.raise e) := by
  unfold indexedReg
  split <;> nofun

theorem loadRegister_not_raise {W : Nat} {a b : Reg} {k : Run W} {e : Exc} :
    loadRegister a b k ≠ .error (.raise e) := by
  intro h
  unfold loadRegister at h
  split at h <;> cases h
  rename_i hi
  exact indexedReg_not_raise hi

theorem storeRegister_not_raise {W : Nat} {a b : Reg} {k : Run W} {e : Exc} :
    storeRegister a b k ≠ .error (.raise e) := by
  intro h
  unfold storeRegister at h
  split at h <;> cases h
  rename_i hi
  exact indexedReg_not_raise hi

theorem readToRegister_not_raise {W : Nat} {c : Config} {r : Reg} {n : BitVec 8} {k : Run W} {e : Exc} :
    readToRegister c r n k ≠ .error (.raise e) := by
  intro h
  unfold readToRegister at h
  split at h <;> cases h
  rename_i hr
  exact readSysReg_not_raise hr

theorem loadOffset_not_raise {W : Nat} {c : Config} {a : Reg} {imm : BitVec 4} {k : Run W} {e : Exc} :
    loadOffset c a imm k ≠ .error (.raise e) := by
  intro h
  unfold loadOffset at h
  split at h <;> cases h

/-- Everything an instruction can do when it gives a next state. -/
theorem exec_effect (h : exec i s = .next t) : ∃ m, t = { cfg := s.cfg, arch := m } ∧ Effect s i m := by
  cases i with
  | deg => cases h; exact ⟨_, rfl, .generator rfl⟩
  | bitF d r | bitNor d r | bitNci d r | bitNd d r | bitNmi d r | bitNs d r | bitXor d r | bitNand d r | bitAnd d r
  | bitXnor d r | bitS d r | bitMi d r | bitD d r | bitCi d r | bitOr d r | bitT d r
  | add d r | sub d r | shl d r | shr d r | asr d r
  | cmpF d r | cmpEq d r | cmpAb d r | cmpAbe d r | cmpSf d r | cmpSeq d r | cmpGt d r | cmpGte d r | cmpT d r
  | cmpNeq d r | cmpBle d r | cmpBl d r | cmpSt d r | cmpSneq d r | cmpLte d r | cmpLt d r =>
    exact (registerProgram_registerOp _ d r).effect_of_total h
  | addi d n | subi d n | shli d n | shri d n | asri d n => exact (registerProgram_immediateOp _ d n).effect_of_total h
  | mul d r | mmul d r =>
    exact (registerProgram_registerOp _ d r).effect_of_guarded (by simp [Instr.MayRaise]) (fun _ he => nomatch he) h
  | muli d n =>
    exact (registerProgram_immediateOp _ d n).effect_of_guarded (by simp [Instr.MayRaise]) (fun _ he => nomatch he) h
  | div d r | mod d r | mdiv d r | mmod d r =>
    exact (registerProgram_divideOp _ d (rhs := fun k => k.reg r) fun _ _ _ => rfl).effect_of_guarded
      (by simp [Instr.MayRaise]) (fun _ => divideOp_raise) h
  | divi d n | modi d n =>
    exact (registerProgram_divideOp _ d (rhs := fun _ => zext _ n) fun _ _ _ => rfl).effect_of_guarded
      (by simp [Instr.MayRaise]) (fun _ => divideOp_raise) h
  | xf dst src =>
    exact effect_of_data (fun _ => transfer_keepsSystem) (fun _ => transfer_memoryEffect)
      (fun _ => transfer_not_raise) h
  | subw d j size | subws d j size => exact (registerProgram_subwordOp _ size d j).effect_of_total h
  | srr r n => exact (registerProgram_readToRegister s.cfg r n).effect (fun _ => readToRegister_not_raise) h
  | srw r n =>
    obtain ⟨k, hk, rfl⟩ | ⟨e, he, -⟩ := execute_next h
    · exact ⟨_, rfl, .system r n k rfl hk⟩
    · exact absurd he writeSysReg_not_raise
  | si d n => exact (RegisterProgram.of_setReg d (f := fun _ => zext _ n) fun _ _ _ => rfl).effect_of_total h
  | sel d n z =>
    exact (RegisterProgram.of_setReg d (f := fun k => if isNonzero (k.reg d) then k.reg n else k.reg z)
      fun _ _ _ => rfl).effect_of_total h
  | swap a b => exact (registerProgram_exchange a b).effect_of_total h
  | ldreg a b => exact (registerProgram_loadRegister a b).effect (fun _ => loadRegister_not_raise) h
  | streg a b => exact (registerProgram_storeRegister a b).effect (fun _ => storeRegister_not_raise) h
  | ldoff a imm =>
    exact effect_of_data (fun _ => loadOffset_keepsSystem) (fun _ => loadOffset_memoryEffect)
      (fun _ => loadOffset_not_raise) h
  | loop a b => exact (registerProgram_decrementAndJump s.cfg a b).effect_of_total h
  | bnz a n | jz a n | jnz a n | jgz a n | jlz a n =>
    exact (registerProgram_jumpIf _ a (off := fun _ => jumpBytes _ n) fun _ _ _ => rfl).effect_of_total h
  | jzr a b | jnzr a b | jgzr a b | jlzr a b =>
    exact (registerProgram_jumpIf _ a (off := fun k => k.reg b) fun _ _ _ => rfl).effect_of_total h
  | long l ext =>
    obtain ⟨hen, rfl⟩ := takeException_next h
    exact ⟨_, rfl, .trap .illegalInstruction _ nofun hen (by simp [Instr.MayRaise])⟩

/-- The same of a state the instruction is said to leave. -/
theorem Effect.of_completes {m : Arch s.W} (h : s.Completes i m) : Effect s i m := by
  obtain ⟨m', hm, heff⟩ := exec_effect h
  cases hm
  exact heff

end ExecEffect

end Sys2Proof.Machine
end

section
/-!
Whole-machine rules over all instructions, each read off `Effect`: who halts, who is counted, who writes the exception
registers, the debug output stream and memory, and what every step keeps.
-/

namespace Sys2Proof.Machine

/-- The number of a system register that exists (10_state.md rule R31). -/
theorem sysReg_powerState {n : BitVec 8} : sysReg n = .powerState → n = 3 := by decide +revert
theorem sysReg_retired {n : BitVec 8} : sysReg n = .retired → n = 4 := by decide +revert
theorem sysReg_handlingRoutine {n : BitVec 8} : sysReg n = .handlingRoutine → n = 2 := by decide +revert
theorem sysReg_continuation {n : BitVec 8} : sysReg n = .continuation → n = 8 := by decide +revert
theorem sysReg_cause {n : BitVec 8} : sysReg n = .cause → n = 9 := by decide +revert
theorem sysReg_debugOutput {n : BitVec 8} : sysReg n = .debugOutput → n = 10 := by decide +revert

/-- The cause words of the exceptions an instruction raises (10_state.md rule R41). -/
theorem causeWord_of_ne_supervisorRequest {e : Exc} (he : e ≠ .supervisorRequest) (W : Nat) :
    e.causeWord W = BitVec.ofNat W 1 ∨ e.causeWord W = BitVec.ofNat W 3 := by
  cases e with
  | divideByZero => exact .inl rfl
  | illegalInstruction => exact .inr rfl
  | supervisorRequest => exact absurd rfl he

/-- Entering the handler writes what rule R304 lists and nothing else. -/
theorem trapped_trapEntry {W : Nat} (cause cont : BitVec W) (m : Arch W) :
    m.Trapped cause cont (trapEntry cause cont m) where
  sr2 := rfl
  pc := trapEntry_reg_zero cause cont m
  sr8 := rfl
  sr9 := rfl
  regs _ hj := trapEntry_reg_ne cause cont m hj
  sr4 := rfl
  sr5 := rfl
  halted := rfl
  pending := rfl
  debugOut := rfl
  bus := rfl
  mem _ := rfl

/-- A system register write reaches neither the requests nor memory nor a device. -/
theorem writeSysReg_frame {W : Nat} {r : SysReg} {v : BitVec W} {k k' : Run W} (h : writeSysReg r v k = .ok k') :
    k'.arch.pending = k.arch.pending ∧ k'.arch.mem = k.arch.mem ∧ k'.arch.bus = k.arch.bus := by
  obtain ⟨-, rfl⟩ | ⟨-, -, rfl⟩ | ⟨-, -, rfl⟩ | ⟨-, rfl⟩ | ⟨-, rfl⟩ | ⟨-, rfl⟩ | ⟨-, rfl⟩ | ⟨-, rfl⟩ :=
    writeSysReg_ok h
  all_goals exact ⟨rfl, rfl, rfl⟩

section EffectRules
variable {s : State} {i : Instr} {m : Arch s.W}

theorem Effect.halted (h : Effect s i m) :
    m.halted = s.arch.halted ∨ ∃ r, i = .srw r 3 ∧ (s.arch.reg r).toNat = 1 := by
  cases h with
  | data k hsys hmem => exact .inl (by rw [retire_halted, hsys.halted, Run.start_arch])
  | system r n k hi hw =>
    obtain ⟨-, rfl⟩ | ⟨hn, hv, rfl⟩ | ⟨-, -, rfl⟩ | ⟨-, rfl⟩ | ⟨-, rfl⟩ | ⟨-, rfl⟩ | ⟨-, rfl⟩ | ⟨-, rfl⟩ :=
      writeSysReg_ok hw
    case inr.inl =>
      rw [sysReg_powerState hn] at hi
      exact .inr ⟨r, hi, hv⟩
    all_goals exact .inl (by simp)
  | generator hi => exact .inl (by simp)
  | trap e cont he hen hi => exact .inl rfl

theorem Effect.pending (h : Effect s i m) : m.pending = s.arch.pending := by
  cases h with
  | data k hsys hmem => rw [retire_pending, hsys.pending, Run.start_arch]
  | system r n k hi hw =>
    obtain ⟨hpending, -, -⟩ := writeSysReg_frame hw
    rw [retire_pending, hpending, Run.start_arch]
  | generator hi => simp
  | trap e cont he hen hi => rfl

theorem Effect.debugOut (h : Effect s i m) : m.debugOut = s.arch.debugOut ∨
    ∃ r, i = .srw r 10 ∧ m.debugOut = s.arch.debugOut ++ [BitVec.ofNat 8 (s.arch.reg r).toNat] := by
  cases h with
  | data k hsys hmem => exact .inl (by rw [retire_debugOut, hsys.debugOut, Run.start_arch])
  | system r n k hi hw =>
    obtain ⟨-, rfl⟩ | ⟨-, -, rfl⟩ | ⟨-, -, rfl⟩ | ⟨-, rfl⟩ | ⟨-, rfl⟩ | ⟨-, rfl⟩ | ⟨-, rfl⟩ | ⟨hn, rfl⟩ :=
      writeSysReg_ok hw
    case inr.inr.inr.inr.inr.inr.inr =>
      rw [sysReg_debugOutput hn] at hi
      exact .inr ⟨r, hi, by simp⟩
    all_goals exact .inl (by simp)
  | generator hi => exact .inl (by simp)
  | trap e cont he hen hi => exact .inl rfl

theorem Effect.memoryEffect (h : Effect s i m) : MemoryEffect i s.arch m := by
  cases h with
  | data k hsys hmem =>
    cases hmem with
    | none hmem hbus => exact .none (by rw [retire_mem, hmem]) (by rw [retire_bus, hbus])
    | load hi hmem => exact .load hi (by rw [retire_mem, hmem])
    | store hi hmem => exact .store hi (by rwa [retire_mem])
  | system r n k hi hw =>
    obtain ⟨-, hmem, hbus⟩ := writeSysReg_frame hw
    exact .none (by rw [retire_mem, hmem, Run.start_arch]) (by rw [retire_bus, hbus, Run.start_arch])
  | generator hi => exact .none (by simp) (by simp)
  | trap e cont he hen hi => exact .none rfl rfl

end EffectRules

/-- Settles O42: only a trap is not counted, and only SRW of SR 4 replaces the count. -/
theorem retiredOrPreciselyTrapped : Obligations.RetiredOrPreciselyTrapped := by
  intro s i m h
  cases Effect.of_completes h with
  | data k hsys hmem => exact .inl (by simp [hsys.sr4, hsys.sr4Written])
  | system r n k hi hw =>
    obtain ⟨-, rfl⟩ | ⟨-, -, rfl⟩ | ⟨-, -, rfl⟩ | ⟨hn, rfl⟩ | ⟨-, rfl⟩ | ⟨-, rfl⟩ | ⟨-, rfl⟩ | ⟨-, rfl⟩ :=
      writeSysReg_ok hw
    case inr.inr.inr.inl =>
      rw [sysReg_retired hn] at hi
      exact .inr (.inl ⟨r, hi, by simp⟩)
    all_goals exact .inl (by simp)
  | generator hi => exact .inl (by simp)
  | trap e cont he hen hi =>
    exact .inr (.inr ⟨hen, ⟨_, cont, causeWord_of_ne_supervisorRequest he s.W, trapped_trapEntry _ _ _⟩, hi⟩)

/-- Settles O43: SRW writes by its number, the generator and a trap enter the handler. -/
theorem exceptionRegisterWriters : Obligations.ExceptionRegisterWriters := by
  intro s i m h
  cases Effect.of_completes h with
  | data k hsys hmem => exact .inl (by simp [hsys.sr2, hsys.sr8, hsys.sr9])
  | system r n k hi hw =>
    obtain ⟨hn, rfl⟩ | ⟨-, -, rfl⟩ | ⟨-, -, rfl⟩ | ⟨-, rfl⟩ | ⟨-, rfl⟩ | ⟨hn, rfl⟩ | ⟨hn, rfl⟩ | ⟨-, rfl⟩ :=
      writeSysReg_ok hw
    case inl =>
      rw [sysReg_handlingRoutine hn] at hi
      exact .inr (.inl ⟨r, hi, by simp⟩)
    case inr.inr.inr.inr.inr.inl =>
      rw [sysReg_continuation hn] at hi
      exact .inr (.inr (.inl ⟨r, hi, by simp⟩))
    case inr.inr.inr.inr.inr.inr.inl =>
      rw [sysReg_cause hn] at hi
      exact .inr (.inr (.inr (.inl ⟨r, hi, by simp⟩)))
    all_goals exact .inl (by simp)
  | generator hi =>
    refine .inr (.inr (.inr (.inr ⟨by simp, ?_, .inl (by simp), by simp [hi]⟩)))
    rw [retire_generateException_reg, retire_sr2, generateException_arch, trapEntry_reg_zero]
  | trap e cont he hen hi =>
    exact .inr (.inr (.inr (.inr ⟨rfl, trapEntry_reg_zero _ _ _, causeWord_of_ne_supervisorRequest he s.W, hi.ne_srw⟩)))

/-- Settles O32: the step tests the halted state first, and only SRW of the word 1 to SR 3 enters it. -/
theorem haltedIsFinal : Obligations.HaltedIsFinal := by
  refine ⟨fun s => step_of_halted, fun s i m h hrun hhalt => ?_⟩
  obtain heq | hwrite := (Effect.of_completes h).halted
  · rw [heq, hrun] at hhalt; cases hhalt
  · exact hwrite

/-- The low byte of a number. -/
theorem ofNat_mod_256 (n : Nat) : BitVec.ofNat 8 (n % 256) = BitVec.ofNat 8 n :=
  BitVec.eq_of_toNat_eq (by simp)

/-- Settles O59: a byte is appended by SRW of SR 10 alone. -/
theorem debugStreamAppendOnly : Obligations.DebugStreamAppendOnly := by
  intro s i m h
  obtain heq | ⟨r, hi, hout⟩ := (Effect.of_completes h).debugOut
  · exact .inl heq
  · refine .inr ⟨r, hi, ?_⟩
    rw [hout, ofNat_mod_256]

/-- Settles O52, by what the instruction does to memory. -/
theorem onlyTransfersStore : Obligations.OnlyTransfersStore := by
  intro s i m h
  cases (Effect.of_completes h).memoryEffect with
  | none hmem hbus => exact .inr ⟨fun a => by rw [hmem], .inl hbus⟩
  | load hi hmem => exact .inr ⟨fun a => by rw [hmem], .inr hi⟩
  | store hi hmem => exact .inl hi

end Sys2Proof.Machine
end

section
/-!
What every step keeps: the configuration, the requests and the canonical form of memory (00_scope.md section 4,
20_memory.md rule R60, 60_exceptions.md rule R310).
-/

namespace Sys2Proof.Machine

/-- Memory of a machine with `W`-bit addresses: canonical, and within the address space. -/
def Arch.MemoryInv {W : Nat} (m : Arch W) : Prop := Memory.wf m.mem ∧ ∀ c ∈ m.mem, c.1 < 2 ^ W

theorem Arch.MemoryInv.of_mem_eq {W : Nat} {m m' : Arch W} (hm : m.MemoryInv) (h : m'.mem = m.mem) : m'.MemoryInv := by
  rwa [Arch.MemoryInv, h]

/-- Writing bytes of an access keeps memory within the address space. -/
theorem Arch.MemoryInv.of_mem_writeAll {W : Nat} {m m' : Arch W} (hm : m.MemoryInv) {a n : Nat} {bs : List Byte}
    (h : m'.mem = Memory.writeAll m.mem (accessAddrs W a n) bs) : m'.MemoryInv := by
  obtain ⟨hwf, hlt⟩ := hm
  rw [Arch.MemoryInv, h]
  refine ⟨Memory.writeAll_wf hwf _ _, fun c hc => ?_⟩
  obtain hc | hc := Memory.mem_writeAll hc
  · exact accessAddrs_lt hc
  · exact hlt c hc

theorem MemoryEffect.memoryInv {W : Nat} {i : Instr} {m m' : Arch W} (h : MemoryEffect i m m') (hm : m.MemoryInv) :
    m'.MemoryInv := by
  cases h with
  | none hmem hbus => exact hm.of_mem_eq hmem
  | load hi hmem => exact hm.of_mem_eq hmem
  | store hi hmem =>
    obtain hmem | ⟨a, n, bs, hmem⟩ := hmem
    · exact hm.of_mem_eq hmem
    · exact hm.of_mem_writeAll hmem

theorem fetch_pending {W : Nat} {c : Config} {m m' : Arch W} {w : IWord} (h : fetch c m = .ok (w, m')) :
    m'.pending = m.pending := by
  obtain ⟨-, rfl | rfl⟩ := fetch_ok h <;> rfl

/-- What every step keeps of the machine. -/
theorem step_keeps {s t : State} (h : step s = .next t) : ∃ m : Arch s.W, t = { cfg := s.cfg, arch := m } ∧
    m.pending = s.arch.pending ∧ (s.arch.MemoryInv → m.MemoryInv) := by
  obtain ⟨-, ⟨-, -, rfl⟩ | ⟨-, w, m, hf, ⟨i, -, he⟩ | ⟨r, -, ht⟩⟩⟩ := step_next h
  · exact ⟨_, rfl, rfl, fun hm => hm⟩
  · obtain ⟨m', rfl, heff⟩ := exec_effect he
    exact ⟨m', rfl, heff.pending.trans (fetch_pending hf),
      fun hm => heff.memoryEffect.memoryInv (hm.of_mem_eq (fetch_mem hf))⟩
  · obtain ⟨-, rfl⟩ := takeException_next ht
    have hkept (hm : s.arch.MemoryInv) : m.MemoryInv := hm.of_mem_eq (fetch_mem hf)
    have hsame : m.pending = s.arch.pending := fetch_pending hf
    exact ⟨_, rfl, hsame, hkept⟩

/-- Settles O57. -/
theorem stepKeepsPlatform : Obligations.StepKeepsPlatform := by
  intro s t h
  obtain ⟨m, ht, hpending, -⟩ := step_keeps h
  exact ⟨m, ht, hpending⟩

/-- Settles O53: configuration and requests are those of the state before, memory is kept canonical. -/
theorem stepKeepsInvariant : Obligations.StepKeepsInvariant := by
  rintro s t ⟨hcfg, hmem, hpending⟩ h
  obtain ⟨m, rfl, hp, hm⟩ := step_keeps h
  refine ⟨hcfg, hm hmem, ?_⟩
  rwa [State.PendingInv, hp]

/-- What every step of a machine keeps, every run keeps. -/
theorem run_keeps (M : Host.Core) (P : M.State → Prop) (hstep : ∀ s t, P s → M.step s = .next t → P t) (n : Nat) :
    ∀ s t, P s → M.run n s = .next t → P t := by
  induction n with
  | zero =>
    intro s t hs h
    cases h
    exact hs
  | succ n ih =>
    intro s t hs h
    rw [Host.Core.run] at h
    split at h
    · rename_i s' hs'
      exact ih s' t (hstep s s' hs hs') h
    · cases h
    · cases h

/-- Settles O56, by induction on the length of the run. -/
theorem runsKeepInvariant : Obligations.RunsKeepInvariant :=
  run_keeps Sys2Proof.core State.Inv stepKeepsInvariant

end Sys2Proof.Machine
end

section
/-!
How the instructions that write one register, or raise, end (10_state.md rule R27, 60_exceptions.md rules R304 to R308).
-/

namespace Sys2Proof.Machine

section Endings
variable {s : State} {i : Instr} {p : Run s.W → Except Abort (Run s.W)}

/-- A pseudocode that completes in one register write sets that register. -/
theorem setsAndAdvances_of_execute {d : Reg} {v : BitVec s.W} (hi : exec i s = execute s p)
    (hp : p (Run.start s.arch) = .ok ((Run.start s.arch).setReg d v)) : s.SetsAndAdvances i d v :=
  setsAndAdvances_of_setReg (p := fun k => k.setReg d v) (hi.trans (execute_of_ok hp)) rfl

/-- The continuation as 60_exceptions.md rule R307 gives it. -/
theorem faultContinuation_eq {W : Nat} (c : Config) (len : Nat) (cur : BitVec W) :
    faultContinuation c len cur = if c.faultContinuation = .current then cur else cur + BitVec.ofNat W len := by
  unfold faultContinuation
  cases c.faultContinuation <;> rfl

/-- Taking an exception is a precise trap, or stops the model. -/
theorem takeException_traps (s : State) (len : Nat) (e : Exc) :
    (s.arch.exceptionsEnabled = true → ∃ m : Arch s.W, takeException s len e = .next { cfg := s.cfg, arch := m } ∧
      s.arch.Trapped (BitVec.ofNat s.W (2 * e.code + 1))
        (if s.cfg.faultContinuation = .current then s.arch.reg 0 else s.arch.reg 0 + BitVec.ofNat s.W len) m) ∧
    (s.arch.exceptionsEnabled = false → takeException s len e = .fault .exceptionWhileDisabled) := by
  rw [← faultContinuation_eq]
  exact ⟨fun hen => ⟨_, takeException_enabled len e hen, trapped_trapEntry _ _ _⟩, takeException_disabled len e⟩

theorem raises_of_takeException {len : Nat} {e : Exc} (hi : exec i s = takeException s len e) :
    s.Raises i (2 * e.code + 1) len := by
  have htraps := takeException_traps s len e
  rw [← hi] at htraps
  exact htraps

theorem raises_of_execute {e : Exc} (hi : exec i s = execute s p) (hp : p (Run.start s.arch) = .error (.raise e)) :
    s.Raises i (2 * e.code + 1) 2 :=
  raises_of_takeException (hi.trans (execute_of_raise hp))

end Endings

/-- Settles O37: the word's length reaches the continuation only. -/
theorem longInstructionIsIllegal : Obligations.LongInstructionIsIllegal :=
  fun s l ext => raises_of_takeException (s := s) (i := .long l ext) (e := .illegalInstruction) rfl

end Sys2Proof.Machine
end

section
/-!
The truth tables bit by bit (41_bitwise.md, the class rule), and the ordinary advance.
-/

namespace Sys2Proof.Machine

/-- A truth table works on each bit by itself: bit `k` is the table's one-bit result on the two bits `k`. -/
theorem bitwiseOp_getLsbD {W : Nat} (a b : BitVec W) {k : Nat} (hk : k < W) :
    ∀ m : Nat, (bitwiseOp m a b).getLsbD k =
      (bitwiseOp m (BitVec.ofBool (a.getLsbD k)) (BitVec.ofBool (b.getLsbD k))).getLsbD 0
  | 0 | 1 | 2 | 3 | 4 | 5 | 6 | 7 | 8 | 9 | 10 | 11 | 12 | 13 | 14 | _ + 15 => by simp [bitwiseOp, hk]

/-- The tables on single bits: the bit of the number whose index is twice the bit of D plus the bit of S. -/
theorem bitwiseOp_ofBool : ∀ m < 16, ∀ x y : Bool,
    (bitwiseOp m (BitVec.ofBool x) (BitVec.ofBool y)).getLsbD 0 = m.testBit (2 * x.toNat + y.toNat) := by decide

/-- Settles O8, from the one-bit tables. -/
theorem bitwiseTruthTable : Obligations.BitwiseTruthTable := by
  intro s m d r hm
  refine ⟨_, (setsAndAdvances_decodeBitwise s m d r).sets, fun k hk => ?_⟩
  rw [bitwiseOp_getLsbD _ _ hk, bitwiseOp_ofBool m hm]

/-- Settles O10. -/
theorem ordinaryInstructionAdvances : Obligations.OrdinaryInstructionAdvances := by
  intro s d r n t op _ hop
  refine ⟨⟨_, setsAndAdvances_decodeBitwise s t d r⟩, ?_⟩
  obtain rfl | rfl : op = 0 ∨ op = 1 := by omega
  · exact ⟨⟨_, setsAndAdvances_add s d r⟩, ⟨_, setsAndAdvances_addi s d n⟩⟩
  · exact ⟨⟨_, setsAndAdvances_sub s d r⟩, ⟨_, setsAndAdvances_subi s d n⟩⟩

end Sys2Proof.Machine
end

section
/-!
Shifts, products, quotients and remainders as numbers (42_arithmetic.md, 49_misc_and_long.md).
-/

namespace Sys2Proof.Machine

section Values
variable {W : Nat} (a b : BitVec W)

theorem shiftLeft_toNat : (shiftLeft a b).toNat = a.toNat * 2 ^ b.toNat % 2 ^ W := by
  unfold shiftLeft
  split
  · rename_i hW
    rw [BitVec.toNat_ofNat, Nat.zero_mod, Nat.mod_eq_zero_of_dvd]
    exact Nat.dvd_mul_left_of_dvd (Nat.pow_dvd_pow 2 hW) _
  · rw [BitVec.toNat_ofNat]

theorem shiftRight_toNat : (shiftRight a b).toNat = a.toNat / 2 ^ b.toNat := by
  unfold shiftRight
  split
  · rename_i hW
    rw [BitVec.toNat_ofNat, Nat.zero_mod, Nat.div_eq_of_lt]
    exact lt_of_lt_of_le a.isLt (Nat.pow_le_pow_right (by decide) hW)
  · rw [BitVec.toNat_ofNat, Nat.mod_eq_of_lt]
    exact lt_of_le_of_lt (Nat.div_le_self _ _) a.isLt

/-- Dividing a signed word by a power of two no smaller than the word's range leaves its sign. -/
theorem toInt_div_two_pow_of_le {n : Nat} (hn : W ≤ n) : a.toInt / 2 ^ n = if a.toInt < 0 then -1 else 0 := by
  have hpow : (2 : Int) ^ W ≤ 2 ^ n := pow_le_pow_right₀ (by decide) hn
  have hlo := BitVec.le_two_mul_toInt (x := a)
  have hhi := BitVec.two_mul_toInt_lt (x := a)
  split
  · rename_i hneg
    exact Int.ediv_eq_neg_one_of_neg_of_le hneg (by omega)
  · exact Int.ediv_eq_zero_of_lt (by omega) (by omega)

theorem shiftArith_toInt : (shiftArith a b).toInt = a.toInt / 2 ^ b.toNat := by
  unfold shiftArith
  split
  · rename_i hW
    rw [toInt_div_two_pow_of_le a hW]
    split
    · rename_i hneg
      have hpos : 0 < W := by
        rcases Nat.eq_zero_or_pos W with rfl | hpos
        · rw [BitVec.toInt_zero_length] at hneg; omega
        · exact hpos
      rw [BitVec.toInt_allOnes, if_pos hpos]
    · exact BitVec.toInt_zero
  · have hshift : a.toInt / 2 ^ b.toNat = a.toInt >>> b.toNat := by
      rw [Int.shiftRight_eq_div_pow, Nat.cast_pow, Nat.cast_ofNat]
    rw [hshift]
    exact BitVec.toInt_sshiftRight (x := a)

theorem product_eq_mul : product a b = a * b := by
  rw [product, BitVec.ofNat_mul, BitVec.ofNat_toNat, BitVec.ofNat_toNat, BitVec.setWidth_eq, BitVec.setWidth_eq]

theorem quotient_toNat : (quotient a b).toNat = a.toNat / b.toNat := by
  rw [quotient, BitVec.toNat_ofNat, Nat.mod_eq_of_lt]
  exact lt_of_le_of_lt (Nat.div_le_self _ _) a.isLt

theorem remainder_toNat : (remainder a b).toNat = a.toNat % b.toNat := by
  rw [remainder, BitVec.toNat_ofNat, Nat.mod_eq_of_lt]
  exact lt_of_le_of_lt (Nat.mod_le _ _) a.isLt

/-- The law of division, with the bound on the remainder. -/
theorem division_law {b : BitVec W} (hb : b ≠ 0) :
    a.toNat = b.toNat * (quotient a b).toNat + (remainder a b).toNat ∧ (remainder a b).toNat < b.toNat := by
  have hpos : 0 < b.toNat := Nat.pos_of_ne_zero fun h0 => hb (BitVec.eq_of_toNat_eq (by simpa using h0))
  rw [quotient_toNat, remainder_toNat]
  exact ⟨(Nat.div_add_mod _ _).symm, Nat.mod_lt _ hpos⟩

end Values

/-- Settles O11: the three shift operations, on a register and on the zero-extended immediate. -/
theorem shiftsAreMathematical : Obligations.ShiftsAreMathematical := by
  intro s d r n
  exact ⟨⟨_, setsAndAdvances_of_registerOp rfl, shiftLeft_toNat _ _⟩,
    ⟨_, setsAndAdvances_of_immediateOp rfl, shiftLeft_toNat _ _⟩,
    ⟨_, setsAndAdvances_of_registerOp rfl, shiftRight_toNat _ _⟩,
    ⟨_, setsAndAdvances_of_immediateOp rfl, shiftRight_toNat _ _⟩,
    ⟨_, setsAndAdvances_of_registerOp rfl, shiftArith_toInt _ _⟩,
    ⟨_, setsAndAdvances_of_immediateOp rfl, shiftArith_toInt _ _⟩⟩

/-- MMUL, MDIV and MMOD are available with the multiplier or where they do not need it (decision D10 of the spec). -/
theorem miscMulDivAvailable_eq_true {c : Config} (h : c.hasMul = true ∨ c.miscMulDivNeedsMul = false) :
    miscMulDivAvailable c = true := by
  rcases h with h | h <;> simp [miscMulDivAvailable, h]

theorem miscMulDivAvailable_eq_false {c : Config} (hmul : c.hasMul = false) (hneeds : c.miscMulDivNeedsMul = true) :
    miscMulDivAvailable c = false := by
  simp [miscMulDivAvailable, hmul, hneeds]

section Guarded
variable {s : State} {i : Instr} {available : Bool} {p : Run s.W → Except Abort (Run s.W)}
  {f : BitVec s.W → BitVec s.W → BitVec s.W} {d : Reg} {v : BitVec s.W}

theorem setsAndAdvances_of_available (hi : exec i s = execute s (requireAvailable available p)) (ha : available = true)
    (hp : p (Run.start s.arch) = .ok ((Run.start s.arch).setReg d v)) : s.SetsAndAdvances i d v :=
  setsAndAdvances_of_execute hi (by rw [ha, requireAvailable_true, hp])

/-- Dividing by a non-zero word sets D. -/
theorem setsAndAdvances_of_divideOp {rhs : Run s.W → BitVec s.W}
    (hi : exec i s = execute s (requireAvailable available fun k => divideOp f d (rhs k) k)) (ha : available = true)
    (hv : rhs (Run.start s.arch) ≠ 0) : s.SetsAndAdvances i d (f (s.arch.reg d) (rhs (Run.start s.arch))) :=
  setsAndAdvances_of_available hi ha (divideOp_nonzero f d _ hv)

/-- Dividing by zero raises Divide by Zero, cause word 1. -/
theorem raises_of_divideOp {rhs : Run s.W → BitVec s.W}
    (hi : exec i s = execute s (requireAvailable available fun k => divideOp f d (rhs k) k)) (ha : available = true)
    (hv : rhs (Run.start s.arch) = 0) : s.Raises i 1 2 :=
  raises_of_execute (e := .divideByZero) hi (by rw [ha, requireAvailable_true, hv, divideOp_zero])

/-- What is not available raises Illegal instruction, cause word 3, whatever the operands. -/
theorem raises_of_unavailable (hi : exec i s = execute s (requireAvailable available p)) (ha : available = false) :
    s.Raises i 3 2 :=
  raises_of_execute (e := .illegalInstruction) hi (by rw [ha, requireAvailable_false])

end Guarded

/-- Settles O12. -/
theorem multiplyKeepsLowWord : Obligations.MultiplyKeepsLowWord := by
  intro s d r n
  rw [← product_eq_mul, ← product_eq_mul]
  exact ⟨fun ha => ⟨setsAndAdvances_of_available rfl ha rfl, setsAndAdvances_of_available rfl ha rfl⟩,
    fun ha => setsAndAdvances_of_available rfl (miscMulDivAvailable_eq_true ha) rfl⟩

/-- Settles O13: each pair of instructions leaves the quotient and the remainder of the law of division. -/
theorem divideAndRemainder : Obligations.DivideAndRemainder := by
  intro s d r n
  refine ⟨fun ha hv => ?register, fun ha hv => ?immediate, fun ha hv => ?misc⟩
  case register =>
    exact ⟨_, _, setsAndAdvances_of_divideOp (rhs := fun k => k.reg r) rfl ha hv,
      setsAndAdvances_of_divideOp (rhs := fun k => k.reg r) rfl ha hv, division_law _ hv⟩
  case immediate =>
    exact ⟨_, _, setsAndAdvances_of_divideOp (rhs := fun _ => zext s.W n) rfl ha hv,
      setsAndAdvances_of_divideOp (rhs := fun _ => zext s.W n) rfl ha hv, division_law _ hv⟩
  case misc =>
    have hm := miscMulDivAvailable_eq_true ha
    exact ⟨_, _, setsAndAdvances_of_divideOp (rhs := fun k => k.reg r) rfl hm hv,
      setsAndAdvances_of_divideOp (rhs := fun k => k.reg r) rfl hm hv, division_law _ hv⟩

/-- Settles O14. -/
theorem divideByZeroTraps : Obligations.DivideByZeroTraps := by
  intro s d r n
  refine ⟨fun ha hv => ?register, fun ha hv => ?immediate, fun ha hv => ?misc⟩
  case register =>
    exact ⟨raises_of_divideOp (rhs := fun k => k.reg r) rfl ha hv,
      raises_of_divideOp (rhs := fun k => k.reg r) rfl ha hv⟩
  case immediate =>
    exact ⟨raises_of_divideOp (rhs := fun _ => zext s.W n) rfl ha hv,
      raises_of_divideOp (rhs := fun _ => zext s.W n) rfl ha hv⟩
  case misc =>
    have hm := miscMulDivAvailable_eq_true ha
    exact ⟨raises_of_divideOp (rhs := fun k => k.reg r) rfl hm hv,
      raises_of_divideOp (rhs := fun k => k.reg r) rfl hm hv⟩

/-- Settles O15. -/
theorem missingMultiplierIsIllegal : Obligations.MissingMultiplierIsIllegal := by
  intro s d r n ha
  refine ⟨?register, ?immediate, fun hneeds => ?misc⟩
  case register =>
    exact ⟨raises_of_unavailable rfl ha, raises_of_unavailable rfl ha, raises_of_unavailable rfl ha⟩
  case immediate =>
    exact ⟨raises_of_unavailable rfl ha, raises_of_unavailable rfl ha, raises_of_unavailable rfl ha⟩
  case misc =>
    have hm := miscMulDivAvailable_eq_false ha hneeds
    exact ⟨raises_of_unavailable rfl hm, raises_of_unavailable rfl hm, raises_of_unavailable rfl hm⟩

end Sys2Proof.Machine
end

section
/-!
The comparisons (43_comparison.md): what each finished test says of the operands, and the word it writes.
-/

namespace Sys2Proof.Machine

section Tests
variable {W : Nat} (sn : Bool) (a b : BitVec W)

/-- The bit IV inverts the finished test. -/
theorem comparison_inverted (gt eq : Bool) : comparison true sn gt eq a b = !comparison false sn gt eq a b := rfl

theorem comparison_equal : comparison false sn false true a b = decide (a = b) := by simp [comparison]

theorem comparison_above : comparison false false true false a b = decide (b.toNat < a.toNat) := by
  simp [comparison, greater]

theorem comparison_greater : comparison false true true false a b = decide (b.toInt < a.toInt) := by
  simp [comparison, greater]

theorem comparison_above_or_equal : comparison false false true true a b = decide (b.toNat ≤ a.toNat) := by
  simp only [comparison, greater, ← BitVec.toNat_inj, Bool.true_and, Bool.false_eq_true, if_false, ← Bool.decide_or,
    decide_eq_decide]
  omega

theorem comparison_greater_or_equal : comparison false true true true a b = decide (b.toInt ≤ a.toInt) := by
  simp only [comparison, greater, ← BitVec.toInt_inj, Bool.true_and, Bool.false_eq_true, if_true, if_false,
    ← Bool.decide_or, decide_eq_decide]
  omega

/-- The word a finished test writes. -/
theorem truthWord_decide (p : Prop) [Decidable p] :
    truthWord W (decide p) = if p then BitVec.ofNat W 1 else BitVec.ofNat W 0 := by
  simp [truthWord]

theorem truthWord_not_decide (p : Prop) [Decidable p] :
    truthWord W (!decide p) = if p then BitVec.ofNat W 0 else BitVec.ofNat W 1 := by
  by_cases hp : p <;> simp [truthWord, hp]

/-- A truth value and its inverse are written as the words 1 and 0, in some order. -/
theorem truthWord_add_not (t : Bool) : truthWord W t + truthWord W (!t) = BitVec.ofNat W 1 := by
  cases t <;> simp [truthWord]

theorem truthWord_zero_or_not (t : Bool) : truthWord W t = 0 ∨ truthWord W (!t) = 0 := by
  cases t <;> simp [truthWord]

end Tests

section CompareInstructions
variable {s : State} {i : Instr} {sn gt eq : Bool} {d r : Reg}

theorem setsAndAdvances_of_compareOp {iv : Bool} (hi : exec i s = executeOk s (compareOp iv sn gt eq d r)) :
    s.SetsAndAdvances i d (truthWord s.W (comparison iv sn gt eq (s.arch.reg d) (s.arch.reg r))) :=
  setsAndAdvances_of_setReg hi rfl

variable {p : Prop} [Decidable p]

/-- An instruction whose finished test is `p`. -/
theorem setsAndAdvances_of_test (hi : exec i s = executeOk s (compareOp false sn gt eq d r))
    (hp : comparison false sn gt eq (s.arch.reg d) (s.arch.reg r) = decide p) :
    s.SetsAndAdvances i d (if p then BitVec.ofNat s.W 1 else BitVec.ofNat s.W 0) := by
  rw [← truthWord_decide, ← hp]
  exact setsAndAdvances_of_compareOp hi

/-- An instruction whose finished test is the inverse of `p`. -/
theorem setsAndAdvances_of_inverted_test (hi : exec i s = executeOk s (compareOp true sn gt eq d r))
    (hp : comparison false sn gt eq (s.arch.reg d) (s.arch.reg r) = decide p) :
    s.SetsAndAdvances i d (if p then BitVec.ofNat s.W 0 else BitVec.ofNat s.W 1) := by
  rw [← truthWord_not_decide, ← hp, ← comparison_inverted]
  exact setsAndAdvances_of_compareOp hi

end CompareInstructions

/-- The negation of an order, as the rules of the inverted comparisons write it. -/
theorem ite_le_eq_ite_lt {α β : Type} [LinearOrder α] (x y : α) (yes no : β) :
    (if y ≤ x then yes else no) = if x < y then no else yes := by
  by_cases h : x < y
  · rw [if_pos h, if_neg (not_le.mpr h)]
  · rw [if_neg h, if_pos (not_lt.mp h)]

/-- Settles O16: the unsigned order and equality, and their inverses. -/
theorem unsignedComparisons : Obligations.UnsignedComparisons := by
  rintro s d r a b yes no rfl rfl rfl rfl
  refine ⟨?f, ?eq, ?ab, ?abe, ?t, ?neq, ?ble, ?bl⟩
  case f => exact setsAndAdvances_of_compareOp (iv := false) (sn := false) (gt := false) (eq := false) rfl
  case eq => exact setsAndAdvances_of_test rfl (comparison_equal false _ _)
  case ab => exact setsAndAdvances_of_test rfl (comparison_above _ _)
  case abe => exact setsAndAdvances_of_test rfl (comparison_above_or_equal _ _)
  case t => exact setsAndAdvances_of_compareOp (iv := true) (sn := false) (gt := false) (eq := false) rfl
  case neq => exact setsAndAdvances_of_inverted_test rfl (comparison_equal false _ _)
  case ble =>
    rw [ite_le_eq_ite_lt]
    exact setsAndAdvances_of_inverted_test rfl (comparison_above _ _)
  case bl =>
    rw [← ite_le_eq_ite_lt]
    exact setsAndAdvances_of_inverted_test rfl (comparison_above_or_equal _ _)

/-- Settles O17: the signed order and equality, and their inverses. -/
theorem signedComparisons : Obligations.SignedComparisons := by
  rintro s d r a b yes no rfl rfl rfl rfl
  refine ⟨?sf, ?seq, ?gt, ?gte, ?st, ?sneq, ?lte, ?lt⟩
  case sf => exact setsAndAdvances_of_compareOp (iv := false) (sn := true) (gt := false) (eq := false) rfl
  case seq => exact setsAndAdvances_of_test rfl (comparison_equal true _ _)
  case gt => exact setsAndAdvances_of_test rfl (comparison_greater _ _)
  case gte => exact setsAndAdvances_of_test rfl (comparison_greater_or_equal _ _)
  case st => exact setsAndAdvances_of_compareOp (iv := true) (sn := true) (gt := false) (eq := false) rfl
  case sneq => exact setsAndAdvances_of_inverted_test rfl (comparison_equal true _ _)
  case lte =>
    rw [ite_le_eq_ite_lt]
    exact setsAndAdvances_of_inverted_test rfl (comparison_greater _ _)
  case lt =>
    rw [← ite_le_eq_ite_lt]
    exact setsAndAdvances_of_inverted_test rfl (comparison_greater_or_equal _ _)

/-- A code below 8 and the code eight above it run one test, the second inverted. -/
theorem exec_decodeCompare_pair (s : State) (d r : Reg) : ∀ {c : Nat}, c < 8 → ∃ sn gt eq,
    exec (decodeCompare c d r) s = executeOk s (compareOp false sn gt eq d r) ∧
      exec (decodeCompare (c + 8) d r) s = executeOk s (compareOp true sn gt eq d r)
  | 0, _ | 1, _ | 2, _ | 3, _ | 4, _ | 5, _ | 6, _ | 7, _ => ⟨_, _, _, rfl, rfl⟩
  | _ + 8, h => absurd h (by omega)

/-- Settles O18. -/
theorem invertedComparisons : Obligations.InvertedComparisons := by
  intro s c d r hc
  obtain ⟨sn, gt, eq, hplain, hinverted⟩ := exec_decodeCompare_pair s d r hc
  have hsets := (setsAndAdvances_of_compareOp hinverted).sets
  rw [comparison_inverted] at hsets
  exact ⟨_, _, (setsAndAdvances_of_compareOp hplain).sets, hsets, truthWord_add_not _, truthWord_zero_or_not _⟩

end Sys2Proof.Machine
end

section
/-!
The subword operations (46_subword.md), bit by bit.
-/

namespace Sys2Proof.Machine

section SubwordBits
variable {W : Nat} (a : BitVec W)

/-- The word shifted down to byte number `idx`: bits beyond the register read as zero (decision D7 of the spec). -/
theorem subword_shifted_eq (idx : Nat) :
    (if W ≤ 8 * idx then 0 else a.toNat / 2 ^ (8 * idx)) = a.toNat / 2 ^ (8 * idx) := by
  split
  · rename_i h
    rw [Nat.div_eq_of_lt (lt_of_lt_of_le a.isLt (Nat.pow_le_pow_right (by decide) h))]
  · rfl

theorem testBit_toNat_div_two_pow (lo k : Nat) : (a.toNat / 2 ^ lo).testBit k = a.getLsbD (lo + k) := by
  rw [Nat.testBit_div_two_pow, BitVec.getLsbD, Nat.add_comm]

/-- A field of `f` bits kept, with zeros above. -/
theorem testBit_field (lo f k : Nat) :
    (a.toNat / 2 ^ lo % 2 ^ f).testBit k = if k < f then a.getLsbD (lo + k) else false := by
  rw [Nat.testBit_mod_two_pow, testBit_toNat_div_two_pow]
  by_cases hk : k < f <;> simp [hk]

/-- A field of `f` bits below ones up to bit `w`. -/
theorem testBit_field_add_ones {u f w k : Nat} (hu : u < 2 ^ f) (hf : f ≤ w) (hk : k < w) :
    (u + (2 ^ w - 2 ^ f)).testBit k = if k < f then u.testBit k else true := by
  have hones : 2 ^ w - 2 ^ f = 2 ^ f * (2 ^ (w - f) - 1) := by
    rw [Nat.mul_sub, ← Nat.pow_add, Nat.add_sub_cancel' hf, Nat.mul_one]
  rw [hones, Nat.add_comm, Nat.testBit_two_pow_mul_add _ hu]
  split
  · rfl
  · rw [Nat.testBit_two_pow_sub_one, decide_eq_true_eq]
    omega

theorem getLsbD_subword_zero (n idx : Nat) {k : Nat} (hk : k < W) :
    (subword false n idx a).getLsbD k = if k < 8 * n then a.getLsbD (8 * idx + k) else false := by
  simp only [subword, subword_shifted_eq, Bool.false_and, Bool.false_eq_true, if_false]
  split
  · rw [BitVec.getLsbD_ofNat, testBit_field, decide_eq_true hk, Bool.true_and]
  · rename_i hW
    rw [BitVec.getLsbD_ofNat, testBit_toNat_div_two_pow, decide_eq_true hk, Bool.true_and, if_pos (by omega)]

theorem getLsbD_subword_sign {n : Nat} (idx : Nat) (hn : 1 ≤ n) {k : Nat} (hk : k < W) :
    (subword true n idx a).getLsbD k =
      if k < 8 * n then a.getLsbD (8 * idx + k) else a.getLsbD (8 * idx + (8 * n - 1)) := by
  have htop : 8 * n - 1 < 8 * n := by omega
  simp only [subword, subword_shifted_eq, Bool.true_and]
  split
  · rename_i hW
    have hfield := Nat.mod_lt (a.toNat / 2 ^ (8 * idx)) (Nat.two_pow_pos (8 * n))
    rw [testBit_field, if_pos htop]
    split
    · rename_i hset
      rw [BitVec.getLsbD_ofNat, testBit_field_add_ones hfield (Nat.le_of_lt hW) hk, testBit_field, decide_eq_true hk,
        Bool.true_and, hset]
      split <;> rfl
    · rename_i hclear
      rw [BitVec.getLsbD_ofNat, testBit_field, decide_eq_true hk, Bool.true_and, eq_false_of_ne_true hclear]
  · rename_i hW
    rw [BitVec.getLsbD_ofNat, testBit_toNat_div_two_pow, decide_eq_true hk, Bool.true_and, if_pos (by omega)]

end SubwordBits

/-- Settles O26. -/
theorem subwordBits : Obligations.SubwordBits := by
  intro s d i n hn _
  exact ⟨⟨_, setsAndAdvances_of_setReg rfl rfl, fun k hk => getLsbD_subword_zero _ n _ hk⟩,
    ⟨_, setsAndAdvances_of_setReg rfl rfl, fun k hk => getLsbD_subword_sign _ _ hn hk⟩⟩

end Sys2Proof.Machine
end

section
/-!
Small immediates, selection, exchange, and registers named by number (48_small_immediate_select.md, 49_misc_and_long.md
section 2).
-/

namespace Sys2Proof.Machine

section RetiredRegisters
variable {W : Nat} {m : Arch W} {k : Run W}

/-- An instruction that changes general registers only leaves everything else, and is counted. -/
theorem Run.SameButRegisters.kept (h : (Run.start m).SameButRegisters k) : m.Kept (retire k) := by
  obtain ⟨x, b, rfl⟩ := h
  constructor
  case toKeptControl => constructor <;> simp
  case mem => simp

theorem Run.SameButRegisters.counted (h : (Run.start m).SameButRegisters k) : m.Counted (retire k) := by
  obtain ⟨x, b, rfl⟩ := h
  constructor <;> simp

/-- The program counter after an instruction that wrote it, and after one that did not. -/
theorem retire_reg_of_pcWritten (h : k.pcWritten = true) (j : Reg) : (retire k).reg j = k.reg j := by
  rw [retire_reg, if_neg (by simp [h]), Run.reg_eq]

theorem retire_pc_of_not_pcWritten (h : k.pcWritten = false) : (retire k).reg 0 = k.reg 0 + BitVec.ofNat W 2 := by
  rw [retire_reg, if_pos ⟨rfl, h⟩, Run.reg_eq]

end RetiredRegisters

/-- Settles O33. -/
theorem smallImmediateAndSelect : Obligations.SmallImmediateAndSelect := by
  intro s c n z k
  have hsel : (if isNonzero (s.arch.reg c) then s.arch.reg n else s.arch.reg z) =
      if s.arch.reg c ≠ 0 then s.arch.reg n else s.arch.reg z := by simp only [isNonzero, decide_eq_true_eq]
  rw [← hsel]
  exact ⟨setsAndAdvances_of_setReg (p := fun run => run.setReg c (zext s.W k)) rfl rfl,
    setsAndAdvances_of_setReg
      (p := fun run => run.setReg c (if isNonzero (run.reg c) then run.reg n else run.reg z)) rfl rfl⟩

theorem exchange_reg {W : Nat} (a b : Reg) (k : Run W) (j : Reg) :
    (exchange a b k).reg j = if b = j then k.reg a else if a = j then k.reg b else k.reg j := by
  rw [exchange, Run.reg_setReg, Run.reg_setReg]

theorem exchange_pcWritten {W : Nat} (a b : Reg) (k : Run W) :
    (exchange a b k).pcWritten = (k.pcWritten || decide (a = 0) || decide (b = 0)) := rfl

/-- A register of the exchange, the program counter included, keeps its new value when SWAP retires. -/
theorem retire_exchange_reg {W : Nat} (m : Arch W) {a b j : Reg} (hj : j = a ∨ j = b ∨ j ≠ 0) :
    (retire (exchange a b (Run.start m))).reg j = (exchange a b (Run.start m)).reg j := by
  by_cases h0 : j = 0
  · refine retire_reg_of_pcWritten ?_ j
    subst h0
    rw [exchange_pcWritten]
    rcases hj with rfl | rfl | h
    · simp
    · simp
    · exact absurd rfl h
  · rw [retire_reg_ne _ h0, Run.reg_eq]

/-- Settles O34. -/
theorem swapExchanges : Obligations.SwapExchanges := by
  intro s a b
  have hsame : (Run.start s.arch).SameButRegisters (exchange a b (Run.start s.arch)) :=
    (registerProgram_exchange a b).same rfl
  refine ⟨_, executeOk_eq s (exchange a b), ?left, ?right, fun j ha hb h0 => ?others, fun ha hb => ?pc, hsame.kept,
    hsame.counted⟩
  case left =>
    rw [retire_exchange_reg _ (.inl rfl), exchange_reg, if_pos rfl]
    by_cases hab : b = a <;> simp [hab]
  case right => rw [retire_exchange_reg _ (.inr (.inl rfl)), exchange_reg, if_pos rfl, Run.start_reg]
  case others =>
    rw [retire_exchange_reg _ (.inr (.inr h0)), exchange_reg, if_neg (Ne.symm hb), if_neg (Ne.symm ha), Run.start_reg]
  case pc =>
    rw [retire_pc_of_not_pcWritten (by simp [exchange_pcWritten, ha, hb]), exchange_reg, if_neg hb, if_neg ha,
      Run.start_reg]

theorem indexedReg_of_toNat_eq {W : Nat} {v : BitVec W} {i : Reg} (h : v.toNat = i.val) : indexedReg v = .ok i := by
  rw [indexedReg, h, if_pos i.isLt, Fin.ofNat_val_eq_self]

theorem indexedReg_out_of_range {W : Nat} {v : BitVec W} (h : 16 ≤ v.toNat) :
    indexedReg v = .error (.modelFault .registerIndexOutOfRange) := by
  rw [indexedReg, if_neg (by omega)]

/-- Settles O35. -/
theorem indexedRegisters : Obligations.IndexedRegisters := by
  intro s a b
  constructor
  · intro i hi
    have hreg : indexedReg ((Run.start s.arch).reg b) = .ok i := indexedReg_of_toNat_eq hi
    exact ⟨setsAndAdvances_of_execute (p := loadRegister a b) rfl (by rw [loadRegister, hreg]; rfl),
      setsAndAdvances_of_execute (p := storeRegister a b) rfl (by rw [storeRegister, hreg]; rfl)⟩
  · intro hi
    have hreg : indexedReg ((Run.start s.arch).reg b) = .error (.modelFault .registerIndexOutOfRange) :=
      indexedReg_out_of_range hi
    exact ⟨execute_of_fault (p := loadRegister a b) (by rw [loadRegister, hreg]),
      execute_of_fault (p := storeRegister a b) (by rw [storeRegister, hreg])⟩

end Sys2Proof.Machine
end

section
/-!
The jumps (45_conditional.md, 49_misc_and_long.md section 3).
-/

namespace Sys2Proof.Machine

section Jumps
variable {W : Nat} (taken : Bool) (off : BitVec W) (k : Run W)

theorem jumpIf_pcWritten : (jumpIf taken off k).pcWritten = (k.pcWritten || taken) := by
  cases taken <;> simp [jumpIf]

theorem jumpIf_pc : (jumpIf taken off k).reg 0 = if taken then k.reg 0 + off else k.reg 0 := by
  cases taken <;> simp [jumpIf]

/-- The program counter after a jump retires: the target, or what the ordinary advance makes of it. -/
theorem retire_jumpIf_pc : (retire (jumpIf taken off k)).reg 0 =
    if taken then k.reg 0 + off else if k.pcWritten then k.reg 0 else k.reg 0 + BitVec.ofNat W 2 := by
  cases taken with
  | true => rw [retire_reg_of_pcWritten (by simp [jumpIf_pcWritten]), jumpIf_pc]; rfl
  | false =>
    cases hpc : k.pcWritten with
    | true => rw [retire_reg_of_pcWritten (by simp [jumpIf_pcWritten, hpc]), jumpIf_pc]; rfl
    | false => rw [retire_pc_of_not_pcWritten (by simp [jumpIf_pcWritten, hpc]), jumpIf_pc]; rfl

end Jumps

/-- An instruction that is one jump goes to the target when the condition holds on its register, and to the next
instruction otherwise. -/
theorem goesTo_of_jumpIf {s : State} {i : Instr} {a : Reg} (p : BitVec s.W → Prop) [DecidablePred p]
    {off : Run s.W → BitVec s.W} (hi : exec i s = executeOk s fun k => jumpIf (decide (p (k.reg a))) (off k) k) :
    s.GoesTo i (if p (s.arch.reg a) then s.arch.reg 0 + off (Run.start s.arch)
      else s.arch.reg 0 + BitVec.ofNat s.W 2) := by
  have hsame := sameButRegisters_jumpIf (decide (p (s.arch.reg a))) (off (Run.start s.arch)) (Run.start s.arch)
  refine ⟨_, hi.trans (executeOk_eq s _), ?pc, fun j hj => ?regs, hsame.kept, hsame.counted⟩
  case pc =>
    rw [retire_jumpIf_pc]
    by_cases h : p (s.arch.reg a) <;> simp [h]
  case regs => rw [retire_reg_ne _ hj, ← Run.reg_eq, jumpIf_reg_ne _ _ _ hj, Run.start_reg]

theorem State.GoesTo.sets {s : State} {i : Instr} {target : BitVec s.W} (h : s.GoesTo i target) :
    s.Sets i 0 target := by
  obtain ⟨m, hm, hpc, hregs, hkept, -⟩ := h
  exact ⟨m, hm, hpc, fun j _ hj => hregs j hj, hkept⟩

/-- A jump offset is twice the signed field. -/
theorem jumpBytes_eq {n : Nat} (W : Nat) (v : BitVec n) : jumpBytes W v = BitVec.ofInt W (2 * v.toInt) := by
  rw [jumpBytes, sext, Int.mul_comm, BitVec.ofInt_mul]
  rfl

/-- Settles O23. -/
theorem immediateJumps : Obligations.ImmediateJumps := by
  rintro s a off imm _ _ _ rfl rfl rfl
  rw [← jumpBytes_eq, ← jumpBytes_eq]
  exact ⟨goesTo_of_jumpIf (fun v => v ≠ 0) (off := fun _ => jumpBytes s.W off) rfl,
    goesTo_of_jumpIf (fun v => v = 0) (off := fun _ => jumpBytes s.W imm) rfl,
    goesTo_of_jumpIf (fun v => v ≠ 0) (off := fun _ => jumpBytes s.W imm) rfl,
    goesTo_of_jumpIf (fun v => 0 < v.toInt) (off := fun _ => jumpBytes s.W imm) rfl,
    goesTo_of_jumpIf (fun v => v.toInt < 0) (off := fun _ => jumpBytes s.W imm) rfl⟩

/-- Format MS, of the word as the rules of 49_misc_and_long.md write it. -/
theorem decode_misc_word_register {op : Nat} (ho : op < 16) (a b : Reg) :
    decode (BitVec.ofNat 16 (0xE000 + 0x100 * op + 16 * b + a)) = .ok (decodeMisc op a b (BitVec.ofNat 4 b)) := by
  rw [← decode_nibbles_misc_register ho, nibbles, Nat.mul_comm op, Nat.mul_comm b.val]

/-- Settles O24: operations 9, 11, 13 and 15 of format MS. -/
theorem indirectJumps : Obligations.IndirectJumps := by
  rintro s a b _ _ rfl rfl
  have word {op : Nat} (ho : op < 16) := decode_misc_word_register ho a b
  exact ⟨⟨word (op := 9) (by decide), (goesTo_of_jumpIf (fun v => v = 0) (off := fun k => k.reg b) rfl).sets⟩,
    ⟨word (op := 11) (by decide), (goesTo_of_jumpIf (fun v => v ≠ 0) (off := fun k => k.reg b) rfl).sets⟩,
    ⟨word (op := 13) (by decide), (goesTo_of_jumpIf (fun v => 0 < v.toInt) (off := fun k => k.reg b) rfl).sets⟩,
    ⟨word (op := 15) (by decide), (goesTo_of_jumpIf (fun v => v.toInt < 0) (off := fun k => k.reg b) rfl).sets⟩⟩

/-- The registers after one write, as a function. -/
theorem Run.reg_setReg_eq_update {W : Nat} (k : Run W) (r : Reg) (v : BitVec W) :
    (k.setReg r v).reg = Function.update k.reg r v := by
  funext j
  rw [Run.reg_setReg, Function.update_apply]
  simp only [eq_comm]

/-- The offset of the code 0b0111 in a run, by the parameter MISC_0111. -/
theorem loopOffset_eq {W : Nat} (c : Config) (b : BitVec 4) (k : Run W) :
    loopOffset c b k = if c.misc0111 = .loop then BitVec.ofInt W (2 * b.toInt) else k.reg ⟨b.toNat, b.isLt⟩ := by
  unfold loopOffset
  cases c.misc0111 with
  | loop => rw [if_pos rfl]; exact jumpBytes_eq W b
  | loopIndirect =>
    rw [if_neg (by decide)]
    exact congrArg k.reg (Fin.ext (Nat.mod_eq_of_lt b.isLt))

/-- Settles O25: the jump of LOOP starts from the run after the decrement. -/
theorem loopDecrementsAndJumps : Obligations.LoopDecrementsAndJumps := by
  rintro s a b v off x hv rfl hoff
  obtain ⟨k1, hk1⟩ : ∃ k1, k1 = (Run.start s.arch).setReg a v := ⟨_, rfl⟩
  have hx : k1.reg = Function.update s.arch.reg a v := by
    rw [hk1, Run.reg_setReg_eq_update]
    rfl
  have hrun : decrementAndJump s.cfg a b (Run.start s.arch) = jumpIf (isNonzero v) off k1 := by
    have hva : k1.reg a = v := by rw [hk1, Run.reg_setReg_self]
    rw [hoff, ← hx, ← loopOffset_eq, ← hva, hk1, hv]
    rfl
  have hsame : (Run.start s.arch).SameButRegisters (jumpIf (isNonzero v) off k1) :=
    hrun ▸ (registerProgram_decrementAndJump s.cfg a b).same rfl
  refine ⟨_, executeOk_eq s (decrementAndJump s.cfg a b), fun j hj => ?regs, ?pc, hrun ▸ hsame.kept,
    hrun ▸ hsame.counted⟩
  case regs => rw [hrun, retire_reg_ne _ hj, ← Run.reg_eq, jumpIf_reg_ne _ _ _ hj, hx]
  case pc =>
    have hpc : k1.pcWritten = decide (a = 0) := by rw [hk1]; rfl
    have hnext (h : a ≠ 0) : Function.update s.arch.reg a v 0 = s.arch.reg 0 := Function.update_of_ne h.symm _ _
    simp only [hrun, retire_jumpIf_pc, isNonzero, hpc, hx, decide_eq_true_eq]
    by_cases ha : a = 0
    · subst ha
      simp only [if_true, Function.update_self]
    · simp only [if_neg ha, hnext ha]

end Sys2Proof.Machine
end

section
/-!
The system register instructions (47_system_registers.md) and the entries into the handler (60_exceptions.md).
-/

namespace Sys2Proof.Machine

/-- SRR of a system register whose word is `v`. -/
theorem setsAndAdvances_srr {s : State} (r : Reg) {n : BitVec 8} {v : BitVec s.W}
    (h : readSysReg s.cfg (sysReg n) s.arch = .ok v) : s.SetsAndAdvances (.srr r n) r v :=
  setsAndAdvances_of_execute (p := readToRegister s.cfg r n) rfl (by rw [readToRegister, Run.start_arch, h])

/-- Settles O28: each number's register is read; SR 7 is the multiplier's presence. -/
theorem systemRegisterReads : Obligations.SystemRegisterReads := by
  intro s r
  have hmul : BitVec.ofNat s.W s.cfg.hasMul.toNat =
      if s.cfg.hasMul then BitVec.ofNat s.W 1 else BitVec.ofNat s.W 0 := by
    cases s.cfg.hasMul <;> rfl
  rw [← hmul]
  exact ⟨setsAndAdvances_srr r rfl, setsAndAdvances_srr r rfl, setsAndAdvances_srr r rfl, setsAndAdvances_srr r rfl,
    setsAndAdvances_srr r rfl, setsAndAdvances_srr r rfl, setsAndAdvances_srr r rfl, setsAndAdvances_srr r rfl,
    setsAndAdvances_srr r rfl⟩

/-- Settles O27, three of the reads. -/
theorem constantSystemRegisters : Obligations.ConstantSystemRegisters := by
  intro s r
  exact ⟨(setsAndAdvances_srr r rfl).sets, (setsAndAdvances_srr r rfl).sets, (setsAndAdvances_srr r rfl).sets⟩

/-- SRW leaves the retired run of its write. -/
theorem completes_srw {s : State} {r : Reg} {n : BitVec 8} {k : Run s.W} {m : Arch s.W}
    (h : writeSysReg (sysReg n) (s.arch.reg r) (Run.start s.arch) = .ok k) (hm : retire k = m) :
    s.Completes (.srw r n) m :=
  hm ▸ execute_of_ok (p := fun k => writeSysReg (sysReg n) (k.reg r) k) h

/-- Settles O29. -/
theorem systemRegisterWrites : Obligations.SystemRegisterWrites := by
  rintro s r v rfl
  rw [ofNat_mod_256]
  exact ⟨completes_srw rfl rfl, completes_srw rfl rfl, completes_srw rfl rfl, completes_srw rfl rfl,
    completes_srw rfl rfl, completes_srw rfl rfl⟩

/-- The numbers with no meaning to SRR, and those with none to SRW (10_state.md rules R31 and R45). -/
theorem sysReg_unreadable {n : BitVec 8} : n = 3 ∨ n = 10 ∨ 11 ≤ n.toNat →
    sysReg n = .powerState ∨ sysReg n = .debugOutput ∨ sysReg n = .undefined := by decide +revert

theorem sysReg_unwritable {n : BitVec 8} : n = 0 ∨ n = 1 ∨ n = 6 ∨ n = 7 ∨ 11 ≤ n.toNat →
    sysReg n = .modelStepping ∨ sysReg n = .wordSize ∨ sysReg n = .frequency ∨ sysReg n = .extensions ∨
      sysReg n = .undefined := by decide +revert

/-- Settles O30. -/
theorem undefinedSystemRegisterStops : Obligations.UndefinedSystemRegisterStops := by
  intro s r n
  constructor
  · intro hn
    have hread : readSysReg s.cfg (sysReg n) s.arch = .error (.modelFault .undefinedSRAccess) := by
      rcases sysReg_unreadable hn with h | h | h <;> rw [h] <;> rfl
    exact execute_of_fault (p := readToRegister s.cfg r n) (by rw [readToRegister, Run.start_arch, hread])
  · intro hn
    have hwrite : writeSysReg (sysReg n) (s.arch.reg r) (Run.start s.arch) =
        .error (.modelFault .undefinedSRAccess) := by
      rcases sysReg_unwritable hn with h | h | h | h | h <;> rw [h] <;> rfl
    exact execute_of_fault (p := fun k => writeSysReg (sysReg n) (k.reg r) k) hwrite

section PowerState
variable {W : Nat} {v : BitVec W} (k : Run W)

theorem writePowerState_one (h : v.toNat = 1) :
    writePowerState v k = .ok { k with arch := { k.arch with halted := true } } := by simp [writePowerState, h]

theorem writePowerState_zero (h : v.toNat = 0) : writePowerState v k = .ok k := by simp [writePowerState, h]

theorem writePowerState_reserved (h : 2 ≤ v.toNat) :
    writePowerState v k = .error (.modelFault .reservedSRBits) := by
  rw [writePowerState, if_pos (by omega)]

end PowerState

/-- Settles O31. -/
theorem powerStateWrites : Obligations.PowerStateWrites := by
  intro s r
  refine ⟨fun h hW => ?halts, fun h => ?nothing, fun h => ?stops⟩
  case halts =>
    have hone : (s.arch.reg r).toNat = 1 := by
      rw [h, BitVec.toNat_ofNat, Nat.mod_eq_of_lt (Nat.one_lt_two_pow (Nat.one_le_iff_ne_zero.mp hW))]
    exact completes_srw (n := 3) (writePowerState_one (Run.start s.arch) hone) rfl
  case nothing =>
    have hzero : (s.arch.reg r).toNat = 0 := by rw [h, BitVec.toNat_ofNat, Nat.zero_mod]
    exact completes_srw (n := 3) (writePowerState_zero (Run.start s.arch) hzero) rfl
  case stops =>
    exact execute_of_fault (p := fun k => writeSysReg (sysReg 3) (k.reg r) k)
      (writePowerState_reserved (Run.start s.arch) h)

/-- Settles O39. -/
theorem generatorIsCounted : Obligations.GeneratorIsCounted := by
  intro s
  refine ⟨_, completes_deg s, ?_⟩
  constructor <;> simp

/-- Settles O40. -/
theorem trapEntrySequence : Obligations.TrapEntrySequence :=
  ⟨fun _ => trapped_trapEntry, fun _ => generateException_arch,
    fun _ len e hen => ⟨_, _, takeException_enabled len e hen⟩, fun _ m => ⟨servedDevice m, rfl⟩⟩

/-- The device served is one of those that request. -/
theorem servedDevice_mem {W : Nat} {m : Arch W} (h : m.pending ≠ []) : servedDevice m ∈ m.pending := by
  have hlt : Config.deviceChoice m.draws % m.pending.length < m.pending.length :=
    Nat.mod_lt _ (List.length_pos_iff.mpr h)
  unfold servedDevice
  split
  · rename_i d hd
    simp [hd]
  · rw [List.getD_eq_getElem _ _ hlt]
    exact List.getElem_mem hlt

theorem trapped_takeInterrupt {W : Nat} (m : Arch W) : m.Trapped (servedDevice m) (m.reg 0) (takeInterrupt m) := by
  obtain ⟨sr2, pc, sr8, sr9, regs, sr4, sr5, halted, pending, debugOut, bus, mem⟩ :=
    trapped_trapEntry (servedDevice m) (m.reg 0) m
  exact ⟨sr2, pc, sr8, sr9, regs, sr4, sr5, halted, pending, debugOut, bus, mem⟩

/-- Settles O41. -/
theorem interruptAtBoundary : Obligations.InterruptAtBoundary :=
  fun s hrun hi =>
    ⟨servedDevice s.arch, servedDevice_mem hi.2, _, step_of_interrupt hrun hi, trapped_takeInterrupt s.arch⟩

end Sys2Proof.Machine
end

section
/-!
Words and their bytes: byte `i` of an access is the slice of the word that the byte order puts there (20_memory.md rules
R64 and R65), and what is stored reads back.
-/

namespace Sys2Proof.Machine

theorem two_pow_mul_eight (n : Nat) : 2 ^ (8 * n) = 256 ^ n := Nat.pow_mul 2 8 n

/-- Byte `i` of the number that bytes stand for. -/
theorem natOfBytes_div_mod : ∀ (bs : List Byte) {i : Nat} (hi : i < bs.length),
    natOfBytes bs / 256 ^ i % 256 = (bs[i]).toNat
  | b :: bs, 0, _ => by
    have hb : b.toNat < 256 := b.isLt
    simp only [natOfBytes, pow_zero, Nat.div_one, List.getElem_cons_zero]
    omega
  | b :: bs, i + 1, hi => by
    have hb : b.toNat < 256 := b.isLt
    have htail : (b.toNat + 256 * natOfBytes bs) / 256 = natOfBytes bs := by omega
    have ih := natOfBytes_div_mod bs (Nat.lt_of_succ_lt_succ hi)
    rw [natOfBytes, Nat.pow_succ', ← Nat.div_div_eq_div_mul, htail, List.getElem_cons_succ, ih]

/-- A slice of eight bits of the word that bytes stand for is one of the bytes. -/
theorem extractLsb'_ofNat_natOfBytes {W : Nat} {bs : List Byte} (hW : 8 * bs.length ≤ W) {i : Nat}
    (hi : i < bs.length) : (BitVec.ofNat W (natOfBytes bs)).extractLsb' (8 * i) 8 = bs[i] := by
  have hlt : natOfBytes bs < 2 ^ W := by
    refine lt_of_lt_of_le (natOfBytes_lt bs) ?_
    rw [← two_pow_mul_eight]
    exact Nat.pow_le_pow_right (by decide) hW
  refine BitVec.eq_of_toNat_eq ?_
  rw [BitVec.extractLsb'_toNat, BitVec.toNat_ofNat, Nat.mod_eq_of_lt hlt, Nat.shiftRight_eq_div_pow, two_pow_mul_eight]
  exact natOfBytes_div_mod bs hi

/-- The `n` bytes of an access against the slices of its word: in order of the addresses little-endian, from the top
down big-endian. -/
theorem extractLsb'_word_of_bytes {W n : Nat} (o : ByteOrder) {bs : List Byte} (hn : bs.length = n) (hW : 8 * n ≤ W)
    {i : Nat} (hi : i < n) :
    (o = .little → (BitVec.ofNat W (natOfBytes (o.arrange bs))).extractLsb' (8 * i) 8 = bs[i]) ∧
      (o = .big → (BitVec.ofNat W (natOfBytes (o.arrange bs))).extractLsb' (8 * (n - 1 - i)) 8 = bs[i]) := by
  subst hn
  constructor
  · rintro rfl
    exact extractLsb'_ofNat_natOfBytes hW hi
  · rintro rfl
    have hrev : bs.length - 1 - i < bs.reverse.length := by rw [List.length_reverse]; omega
    rw [ByteOrder.arrange, extractLsb'_ofNat_natOfBytes (by rwa [List.length_reverse]) hrev, List.getElem_reverse]
    congr 1
    omega

/-- A word's bytes, arranged for memory and back, are the word. -/
theorem ofNat_natOfBytes_arrange_bytesOfNat (o : ByteOrder) {n : Nat} (v : BitVec (8 * n)) :
    BitVec.ofNat (8 * n) (natOfBytes (o.arrange (o.arrange (bytesOfNat n v.toNat)))) = v := by
  rw [arrange_arrange, natOfBytes_bytesOfNat, ← two_pow_mul_eight, Nat.mod_eq_of_lt v.isLt, BitVec.ofNat_toNat,
    BitVec.setWidth_eq]

/-- The bytes of a word have different addresses: a word is shorter than the address space. -/
theorem accessAddrs_word_nodup (c : Config) (a : Nat) : (accessAddrs c.wordBits a c.wordBytes).Nodup :=
  accessAddrs_nodup (Nat.le_of_lt (lt_of_lt_of_le Nat.lt_two_pow_self 
    (Nat.pow_le_pow_right (by decide) (Nat.le_mul_of_pos_left _ (by decide)))))

/-- The bytes in memory after a word was stored at them. -/
theorem map_read_writeAll_word (c : Config) (a : Nat) (mem : List Host.Cell) (v : BitVec c.wordBits) :
    (accessAddrs c.wordBits a c.wordBytes).map (Memory.read (Memory.writeAll mem (accessAddrs c.wordBits a c.wordBytes)
      (c.byteOrder.arrange (bytesOfNat c.wordBytes v.toNat)))) = c.byteOrder.arrange (bytesOfNat c.wordBytes v.toNat) :=
  Memory.map_read_writeAll (accessAddrs_word_nodup c a) (by simp)

/-- Settles O49. -/
theorem loadedWordBytes : Obligations.LoadedWordBytes := by
  rintro s a ⟨ha, hk⟩
  refine ⟨_, loadWord_plain ha hk, fun i hi => ?_⟩
  have hlen : ((accessAddrs s.W a.toNat s.cfg.wordBytes).map (Memory.read s.arch.mem)).length =
      s.cfg.wordBytes := by simp
  have hbytes := extractLsb'_word_of_bytes (W := s.W) s.cfg.byteOrder hlen (Nat.le_refl _) hi
  simpa only [accessAddrs, List.getElem_map, List.getElem_range] using hbytes

/-- The state with a word of plain memory stored (`storeWord_eq_storedWord`). -/
def Arch.storedWord {W : Nat} (c : Config) (a v : BitVec W) (m : Arch W) : Arch W :=
  { m with
    mem := Memory.writeAll m.mem (accessAddrs W a.toNat c.wordBytes)
      (c.byteOrder.arrange (bytesOfNat c.wordBytes v.toNat)) }

theorem storeWord_eq_storedWord {W : Nat} {c : Config} {a v : BitVec W} {m : Arch W} (ha : a.toNat % c.wordBytes = 0)
    (hk : accessKind c (accessAddrs W a.toNat c.wordBytes) = .plain) :
    storeWord c a v m = .ok (m.storedWord c a v) := storeWord_plain ha hk

/-- The word of memory at an address it was stored to. -/
theorem wordAt_storedWord (c : Config) (a v : BitVec c.wordBits) (m : Arch c.wordBits) :
    State.wordAt { cfg := c, arch := m.storedWord c a v } a = v := by
  rw [State.wordAt, Arch.storedWord, map_read_writeAll_word]
  exact ofNat_natOfBytes_arrange_bytesOfNat c.byteOrder v

theorem loadWord_storedWord (c : Config) (a v : BitVec c.wordBits) (m : Arch c.wordBits)
    (ha : a.toNat % c.wordBytes = 0) (hk : accessKind c (accessAddrs c.wordBits a.toNat c.wordBytes) = .plain) :
    loadWord c a (m.storedWord c a v) = .ok (v, m.storedWord c a v) := by
  have hword := wordAt_storedWord c a v m
  rw [State.wordAt] at hword
  rw [loadWord_plain ha hk, hword]

/-- Each byte of a stored word, in its byte order. -/
theorem read_storedWord (c : Config) (a v : BitVec c.wordBits) (m : Arch c.wordBits)
    (ha : a.toNat % c.wordBytes = 0) (hk : accessKind c (accessAddrs c.wordBits a.toNat c.wordBytes) = .plain)
    {i : Nat} (hi : i < c.wordBytes) :
    (c.byteOrder = .little →
      Memory.read (m.storedWord c a v).mem ((a.toNat + i) % 2 ^ c.wordBits) = v.extractLsb' (8 * i) 8) ∧
    (c.byteOrder = .big →
      Memory.read (m.storedWord c a v).mem ((a.toNat + i) % 2 ^ c.wordBits) =
        v.extractLsb' (8 * (c.wordBytes - 1 - i)) 8) := by
  obtain ⟨v', hv', hbytes⟩ := loadedWordBytes { cfg := c, arch := m.storedWord c a v } a ⟨ha, hk⟩
  obtain rfl : v = v' := by
    have hload := loadWord_storedWord c a v m ha hk
    rw [hv'] at hload
    cases hload
    rfl
  exact ⟨fun ho => ((hbytes i hi).1 ho).symm, fun ho => ((hbytes i hi).2 ho).symm⟩

/-- Settles O50. -/
theorem storedWordBytes : Obligations.StoredWordBytes := by
  rintro s a v - ⟨ha, hk⟩
  exact ⟨s.arch.storedWord s.cfg a v, storeWord_eq_storedWord ha hk, loadWord_storedWord s.cfg a v s.arch ha hk,
    fun i hi => read_storedWord s.cfg a v s.arch ha hk hi, fun x hx => Memory.read_writeAll_of_not_mem hx⟩

/-! ### Fetching from a stored word -/

/-- An access is plain when each of its bytes is. -/
theorem accessKind_eq_plain_iff (c : Config) (as : List Nat) :
    accessKind c as = .plain ↔ ∀ a ∈ as, kindAt c a = .plain := by
  unfold accessKind
  split
  · rename_i h
    obtain ⟨a, ha, hk⟩ := List.any_eq_true.mp h
    refine ⟨nofun, fun hall => ?_⟩
    rw [hall a ha] at hk
    cases hk
  · rename_i hnothing
    split
    · rename_i h
      obtain ⟨a, ha, hk⟩ := List.any_eq_true.mp h
      refine ⟨nofun, fun hall => ?_⟩
      rw [hall a ha] at hk
      cases hk
    · rename_i hdevice
      refine ⟨fun _ a ha => ?_, fun _ => rfl⟩
      simp only [List.any_eq_true, decide_eq_true_eq, not_exists, not_and] at hnothing hdevice
      cases hk : kindAt c a with
      | plain => rfl
      | device => exact absurd hk (hdevice a ha)
      | nothing => exact absurd hk (hnothing a ha)

/-- The address `n` bytes after another one. -/
theorem toNat_add_ofNat_add_mod {W : Nat} (a : BitVec W) (n j : Nat) :
    ((a + BitVec.ofNat W n).toNat + j) % 2 ^ W = (a.toNat + (n + j)) % 2 ^ W := by
  rw [BitVec.toNat_add, BitVec.toNat_ofNat, Nat.add_mod_mod, Nat.mod_add_mod, Nat.add_assoc]

/-- The bytes of an access that lies within another one. -/
theorem accessAddrs_subset {W : Nat} (a : BitVec W) {n len total : Nat} (h : n + len ≤ total) {x : Nat}
    (hx : x ∈ accessAddrs W (a + BitVec.ofNat W n).toNat len) : x ∈ accessAddrs W a.toNat total := by
  simp only [accessAddrs, List.mem_map, List.mem_range] at hx ⊢
  obtain ⟨j, hj, rfl⟩ := hx
  exact ⟨n + j, by omega, (toNat_add_ofNat_add_mod a n j).symm⟩

/-- A word of two bytes is determined by them. -/
theorem eq_of_extractLsb'_bytes {x y : BitVec 16} (hlow : x.extractLsb' 0 8 = y.extractLsb' 0 8)
    (hhigh : x.extractLsb' 8 8 = y.extractLsb' 8 8) : x = y := by
  have hx := x.isLt
  have hy := y.isLt
  have hl := congrArg BitVec.toNat hlow
  have hh := congrArg BitVec.toNat hhigh
  simp only [BitVec.extractLsb'_toNat, Nat.shiftRight_eq_div_pow] at hl hh
  exact BitVec.eq_of_toNat_eq (by omega)

/-- A byte of two consecutive ones within a word. -/
theorem extractLsb'_extractLsb'_byte {W : Nat} (v : BitVec W) (lo j : Nat) (hj : j + 8 ≤ 16) :
    (v.extractLsb' lo 16).extractLsb' j 8 = v.extractLsb' (lo + j) 8 := by
  ext i hi
  simp only [BitVec.getElem_extractLsb', BitVec.getLsbD_extractLsb', show j + i < 16 by omega, decide_true,
    Bool.true_and, Nat.add_assoc]

/-- The two bytes at an address, as a fetch sees them. -/
theorem fetch_plain {W : Nat} {c : Config} {m : Arch W} (ha : (m.reg 0).toNat % 2 = 0)
    (hk : accessKind c (accessAddrs W (m.reg 0).toNat 2) = .plain) :
    fetch c m = .ok (BitVec.ofNat 16 (natOfBytes (c.byteOrder.arrange
      ((accessAddrs W (m.reg 0).toNat 2).map (Memory.read m.mem)))), m) := by
  simp [fetch, memRead_plain ha hk]

/-- The word of two bytes, by the order of the bytes. -/
theorem extractLsb'_word_of_two (o : ByteOrder) (b0 b1 : Byte) :
    (o = .little → (BitVec.ofNat 16 (natOfBytes (o.arrange [b0, b1]))).extractLsb' 0 8 = b0 ∧
      (BitVec.ofNat 16 (natOfBytes (o.arrange [b0, b1]))).extractLsb' 8 8 = b1) ∧
    (o = .big → (BitVec.ofNat 16 (natOfBytes (o.arrange [b0, b1]))).extractLsb' 0 8 = b1 ∧
      (BitVec.ofNat 16 (natOfBytes (o.arrange [b0, b1]))).extractLsb' 8 8 = b0) := by
  have first := extractLsb'_word_of_bytes (W := 16) o (bs := [b0, b1]) (n := 2) rfl (by decide) (i := 0) (by decide)
  have second := extractLsb'_word_of_bytes (W := 16) o (bs := [b0, b1]) (n := 2) rfl (by decide) (i := 1) (by decide)
  exact ⟨fun ho => ⟨first.1 ho, second.1 ho⟩, fun ho => ⟨second.2 ho, first.2 ho⟩⟩

/-- Settles O51: the two bytes fetched are bytes `2 * k` and `2 * k + 1` of the stored word. -/
theorem storeThenFetch : Obligations.StoreThenFetch := by
  rintro s a v m k - ⟨ha, hk⟩ hstore hlen hpc
  rw [storeWord_eq_storedWord ha hk] at hstore
  obtain rfl : s.arch.storedWord s.cfg a v = m := by cases hstore; rfl
  obtain ⟨pc, hpcdef⟩ : ∃ pc, pc = a + BitVec.ofNat s.W (2 * k) := ⟨_, rfl⟩
  rw [← hpcdef] at hpc ⊢
  have hplain : accessKind s.cfg (accessAddrs s.W pc.toNat 2) = .plain := by
    rw [accessKind_eq_plain_iff] at hk ⊢
    exact fun x hx => hk x (accessAddrs_subset a hlen (hpcdef ▸ hx))
  have hfetch := fetch_plain (c := s.cfg) (m := (s.arch.storedWord s.cfg a v).setReg 0 pc)
    (by rwa [Arch.reg_setReg_self]) (by rwa [Arch.reg_setReg_self])
  rw [Arch.reg_setReg_self, Arch.setReg_mem] at hfetch
  have address (j : Nat) : (pc.toNat + j) % 2 ^ s.W = (a.toNat + (2 * k + j)) % 2 ^ s.W := by
    rw [hpcdef, toNat_add_ofNat_add_mod]
  have stored {i : Nat} (hi : i < s.cfg.wordBytes) := read_storedWord s.cfg a v s.arch ha hk hi
  have word := extractLsb'_word_of_two s.cfg.byteOrder
    (Memory.read (s.arch.storedWord s.cfg a v).mem ((pc.toNat + 0) % 2 ^ s.W))
    (Memory.read (s.arch.storedWord s.cfg a v).mem ((pc.toNat + 1) % 2 ^ s.W))
  rw [address, address] at word
  have hbytes : (accessAddrs s.W pc.toNat 2).map (Memory.read (s.arch.storedWord s.cfg a v).mem) =
      [Memory.read (s.arch.storedWord s.cfg a v).mem ((a.toNat + (2 * k + 0)) % 2 ^ s.W),
        Memory.read (s.arch.storedWord s.cfg a v).mem ((a.toNat + (2 * k + 1)) % 2 ^ s.W)] := by
    rw [← address, ← address]
    rfl
  rw [hbytes] at hfetch
  refine ⟨_, _, hfetch, fun ho => ?little, fun ho => ?big⟩
  case little =>
    obtain ⟨hlow, hhigh⟩ := word.1 ho
    refine eq_of_extractLsb'_bytes ?_ ?_
    · rw [hlow, (stored (by omega)).1 ho, extractLsb'_extractLsb'_byte _ _ _ (by omega)]
      congr 1
      omega
    · rw [hhigh, (stored (by omega)).1 ho, extractLsb'_extractLsb'_byte _ _ _ (by omega)]
      congr 1
      omega
  case big =>
    have hW : s.W = 8 * s.cfg.wordBytes := rfl
    obtain ⟨hlow, hhigh⟩ := word.2 ho
    refine eq_of_extractLsb'_bytes ?_ ?_
    · rw [hlow, (stored (by omega)).2 ho, extractLsb'_extractLsb'_byte _ _ _ (by omega)]
      congr 1
      omega
    · rw [hhigh, (stored (by omega)).2 ho, extractLsb'_extractLsb'_byte _ _ _ (by omega)]
      congr 1
      omega

end Sys2Proof.Machine
end

section
/-!
Reset and the platform's image (70_reset_and_hazards.md section 1).
-/

namespace Sys2Proof.Machine

theorem config_reference_wellFormed : Config.reference.WellFormed := by
  refine ⟨by decide, by decide, by decide, fun r hr => ?_⟩
  cases hr

/-- Settles O58. -/
theorem resetState : Obligations.ResetState := by
  intro c image
  refine ⟨Arch.reset c.wordBits c.resetPc image, rfl, Arch.reset_reg_zero _ _ _, ?disabled, rfl, rfl, rfl, rfl, rfl⟩
  case disabled => rw [Arch.exceptionsEnabled, Arch.reset_sr2, BitVec.getLsbD_zero]

/-- Reset with a canonical image meets the invariant. -/
theorem resetOf_inv {c : Config} {image : List Host.Cell} (hc : c.WellFormed) (hwf : Memory.wf image)
    (hlt : ∀ x ∈ image, x.1 < 2 ^ c.wordBits) : (State.resetOf c image).Inv :=
  ⟨hc, ⟨hwf, hlt⟩, List.nodup_nil, rfl⟩

/-- Settles O54. -/
theorem resetMeetsInvariant : Obligations.ResetMeetsInvariant :=
  ⟨resetOf_inv config_reference_wellFormed List.Pairwise.nil nofun, fun _ _ => resetOf_inv⟩

/-- A byte the image lists reads as listed: its address is listed once. -/
theorem Memory.read_of_mem {image : List Host.Cell} {a : Nat} {b : Byte} (hwf : Memory.wf image) (h : (a, b) ∈ image) :
    Memory.read image a = b := by
  induction image with
  | nil => cases h
  | cons c rest ih =>
    obtain ⟨k, b'⟩ := c
    obtain ⟨hk, hrest⟩ := List.pairwise_cons.mp hwf
    rw [Memory.read]
    obtain heq | h := List.mem_cons.mp h
    · cases heq
      rw [if_pos rfl]
    · rw [if_neg (Nat.ne_of_lt (hk _ h)), ih hrest h]

/-- Placing bytes keeps the invariant. -/
theorem withBytes_inv {s : State} (hs : s.Inv) (base : Nat) (bs : List Byte) : (s.withBytes base bs).Inv := by
  obtain ⟨hcfg, hmem, hpending⟩ := hs
  have hmem' : s.arch.MemoryInv := hmem
  exact ⟨hcfg, hmem'.of_mem_writeAll (m' := (s.withBytes base bs).arch) rfl, hpending⟩

/-- Settles O55. -/
theorem platformImage : Obligations.PlatformImage := by
  refine ⟨fun _ _ => rfl, fun _ _ _ => Memory.read_of_mem, fun _ _ => Memory.read_of_not_mem,
    fun s base bs hs hlen => ?_⟩
  exact ⟨withBytes_inv hs base bs, _, rfl, Memory.map_read_writeAll (accessAddrs_nodup hlen) (accessAddrs_length _ _ _),
    fun x hx => Memory.read_writeAll_of_not_mem hx⟩

end Sys2Proof.Machine
end

section
/-!
What the fetch gives in each case, and the step that follows (10_state.md rule R27, 20_memory.md rules R61, R66 and
R69).
-/

namespace Sys2Proof.Machine

section AccessCases
variable {W : Nat} {c : Config} {n : Nat} {f : Fault} {a v : BitVec W} {m : Arch W}

theorem memRead_misaligned (ha : a.toNat % n ≠ 0) : memRead c n f a m = .error f := by simp [memRead, ha]

theorem memRead_nothing (ha : a.toNat % n = 0) (hk : accessKind c (accessAddrs W a.toNat n) = .nothing) :
    memRead c n f a m = .error .unmappedAccess := by simp [memRead, ha, hk]

theorem memRead_device (ha : a.toNat % n = 0) (hk : accessKind c (accessAddrs W a.toNat n) = .device) :
    memRead c n f a m = .ok (Config.deviceValue m.draws % 2 ^ (8 * n),
      { m with bus := m.bus ++ [.read a.toNat n], draws := m.draws + 1 }) := by simp [memRead, ha, hk]

theorem loadWord_misaligned (ha : a.toNat % c.wordBytes ≠ 0) : loadWord c a m = .error .misalignedAccess := by
  rw [loadWord, memRead_misaligned ha]

theorem loadWord_nothing (ha : a.toNat % c.wordBytes = 0)
    (hk : accessKind c (accessAddrs W a.toNat c.wordBytes) = .nothing) : loadWord c a m = .error .unmappedAccess := by
  rw [loadWord, memRead_nothing ha hk]

theorem loadWord_device (ha : a.toNat % c.wordBytes = 0)
    (hk : accessKind c (accessAddrs W a.toNat c.wordBytes) = .device) :
    loadWord c a m = .ok (BitVec.ofNat W (Config.deviceValue m.draws % 2 ^ (8 * c.wordBytes)),
      { m with bus := m.bus ++ [.read a.toNat c.wordBytes], draws := m.draws + 1 }) := by
  rw [loadWord, memRead_device ha hk]

theorem storeWord_misaligned (ha : a.toNat % c.wordBytes ≠ 0) : storeWord c a v m = .error .misalignedAccess := by
  simp [storeWord, ha]

theorem storeWord_nothing (ha : a.toNat % c.wordBytes = 0)
    (hk : accessKind c (accessAddrs W a.toNat c.wordBytes) = .nothing) :
    storeWord c a v m = .error .unmappedAccess := by
  simp [storeWord, ha, hk]

theorem storeWord_device (ha : a.toNat % c.wordBytes = 0)
    (hk : accessKind c (accessAddrs W a.toNat c.wordBytes) = .device) :
    storeWord c a v m = .ok { m with bus := m.bus ++ [.write a.toNat c.wordBytes v.toNat] } := by
  simp [storeWord, ha, hk]

end AccessCases

section FetchCases
variable {s : State}

/-- Settles O47. -/
theorem fetchFaults : Obligations.FetchFaults := by
  intro s hs
  refine ⟨fun hodd => ?odd, fun heven hk => ?unmapped⟩
  case odd => exact step_of_fetch_error hs (by rw [fetch, memRead_misaligned (by omega)])
  case unmapped => exact step_of_fetch_error hs (by rw [fetch, memRead_nothing heven hk])

/-- Two bytes that decode, decode as their word. -/
theorem decode_of_decodeBytes {o : ByteOrder} {i : Instr} {rest : List Byte} :
    ∀ {bs : List Byte}, bs.length = 2 → decodeBytes o bs = .ok (i, rest) →
      decode (BitVec.ofNat 16 (natOfBytes (o.arrange bs))) = .ok i
  | [b0, b1], _, h => by
    rw [decodeBytes] at h
    split at h
    · rename_i j hd
      cases h
      exact hd
    · cases h

/-- Settles O44. -/
theorem stepRunsDecoded : Obligations.StepRunsDecoded := by
  intro s i hs
  refine ⟨fun ⟨ha, hk⟩ hbytes => ?plain, fun w m hf hd => step_of_fetch_ok hs hf hd⟩
  case plain => exact step_of_fetch_ok hs (fetch_plain ha hk) (decode_of_decodeBytes (by simp) hbytes)

/-- A word placed at the program counter is what the fetch sees there. -/
theorem map_read_withFetchWord (s : State) (w : IWord) (hW : 2 ≤ 2 ^ s.W) :
    (accessAddrs s.W (s.arch.reg 0).toNat 2).map (Memory.read (s.withFetchWord 16 w.toNat).arch.mem) =
      wordBytesOf s.cfg.byteOrder w := by
  have hw : BitVec.ofNat 16 (w.toNat % 2 ^ 16) = w := by
    rw [Nat.mod_eq_of_lt w.isLt, BitVec.ofNat_toNat, BitVec.setWidth_eq]
  have hlen : (wordBytesOf s.cfg.byteOrder w).length = 2 := by rw [wordBytesOf, arrange_length, bytesOfNat_length]
  rw [State.withFetchWord, hw, State.withBytes_arch, hlen]
  exact Memory.map_read_writeAll (accessAddrs_nodup hW) (by rw [accessAddrs_length, hlen])

/-- Settles O45: the placed bytes decode to the instruction, and placing them moves neither the program counter nor what
the step tests first. -/
theorem placedInstructionRuns : Obligations.PlacedInstructionRuns := by
  rintro s i ⟨⟨hwb, -⟩, -, -⟩ hs hi hk
  have hW : 2 ≤ 2 ^ s.W :=
    calc 2 = 2 ^ 1 := rfl
      _ ≤ 2 ^ s.W := Nat.pow_le_pow_right (by decide) (show 1 ≤ 8 * s.cfg.wordBytes by omega)
  have hbytes := decodeBytes_wordBytesOf s.cfg.byteOrder (decodeInvertsEncode i hi) []
  rw [List.append_nil, ← map_read_withFetchWord s (encode i) hW] at hbytes
  exact (stepRunsDecoded (s.withFetchWord 16 (encode i).toNat) i hs).1 hk hbytes

/-- Settles O46: the word is fetched and rejected, and the step takes the exception. -/
theorem stepOnReservedWord : Obligations.StepOnReservedWord := by
  rintro s w hs ⟨ha, hk⟩ h1 hmax hbytes
  have hf := fetch_plain ha hk
  rw [hbytes, ofNat_natOfBytes_wordBytesOf] at hf
  obtain ⟨hc, h0⟩ := (class_zero_iff w).mpr ⟨h1, hmax⟩
  have hstep := step_of_fetch_rejected hs hf (decode_reserved hc h0)
  have htraps := takeException_traps s 2 .illegalInstruction
  rw [← hstep] at htraps
  exact htraps

/-- Settles O48: the device read of the fetch, then the two outcomes of the decoder. -/
theorem deviceFetch : Obligations.DeviceFetch := by
  rintro s w m ha hk rfl rfl
  have hf : fetch s.cfg s.arch = .ok (BitVec.ofNat 16 (Config.deviceValue s.arch.draws % 2 ^ 16),
      { s.arch with bus := s.arch.bus ++ [.read (s.arch.reg 0).toNat 2], draws := s.arch.draws + 1 }) := by
    rw [fetch, memRead_device ha hk]
  refine ⟨hf, fun hs => ?_⟩
  cases hd : decode (BitVec.ofNat 16 (Config.deviceValue s.arch.draws % 2 ^ 16)) with
  | ok i => exact .inl ⟨i, rfl, step_of_fetch_ok hs hf hd⟩
  | error r =>
    obtain ⟨-, -, rfl⟩ := decode_error hd
    exact .inr ⟨rfl, step_of_fetch_rejected hs hf hd⟩

end FetchCases

end Sys2Proof.Machine
end

section
/-!
The operands of a data transfer (44_data_transfer.md): the registers they step, the program counter among them, and what
they leave.
-/

namespace Sys2Proof.Machine

section OperandSteps
variable (s : State) (o : Operand) (k : Run s.W)

theorem stepBefore_reg : (stepBefore s.cfg o k).reg = Function.update k.reg o.reg (s.used o.mode (k.reg o.reg)) := by
  unfold stepBefore State.used
  cases o.mode with
  | autoDec => exact Run.reg_setReg_eq_update _ _ _
  | none | autoInc | autoPostDec => exact (Function.update_eq_self _ _).symm

theorem stepAfter_reg : (stepAfter s.cfg o k).reg = Function.update k.reg o.reg (s.stepped o.mode (k.reg o.reg)) := by
  unfold stepAfter State.stepped
  cases o.mode with
  | autoInc | autoPostDec => exact Run.reg_setReg_eq_update _ _ _
  | none | autoDec => exact (Function.update_eq_self _ _).symm

theorem stepBefore_reg_self : (stepBefore s.cfg o k).reg o.reg = s.used o.mode (k.reg o.reg) := by
  rw [stepBefore_reg, Function.update_self]

theorem destAddr_eq : destAddr s.cfg o k = s.used o.mode (k.reg o.reg) := stepBefore_reg_self s o k

/-- The post-step after the operand's register was left as the pre-step made it. -/
theorem stepAfter_reg_of_stepBefore {k2 : Run s.W} (h : k2.reg = (stepBefore s.cfg o k).reg) :
    (stepAfter s.cfg o k2).reg = Function.update k.reg o.reg (s.stepped o.mode (s.used o.mode (k.reg o.reg))) := by
  rw [stepAfter_reg, h, stepBefore_reg_self, stepBefore_reg, Function.update_idem]

theorem stepBefore_pcWritten (c : Config) :
    (stepBefore c o k).pcWritten = (k.pcWritten || (decide (o.reg = 0) && decide (o.mode = .autoDec))) := by
  unfold stepBefore
  cases o.mode <;> simp

theorem stepAfter_pcWritten (c : Config) :
    (stepAfter c o k).pcWritten =
      (k.pcWritten || (decide (o.reg = 0) && decide (o.mode = .autoInc ∨ o.mode = .autoPostDec))) := by
  unfold stepAfter
  cases o.mode <;> simp

/-- The operand's two steps write the program counter unless it is spared. -/
theorem steps_write_pc_eq : (decide (o.reg = 0) &&
    (decide (o.mode = .autoDec) || decide (o.mode = .autoInc ∨ o.mode = .autoPostDec))) = !decide (sparesPc o) := by
  obtain ⟨r, indirect, mode⟩ := o
  cases mode <;> simp [sparesPc]

/-- An operand that spares the program counter does not write it, and one that does not writes it. -/
theorem stepAfter_pcWritten_of_stepBefore {k2 : Run s.W} (h : k2.pcWritten = (stepBefore s.cfg o k).pcWritten) :
    (stepAfter s.cfg o k2).pcWritten = (k.pcWritten || !decide (sparesPc o)) := by
  rw [stepAfter_pcWritten, h, stepBefore_pcWritten, Bool.or_assoc, ← Bool.and_or_distrib_left]
  rw [steps_write_pc_eq]

/-- The program counter after an operand that spares it. -/
theorem update_stepped_zero_of_sparesPc (h : sparesPc o) (x : Reg → BitVec s.W) :
    Function.update x o.reg (s.stepped o.mode (s.used o.mode (x o.reg))) 0 = x 0 := by
  obtain hr | hm := h
  · exact Function.update_of_ne hr.symm _ _
  · rw [hm]
    exact congrFun (Function.update_eq_self _ _) 0

end OperandSteps

section OperandCases
variable {W : Nat} {c : Config} {o : Operand} {k : Run W} {v : BitVec W} {m : Arch W} {f : Fault}

theorem readOperand_direct (hi : o.indirect = false) :
    readOperand c o k = .ok ((stepBefore c o k).reg o.reg, stepAfter c o (stepBefore c o k)) := by
  simp [readOperand, hi]

theorem readOperand_indirect (hi : o.indirect = true)
    (hl : loadWord c ((stepBefore c o k).reg o.reg) (stepBefore c o k).arch = .ok (v, m)) :
    readOperand c o k = .ok (v, stepAfter c o { stepBefore c o k with arch := m }) := by
  simp [readOperand, hi, hl]

theorem readOperand_fault (hi : o.indirect = true)
    (hl : loadWord c ((stepBefore c o k).reg o.reg) (stepBefore c o k).arch = .error f) :
    readOperand c o k = .error (.modelFault f) := by
  simp [readOperand, hi, hl]

theorem writeOperand_direct (hi : o.indirect = false) :
    writeOperand c o v k = .ok (stepAfter c o ((stepBefore c o k).setReg o.reg v)) := by
  simp [writeOperand, hi]

theorem writeOperand_indirect (hi : o.indirect = true)
    (hs : storeWord c (destAddr c o k) v (stepBefore c o k).arch = .ok m) :
    writeOperand c o v k = .ok (stepAfter c o { stepBefore c o k with arch := m }) := by
  simp [writeOperand, hi, hs]

theorem writeOperand_fault (hi : o.indirect = true)
    (hs : storeWord c (destAddr c o k) v (stepBefore c o k).arch = .error f) :
    writeOperand c o v k = .error (.modelFault f) := by
  simp [writeOperand, hi, hs]

/-- A transfer writes its destination in the run its source operand left. -/
theorem transfer_of_readOperand {dst src : Operand} {k1 : Run W} (h : readOperand c src k = .ok (v, k1)) :
    transfer c dst src k = writeOperand c dst v k1 := by
  simp [transfer, h]

theorem transfer_of_readOperand_error {dst src : Operand} {a : Abort} (h : readOperand c src k = .error a) :
    transfer c dst src k = .error a := by
  simp [transfer, h]

end OperandCases

/-- A run that changed no system state, no byte of memory, and no more of the device record than said. -/
theorem Run.KeepsSystem.kept {W : Nat} {k k' : Run W} (h : k.KeepsSystem k') {bus : List DeviceAccess}
    (hbus : k'.arch.bus = bus) (hmem : k'.arch.mem = k.arch.mem) : Arch.Kept { k.arch with bus := bus } k'.arch where
  sr2 := h.sr2
  sr8 := h.sr8
  sr9 := h.sr9
  halted := h.halted
  pending := h.pending
  debugOut := h.debugOut
  bus := hbus
  mem a := by rw [hmem]

/-- The registers and the flag of the program counter after a source operand, in all its forms. -/
theorem readOperand_reg {s : State} {o : Operand} {k k' : Run s.W} {v : BitVec s.W}
    (h : readOperand s.cfg o k = .ok (v, k')) :
    k'.reg = Function.update k.reg o.reg (s.stepped o.mode (s.used o.mode (k.reg o.reg))) ∧
      k'.pcWritten = (k.pcWritten || !decide (sparesPc o)) := by
  obtain ⟨-, -, rfl⟩ | ⟨-, m, hl, rfl⟩ := readOperand_ok h
  · exact ⟨stepAfter_reg_of_stepBefore s o k rfl, stepAfter_pcWritten_of_stepBefore s o k rfl⟩
  · refine ⟨stepAfter_reg_of_stepBefore s o k ?_, stepAfter_pcWritten_of_stepBefore s o k rfl⟩
    obtain ⟨-, ⟨-, rfl, -⟩ | ⟨-, rfl, -⟩⟩ := loadWord_ok hl <;> rfl

/-- Settles O19, by the form of the operand and the kind of the access. -/
theorem sourceOperandForms : Obligations.SourceOperandForms := by
  rintro s src a hadef
  have ha : (stepBefore s.cfg src (Run.start s.arch)).reg src.reg = a := (stepBefore_reg_self s src _).trans hadef.symm
  have hregs {v : BitVec s.W} {k : Run s.W} (h : readOperand s.cfg src (Run.start s.arch) = .ok (v, k)) :
      k.reg = Function.update s.arch.reg src.reg (s.stepped src.mode a) := by
    rw [hadef]
    exact (readOperand_reg h).1
  have fault {f : Fault} (hi : src.indirect = true)
      (hl : loadWord s.cfg a (stepBefore s.cfg src (Run.start s.arch)).arch = .error f) (dst : Operand) :
      exec (.xf dst src) s = .fault f :=
    execute_of_fault (p := transfer s.cfg dst src)
      (transfer_of_readOperand_error (readOperand_fault hi (by rwa [ha])))
  refine ⟨fun hi => ?register, fun hi ⟨hal, hk⟩ => ?plain, fun hi hal hk => ?device, fun hi hal => ?misaligned,
    fun hi hal hk => ?unmapped⟩
  case register =>
    have hread := readOperand_direct (c := s.cfg) (k := Run.start s.arch) hi
    rw [ha] at hread
    exact ⟨_, hread, hregs hread, (readOperand_keepsSystem hread).kept (by simp) (by simp)⟩
  case plain =>
    have hread := readOperand_indirect (c := s.cfg) (k := Run.start s.arch) hi
      (by rw [ha]; exact loadWord_plain hal hk)
    rw [stepBefore_mem, Run.start_arch] at hread
    exact ⟨_, hread, hregs hread, (readOperand_keepsSystem hread).kept (by simp) (by simp)⟩
  case device =>
    have hread := readOperand_indirect (c := s.cfg) (k := Run.start s.arch) hi
      (by rw [ha]; exact loadWord_device hal hk)
    rw [stepBefore_draws, Run.start_arch] at hread
    exact ⟨_, hread, hregs hread, (readOperand_keepsSystem hread).kept (by simp) (by simp)⟩
  case misaligned => exact fault hi (loadWord_misaligned hal)
  case unmapped => exact fault hi (loadWord_nothing hal hk)

/-! ### The destination -/

section Retiring
variable {W : Nat} {k k' : Run W}

theorem Arch.Kept.retire {m : Arch W} (h : m.Kept k.arch) : m.Kept (retire k) where
  sr2 := by rw [retire_sr2, h.sr2]
  sr8 := by rw [retire_sr8, h.sr8]
  sr9 := by rw [retire_sr9, h.sr9]
  halted := by rw [retire_halted, h.halted]
  pending := by rw [retire_pending, h.pending]
  debugOut := by rw [retire_debugOut, h.debugOut]
  bus := by rw [retire_bus, h.bus]
  mem a := by rw [retire_mem, h.mem]

theorem Run.KeepsSystem.keptControl_retire (h : k.KeepsSystem k') (hbus : k'.arch.bus = k.arch.bus) :
    k.arch.KeptControl (Machine.retire k') where
  sr2 := by rw [retire_sr2, h.sr2]
  sr8 := by rw [retire_sr8, h.sr8]
  sr9 := by rw [retire_sr9, h.sr9]
  halted := by rw [retire_halted, h.halted]
  pending := by rw [retire_pending, h.pending]
  debugOut := by rw [retire_debugOut, h.debugOut]
  bus := by rw [retire_bus, hbus]

theorem Run.KeepsSystem.counted_retire (h : k.KeepsSystem k') (hk : k.sr4Written = false)
    (hdraws : k'.arch.draws = k.arch.draws) : k.arch.Counted (Machine.retire k') where
  sr4 := by rw [retire_sr4, h.sr4Written, hk, h.sr4]; rfl
  sr5 := by rw [retire_sr5, h.sr5, hdraws]

end Retiring

section Destination
variable {s : State} {dst src : Operand} {v : BitVec s.W} {k k' : Run s.W}

/-- A transfer completes in the retired run of its destination operand. -/
theorem completes_xf (hread : readOperand s.cfg src (Run.start s.arch) = .ok (v, k))
    (hwrite : writeOperand s.cfg dst v k = .ok k') : s.Completes (.xf dst src) (retire k') :=
  execute_of_ok (p := transfer s.cfg dst src) ((transfer_of_readOperand hread).trans hwrite)

theorem exec_xf_fault {f : Fault} (hread : readOperand s.cfg src (Run.start s.arch) = .ok (v, k))
    (hwrite : writeOperand s.cfg dst v k = .error (.modelFault f)) : exec (.xf dst src) s = .fault f :=
  execute_of_fault (p := transfer s.cfg dst src) ((transfer_of_readOperand hread).trans hwrite)

/-- The program counter after a source operand that spares it, and the flag. -/
theorem readOperand_pc_of_sparesPc (hread : readOperand s.cfg src (Run.start s.arch) = .ok (v, k)) (h : sparesPc src) :
    k.reg 0 = s.arch.reg 0 ∧ k.pcWritten = false := by
  obtain ⟨hreg, hpc⟩ := readOperand_reg hread
  rw [hreg, hpc]
  exact ⟨update_stepped_zero_of_sparesPc s src h _, by simp [h]⟩

/-- The registers after a store to a device or to memory: the destination's register stepped. -/
theorem xf_store_registers (hread : readOperand s.cfg src (Run.start s.arch) = .ok (v, k)) {m : Arch s.W}
    (hx : m.x = (stepBefore s.cfg dst k).arch.x)
    (hk' : k' = stepAfter s.cfg dst { stepBefore s.cfg dst k with arch := m }) :
    (∀ j : Reg, j ≠ 0 →
      (retire k').reg j = Function.update k.reg dst.reg (s.stepped dst.mode (destAddr s.cfg dst k)) j) ∧
    (sparesPc src → sparesPc dst → (retire k').reg 0 = s.arch.reg 0 + BitVec.ofNat s.W 2) ∧
    (¬ (sparesPc src ∧ sparesPc dst) →
      (retire k').reg 0 = Function.update k.reg dst.reg (s.stepped dst.mode (destAddr s.cfg dst k)) 0) := by
  have hsame : (Run.reg { stepBefore s.cfg dst k with arch := m }) = (stepBefore s.cfg dst k).reg := by
    funext j
    simp only [Run.reg, Arch.reg, hx]
  have hreg : k'.reg = Function.update k.reg dst.reg (s.stepped dst.mode (s.used dst.mode (k.reg dst.reg))) := by
    rw [hk', stepAfter_reg_of_stepBefore s dst k hsame]
  have hpc : k'.pcWritten = (!decide (sparesPc src) || !decide (sparesPc dst)) := by
    rw [hk', stepAfter_pcWritten_of_stepBefore s dst k (k2 := { stepBefore s.cfg dst k with arch := m }) rfl,
      (readOperand_reg hread).2, Run.start_pcWritten, Bool.false_or]
  rw [destAddr_eq, ← hreg]
  refine ⟨fun j hj => retire_reg_ne _ hj, fun hsrc hdst => ?advance, fun hnot => ?written⟩
  case advance =>
    rw [retire_pc_of_not_pcWritten (by simp [hpc, hsrc, hdst]), hreg, update_stepped_zero_of_sparesPc s dst hdst,
      (readOperand_pc_of_sparesPc hread hsrc).1]
  case written =>
    refine retire_reg_of_pcWritten ?_ 0
    rw [hpc, ← Bool.not_and, Bool.not_eq_true', ← Bool.decide_and]
    exact decide_eq_false hnot

end Destination

/-- Settles O20: the destination's post-step follows the write, so the word moved wins over the source's steps. -/
theorem transferToRegister : Obligations.TransferToRegister := by
  intro s dst src v k hi hread
  have hwrite := writeOperand_direct (c := s.cfg) (v := v) (k := k) hi
  obtain ⟨k', hk'⟩ : ∃ k', k' = stepAfter s.cfg dst ((stepBefore s.cfg dst k).setReg dst.reg v) := ⟨_, rfl⟩
  rw [← hk'] at hwrite
  have hsys := writeOperand_keepsSystem hwrite
  have hreg : k'.reg = Function.update k.reg dst.reg (s.stepped dst.mode v) := by
    rw [hk', stepAfter_reg, Run.reg_setReg_eq_update, Function.update_self, stepBefore_reg, Function.update_idem,
      Function.update_idem]
  have hpc : k'.pcWritten = (k.pcWritten || decide (dst.reg = 0)) := by
    rw [hk', stepAfter_pcWritten, Run.setReg_pcWritten, stepBefore_pcWritten]
    by_cases h0 : dst.reg = 0 <;> simp [h0]
  have hk4 : k.sr4Written = false := (readOperand_keepsSystem hread).sr4Written
  refine ⟨_, completes_xf hread hwrite, fun j hj => ?regs, fun h0 => ?jump, fun h0 hsrc => ?advance,
    fun h0 hsrc => ?stepped, (hsys.kept (by rw [hk']; simp) (by rw [hk']; simp)).retire,
    hsys.counted_retire hk4 (by rw [hk']; simp)⟩
  case regs => rw [retire_reg_ne _ hj, ← Run.reg_eq, hreg]
  case jump => rw [retire_reg_of_pcWritten (by simp [hpc, h0]), hreg, h0, Function.update_self]
  case advance =>
    obtain ⟨hkpc, hkw⟩ := readOperand_pc_of_sparesPc hread hsrc
    rw [retire_pc_of_not_pcWritten (by simp [hpc, h0, hkw]), hreg, Function.update_of_ne (Ne.symm h0), hkpc]
  case stepped =>
    have hkw : k.pcWritten = true := by rw [(readOperand_reg hread).2, Run.start_pcWritten]; simp [hsrc]
    rw [retire_reg_of_pcWritten (by simp [hpc, hkw]), hreg, Function.update_of_ne (Ne.symm h0)]

/-- Settles O21. -/
theorem transferToMemory : Obligations.TransferToMemory := by
  rintro s dst src v k - hi hread ⟨ha, hk⟩
  obtain ⟨m, hm⟩ : ∃ m, m = (stepBefore s.cfg dst k).arch.storedWord s.cfg (destAddr s.cfg dst k) v := ⟨_, rfl⟩
  have hstore : storeWord s.cfg (destAddr s.cfg dst k) v (stepBefore s.cfg dst k).arch = .ok m := by
    rw [hm]
    exact storeWord_eq_storedWord ha hk
  have hwrite := writeOperand_indirect hi hstore
  have hsys := writeOperand_keepsSystem hwrite
  have hmem : (retire (stepAfter s.cfg dst { stepBefore s.cfg dst k with arch := m })).mem = m.mem := by simp
  have hkmem : (stepBefore s.cfg dst k).arch.mem = s.arch.mem := by
    rw [stepBefore_mem, (readOperand_mem hread).1, Run.start_arch]
  obtain ⟨hregs, hadvance, hwritten⟩ := xf_store_registers (dst := dst) hread (m := m) (by rw [hm]; rfl) rfl
  refine ⟨destAddr_eq s dst k, _, completes_xf hread hwrite, ?word, fun x hx => ?frame, hregs, hadvance, hwritten,
    hsys.keptControl_retire ?bus, hsys.counted_retire (readOperand_keepsSystem hread).sr4Written ?draws⟩
  case word =>
    have hword := wordAt_storedWord s.cfg (destAddr s.cfg dst k) v (stepBefore s.cfg dst k).arch
    rw [State.wordAt] at hword ⊢
    rw [hmem, hm]
    exact hword
  case frame =>
    rw [hmem, hm, ← hkmem]
    exact Memory.read_writeAll_of_not_mem hx
  case bus => rw [stepAfter_bus, hm]; exact stepBefore_bus _ _ _
  case draws => rw [stepAfter_draws, hm]; exact stepBefore_draws _ _ _

/-- Settles O22. -/
theorem transferToFaultOrDevice : Obligations.TransferToFaultOrDevice := by
  rintro s dst src v a k hi hread rfl
  refine ⟨fun ha => ?misaligned, fun ha hk => ?unmapped, fun ha hk => ?device⟩
  case misaligned => exact exec_xf_fault hread (writeOperand_fault hi (storeWord_misaligned ha))
  case unmapped => exact exec_xf_fault hread (writeOperand_fault hi (storeWord_nothing ha hk))
  case device =>
    have hwrite := writeOperand_indirect (v := v) hi (storeWord_device ha hk)
    have hsys := writeOperand_keepsSystem hwrite
    obtain ⟨hregs, hadvance, hwritten⟩ := xf_store_registers (dst := dst) hread
      (m := { (stepBefore s.cfg dst k).arch with
        bus := (stepBefore s.cfg dst k).arch.bus ++ [.write (destAddr s.cfg dst k).toNat s.cfg.wordBytes v.toNat] })
      rfl rfl
    exact ⟨_, completes_xf hread hwrite, (hsys.kept (by simp) (by simp)).retire, hregs, hadvance, hwritten,
      hsys.counted_retire (readOperand_keepsSystem hread).sr4Written (by simp)⟩

/-- The address of LDOFF: the base plus the signed displacement in words. -/
theorem offsetAddr_eq {W : Nat} (c : Config) (base : BitVec W) (imm : BitVec 4) :
    offsetAddr c base imm = base + BitVec.ofInt W (imm.toInt * c.wordBytes) := by
  rw [offsetAddr, sext, BitVec.ofInt_mul, BitVec.ofInt_natCast]

section LoadOffset
variable {W : Nat} {c : Config} {a : Reg} {imm : BitVec 4} {k : Run W} {v : BitVec W} {m : Arch W}

theorem loadOffset_of_load (hl : loadWord c (offsetAddr c (k.reg a) imm) k.arch = .ok (v, m)) :
    loadOffset c a imm k = .ok (Run.setReg { k with arch := m } a v) := by
  simp [loadOffset, hl]

theorem loadOffset_fault {f : Fault} (hl : loadWord c (offsetAddr c (k.reg a) imm) k.arch = .error f) :
    loadOffset c a imm k = .error (.modelFault f) := by
  simp [loadOffset, hl]

end LoadOffset

end Sys2Proof.Machine

namespace Sys2Proof.Laws

open Sys2Proof.Machine

/-- Settles O36, by the kind of the access. -/
theorem loadOffset : Obligations.LoadOffset := by
  intro s a imm addr haddr
  rw [← offsetAddr_eq] at haddr
  subst haddr
  refine ⟨fun ⟨ha, hk⟩ => ?plain, fun ha => ?misaligned, fun ha hk => ?unmapped, fun ha hk => ?device⟩
  case plain =>
    exact setsAndAdvances_of_execute (p := Machine.loadOffset s.cfg a imm) rfl
      (loadOffset_of_load (loadWord_plain ha hk))
  case misaligned =>
    exact execute_of_fault (p := Machine.loadOffset s.cfg a imm) (loadOffset_fault (loadWord_misaligned ha))
  case unmapped =>
    exact execute_of_fault (p := Machine.loadOffset s.cfg a imm) (loadOffset_fault (loadWord_nothing ha hk))
  case device =>
    have hrun := loadOffset_of_load (k := Run.start s.arch) (loadWord_device ha hk)
    have hsys := loadOffset_keepsSystem hrun
    refine ⟨_, execute_of_ok (p := Machine.loadOffset s.cfg a imm) hrun, retire_setReg_reg_self _ _ _,
      fun _ => retire_setReg_reg_ne _ _ _, retire_setReg_pc _ _ _, (hsys.kept rfl rfl).retire, ?_⟩
    obtain ⟨hsr4, hsr5⟩ := counted_retire_setReg { s.arch with
      bus := s.arch.bus ++ [.read (offsetAddr s.cfg (s.arch.reg a) imm).toNat s.cfg.wordBytes],
      draws := s.arch.draws + 1 } a (BitVec.ofNat s.W (Config.deviceValue s.arch.draws % 2 ^ (8 * s.cfg.wordBytes)))
    exact ⟨hsr4, hsr5⟩

end Sys2Proof.Laws
end
